-- ==== Sys2Proof/Word.lean ====
section
/-!
DEFINITION. The word types of the block (spec/00_scope.md R5, R6): every value is unsigned, and a word of `n` bits
is a bit vector, so that addition wraps modulo `2^n` as R6 and R121 say.
-/

namespace Sys2Proof

/-- One byte of KEYMEM, MSGMEM or IMGMEM (R46). -/
abbrev Byte := BitVec 8

/-- A 32-bit word: a register of the window (R18), a command word (R60), a word inside SHA-256 (R100). -/
abbrev Word32 := BitVec 32

/-- A 64-bit word: a PRNG state word (R10), a seed lane (R11), a draw (R122). -/
abbrev Word64 := BitVec 64

end Sys2Proof
end

