-- ==== Sys2Proof/Syntax.lean ====
section
/-!
DEFINITION. The command set, version 1 (spec/30_encoding.md R62): seven commands, one constructor for each row of
spec/opcode_table.json. No command has an operand (R67).
-/

namespace Sys2Proof

/-- A command of the block (R62). Every operand is implicit, taken from the registers and the memories (R60, R67). -/
inductive Instr where
  /-- `INIT`, word `0x00000001` (R84): start a fresh invocation. -/
  | init
  /-- `KSEED`, word `0x00000002` (R107): hash the key into `SEED`. -/
  | kseed
  /-- `PSOPEN`, word `0x00000003` (R120): construct the position stream. -/
  | psopen
  /-- `DRAW`, word `0x00000004` (R124): one raw draw. -/
  | draw
  /-- `NEXTPOS`, word `0x00000005` (R130): issue the next unique position. -/
  | nextpos
  /-- `EMBED`, word `0x00000006` (R160): write the BitStream into the image. -/
  | embed
  /-- `EXTRACT`, word `0x00000007` (R164): read a BitStream from the image. -/
  | extract
deriving DecidableEq, Repr

end Sys2Proof
end

