-- ==== Sys2Proof/WellFormed.lean ====
section
/-!
DEFINITION. Which command words are well formed (spec/30_encoding.md R60, R63). A command word has the one format
`CMD32` of two fields; a command itself has no operand, so every `Instr` is well formed.
-/

namespace Sys2Proof

/-- Format `CMD32` (R60): `ZERO` is bits 31:8, `OPCODE` is bits 7:0. -/
structure Cmd32 where
  zero   : BitVec 24
  opcode : BitVec 8
deriving DecidableEq, Repr

/-- First check of R63: every bit of 31:8 is 0, whatever the opcode. -/
def Cmd32.zeroFieldClear (c : Cmd32) : Bool := c.zero == 0#24

/-- Second check of R63: the opcode is one of `0x01` to `0x07`; `0x00` and `0x08` to `0xFF` are reserved. -/
def Cmd32.opcodeAssigned (c : Cmd32) : Bool := decide (1 ≤ c.opcode.toNat) && decide (c.opcode.toNat ≤ 7)

/-- A command word names a command exactly when both checks pass (R61, R63). -/
def Cmd32.wf (c : Cmd32) : Bool := c.zeroFieldClear && c.opcodeAssigned

/-- A command has no register field, no immediate, no mode and no qualifier (R60, R67): there is nothing in it that
could be ill formed. -/
def Instr.wf (_ : Instr) : Bool := true

end Sys2Proof
end

