-- ==== Sys2Proof/Decode.lean ====
section
/-!
DEFINITION. Decoding a command word (spec/30_encoding.md R60 to R63), total on every 32-bit word, and the encoder
written from the same table. Decoding does not look at `PHASE` (R61). The block deals in 32-bit values only: how a
bus carries the four bytes of one is the platform's (R47), so there is no byte order to decide here.
-/

namespace Sys2Proof

/-- The two fields of a command word (R60). -/
def Cmd32.ofWord (w : Word32) : Cmd32 := ⟨w.extractLsb' 8 24, w.extractLsb' 0 8⟩

/-- The word of two fields (R60). -/
def Cmd32.toWord (c : Cmd32) : Word32 := c.zero ++ c.opcode

/-- One row of the opcode map: `w` is this row's command when `w &&& mask = pattern` (R61). -/
structure OpRow where
  instr   : Instr
  pattern : Word32
  mask    : Word32
deriving DecidableEq, Repr

/-- The opcode map of R62, with the match and mask values of spec/opcode_table.json. -/
def opcodeTable : List OpRow :=
  [ ⟨.init,    0x00000001#32, 0xFFFFFFFF#32⟩,
    ⟨.kseed,   0x00000002#32, 0xFFFFFFFF#32⟩,
    ⟨.psopen,  0x00000003#32, 0xFFFFFFFF#32⟩,
    ⟨.draw,    0x00000004#32, 0xFFFFFFFF#32⟩,
    ⟨.nextpos, 0x00000005#32, 0xFFFFFFFF#32⟩,
    ⟨.embed,   0x00000006#32, 0xFFFFFFFF#32⟩,
    ⟨.extract, 0x00000007#32, 0xFFFFFFFF#32⟩ ]

/-- The row of R61's test. -/
def OpRow.accepts (r : OpRow) (w : Word32) : Bool := w &&& r.mask == r.pattern

/-- Why a word is no command (R63). -/
inductive IllegalWord where
  /-- A bit of 31:8 is set, whatever the opcode. -/
  | zeroFieldSet (zero : BitVec 24)
  /-- The opcode is `0x00` or `0x08` to `0xFF`. -/
  | reservedOpcode (opcode : BitVec 8)
deriving DecidableEq, Repr

/-- What a word decodes to: a command, or the named reason why it is none. -/
inductive Decoded where
  | command (i : Instr)
  | illegal (why : IllegalWord)
deriving DecidableEq, Repr

/-- Why a word that matches no row is illegal (R63). -/
def illegalReason (w : Word32) : IllegalWord :=
  let c := Cmd32.ofWord w
  if c.zeroFieldClear then .reservedOpcode c.opcode else .zeroFieldSet c.zero

/-- Decoding (R61): the command of the row that matches, and a named refusal where none does. -/
def decode (w : Word32) : Decoded :=
  match opcodeTable.find? (fun r => r.accepts w) with
  | some r => .command r.instr
  | none => .illegal (illegalReason w)

/-- The opcode of a command, bits 7:0 of its word (R62). -/
def opcodeOf : Instr → BitVec 8
  | .init    => 0x01#8
  | .kseed   => 0x02#8
  | .psopen  => 0x03#8
  | .draw    => 0x04#8
  | .nextpos => 0x05#8
  | .embed   => 0x06#8
  | .extract => 0x07#8

/-- The word of a command (R60, R62): `ZERO` is 0, `OPCODE` selects the command. -/
def encode (i : Instr) : Word32 := Cmd32.toWord ⟨0#24, opcodeOf i⟩

/-- The command word whose bits are `w`, for an opcode-table row of `nbits` bits; bits above `nbits` are 0, and a
number with bits above 31 is no command word. -/
def tableWord (nbits w : Nat) : Option Word32 :=
  let v := w % 2 ^ nbits
  if v < 2 ^ 32 then some (BitVec.ofNat 32 v) else none

/-- What the decoder reads from the opcode table's row bits. -/
def decodeTableWord (nbits w : Nat) : Option Instr :=
  match tableWord nbits w with
  | none => none
  | some v =>
    match decode v with
    | .command i => some i
    | .illegal _ => none

end Sys2Proof
end

