-- ==== Sys2Proof/Config.lean ====
section
/-!
DEFINITION. What this hardware fixes (the parameter table of spec/00_scope.md R4) and the two constants the model
adds. Nothing here is left open: spec/93_implementation_defined.md says of U1 to U6 that a model does not carry
them as parameters. The one OPEN parameter, `MEM_BACKING`, is not a constant: it is the field `backing` of State, so
that every statement holds for every value of it (assumption 5).
-/

namespace Sys2Proof.Config

/-- `ROT_OUT` of R4: the rotation in the output of a draw (R122). -/
def rotOut : Nat := 23

/-- `SHIFT_T` of R4: the shift of `s[1]` in a draw (R122). -/
def shiftT : Nat := 17

/-- `ROT_S3` of R4: the rotation of `s[3]` in a draw (R122). -/
def rotS3 : Nat := 45

/-- `LEN_WIDTH` of R4: the bits of the length field (R150). -/
def lenWidth : Nat := 32

/-- The bytes of address space of KEYMEM (R4, R40). -/
def keySpace : Nat := 2 ^ 32

/-- The bytes of address space of MSGMEM (R4, R40). -/
def msgSpace : Nat := 2 ^ 32

/-- The bytes of address space of IMGMEM (R4, R40). -/
def imgSpace : Nat := 2 ^ 41

/-- The bytes of the register window (R18). -/
def windowBytes : Nat := 0x100

/-- What a memory byte that nothing has written reads as. DESIGN CHOICE (assumption 1, unsafe): the spec leaves the
contents after power-up unspecified (R36, U12). -/
def unwrittenByte : Byte := 0#8

/-- How many draws one `NextPos` tries before the model calls it a hang. The PRNG state has 256 bits, so after
`2^256` draws every state the generator can reach has been tried: a loop that has not ended by then never ends.
DEDUCED (assumption 3, safe): this bound is no limit of the block (R211 says it has none), it decides exactly
whether the loop of R128 ends. -/
def prngStates : Nat := 2 ^ 256

end Sys2Proof.Config
end

