-- ==== Sys2Proof/Machine/State.lean ====
section
/-!
DEFINITION. The state of the block as plain data (spec/10_state.md R10 to R36, spec/20_memory.md R40), the moves of
the host that are still to come (spec/70_reset_and_hazards.md R203), and the state after hardware reset (R36).
-/

namespace Sys2Proof.Machine

/-- Four 64-bit words: the PRNG state `s[0..3]` (R10), or the four lanes `SEED[0..3]` (R11). -/
structure Quad where
  w0 : Word64
  w1 : Word64
  w2 : Word64
  w3 : Word64
deriving DecidableEq, Repr

/-- All four words 0: `s` and `SEED` after reset and after `INIT` (R36). -/
def Quad.zero : Quad := ⟨0#64, 0#64, 0#64, 0#64⟩

/-- A position `(pix, ch)`: one colour channel byte of one pixel (R9, R12). The widths are those of `POS.PIX` and
`POS.CH` (R16). -/
structure Position where
  pix : BitVec 32
  ch  : BitVec 8
deriving DecidableEq, Repr

/-- The order in which the model lists positions (pixel first, then channel); it is injective. -/
def Position.key (p : Position) : Nat := p.pix.toNat * 256 + p.ch.toNat

/-- `PHASE` (R14). The reserved codes 7 to 15 are never produced, so the type does not contain them (U15). -/
inductive Phase where
  /-- Code 0: fresh invocation, configuration writable. -/
  | idle
  /-- Code 1: `SEED` holds the hash of the key. -/
  | seedDerived
  /-- Code 2: `s` is loaded, draws are allowed. -/
  | positionStreamReady
  /-- Code 3: an `EMBED` is running. -/
  | embedding
  /-- Code 4: an `EXTRACT` is running. -/
  | extracting
  /-- Code 5: the embed or extract finished without fault. -/
  | done
  /-- Code 6: a command raised `CapacityExceeded`. -/
  | failed
deriving DecidableEq, Repr

/-- `FAULT.CODE` (R15). The reserved codes 2 to 255 are never produced, so the type does not contain them (U15). -/
inductive FaultCode where
  /-- Code 0. -/
  | noFault
  /-- Code 1, the one fault of the block (R181). -/
  | capacityExceeded
deriving DecidableEq, Repr

/-- The three byte memories (R40). They are separate stores: an address in one says nothing of the others (R217). -/
inductive Space where
  | keymem
  | msgmem
  | imgmem
deriving DecidableEq, Repr

/-- One byte memory: the bytes that differ from what an unlisted address reads as, by strictly rising address. -/
abbrev Memory := List Host.Cell

/-- What an address that the list does not hold reads as (assumption 1). -/
def Memory.unlisted : Byte := Config.unwrittenByte

/-- The open parameter `MEM_BACKING` (R57, D31): of each memory, the bytes `0` to `n - 1` are backed by storage. -/
structure Backing where
  key : Nat
  msg : Nat
  img : Nat
deriving DecidableEq, Repr

/-- What the outside world can do to the block (R18, R56, R200, R203): one register access, one byte access to a
memory, or an act of the platform. A wider access of the host to a memory is several byte moves (assumption 8). -/
inductive HostMove where
  /-- `HostWrite32(off, v)` (R18); at offset 0 it issues the command word `v` (R19). -/
  | write32 (off : Nat) (v : Word32)
  /-- `HostRead32(off)` (R18). -/
  | read32 (off : Nat)
  /-- The host writes one byte of a memory (R56). -/
  | writeByte (sp : Space) (a : Nat) (v : Byte)
  /-- The host reads one byte of a memory (R56). -/
  | readByte (sp : Space) (a : Nat)
  /-- Hardware reset while no command runs, or while one hangs (R200, R211). -/
  | reset
  /-- The host writes `w` to `CMD` and hardware reset cuts the command when it has made at most `cut` memory writes.
  The cut point is unspecified (R200, U13): `cut` is any number, and the platform chooses it. -/
  | resetDuring (w : Word32) (cut : Nat)
  /-- Power is lost and comes back: the block takes its reset values, the memories hold any bytes (R193, U18). -/
  | powerCycle (key msg img : List Host.Cell)
deriving DecidableEq, Repr

/-- The whole state. The fields down to `imgmem` are the spec's; the last four are the model's own. -/
structure State where
  /-- `PHASE`, 4 bits (R14). -/
  phase      : Phase
  /-- `FAULT.CODE`, 8 bits (R15). -/
  fault      : FaultCode
  /-- `STATUS.ILL`, 1 bit, sticky (R15). -/
  ill        : Bool
  /-- `SEED[0..3]`, 256 bits (R11). -/
  seed       : Quad
  /-- The PRNG state `s[0..3]`, four general registers of 64 bits (R10). -/
  prng       : Quad
  /-- `USED`, the set of issued positions (R12), as the list of its elements by strictly rising `key`. -/
  used       : List Position
  /-- `ISSUED`, 40 bits (R13). -/
  issued     : BitVec 40
  /-- `DRAW`, 64 bits (R16). -/
  draw       : Word64
  /-- `POS`, 32 and 8 bits (R16). -/
  pos        : Position
  /-- `RLEN`, 32 bits (R16). -/
  rlen       : Word32
  /-- `KEY_LEN`, 32 bits (R20). -/
  keyLen     : Word32
  /-- `MSG_LEN`, 32 bits (R21). -/
  msgLen     : Word32
  /-- `PIXEL_COUNT`, 32 bits (R22). -/
  pixelCount : Word32
  /-- `CHANCFG.USABLE_CH`, 8 bits (R23). -/
  usableCh   : BitVec 8
  /-- `CHANCFG.PAD`, 8 bits (R23). -/
  pad        : BitVec 8
  /-- KEYMEM (R40, R42). -/
  keymem     : Memory
  /-- MSGMEM (R40, R43). -/
  msgmem     : Memory
  /-- IMGMEM (R40, R44). -/
  imgmem     : Memory
  /-- The model's own: the parameter `MEM_BACKING` (R57); no step writes it. -/
  backing    : Backing
  /-- The model's own: true while a command runs that never ends, so that the write of `CMD` never completes
  (R50, R211). -/
  hung       : Bool
  /-- The model's own: the value the host's latest read returned (R203), a byte zero-extended. -/
  reply      : Word32
  /-- The model's own: the moves of the host still to come, the next one first (R35, R203). -/
  host       : List HostMove
deriving DecidableEq, Repr

/-- Reasons for which the machine itself stops. There is none: the block has "no other exception, no trap to
software, no abort, no machine check, no bus error" (R180); its one fault `CapacityExceeded` is a state it goes on
from (R186), an illegal command sets a flag (R83), and a hang is a state that stays (R211). -/
inductive Fault where
deriving DecidableEq, Repr

/-- Why the model does not admit a move. Each is an access the spec says does not exist, or whose result it says it
does not define; all are safe: the run ends. -/
inductive Refusal where
  /-- Raised by no meaning: the name under which an instruction without a meaning would be rejected. Safe. -/
  | notModelled (mnemonic : String)
  /-- Raised by `hostMove` for a register access at an offset that is not a multiple of 4: no such access exists on
  the interface, "a model refuses it" (R18, U9). Safe. -/
  | unalignedRegisterAccess (off : Nat)
  /-- Raised by `hostMove` for a register access at an offset of `0x100` or above: it is "outside the block" (R32).
  Safe. -/
  | outsideWindow (off : Nat)
  /-- Raised by `hostMove` for a byte access beyond the end of the address space (R40). Safe. -/
  | outsideMemory (sp : Space) (a : Nat)
  /-- Raised by `hostMove` for a byte access to an address the platform does not back (R40, R57). Safe. -/
  | unbackedByte (sp : Space) (a : Nat)
  /-- Raised by the meanings of `KSEED`, `EMBED` and `EXTRACT` where R57's range of addresses is not backed: what
  the block does is "not defined by this spec: a model that wants to be safe refuses such a launch" (R57, U10).
  Safe. -/
  | unbackedLaunch (i : Instr)
deriving DecidableEq, Repr

/-- What a step or a meaning answers. -/
abbrev Out := Host.Outcome State Fault Refusal

/-- The whole of each address space is backed (assumption 5). -/
def Backing.full : Backing := ⟨Config.keySpace, Config.msgSpace, Config.imgSpace⟩

/-- The machine right after hardware reset (R36): every register 0, `PHASE = Idle`, `USED` empty. The memories'
contents are unspecified there: nothing is listed, and an unlisted byte reads as assumption 1 says. The model's own
fields: full backing (assumption 5), nothing hung, no reply yet (assumption 6), no host move pending
(assumption 4). -/
def State.reset : State where
  phase      := .idle
  fault      := .noFault
  ill        := false
  seed       := Quad.zero
  prng       := Quad.zero
  used       := []
  issued     := 0#40
  draw       := 0#64
  pos        := ⟨0#32, 0#8⟩
  rlen       := 0#32
  keyLen     := 0#32
  msgLen     := 0#32
  pixelCount := 0#32
  usableCh   := 0#8
  pad        := 0#8
  keymem     := []
  msgmem     := []
  imgmem     := []
  backing    := Backing.full
  hung       := false
  reply      := 0#32
  host       := []

end Sys2Proof.Machine
end

