-- ==== Sys2Proof/Machine/Ops.lean ====
section
/-!
DEFINITION. The named operations over the memories, the set of issued positions and the registers, and, once for the
whole machine, how the block enters its one fault (spec/60_exceptions.md R186) and how it leaves it (R187: `INIT`,
R84, or hardware reset, R36 and R200).
-/

namespace Sys2Proof.Machine

/-! ### The byte memories (R40, R46) -/

/-- `MemRead(space, a, 1)` (R7): the byte at `a`. -/
def Memory.read : Memory → Nat → Byte
  | [], _ => Memory.unlisted
  | (b, v) :: m, a => if a = b then v else Memory.read m a

/-- `MemWrite(space, a, 1, v)` (R7). The list stays sorted, and a byte that reads as an unlisted one is not listed. -/
def Memory.write : Memory → Nat → Byte → Memory
  | [], a, v => if v = Memory.unlisted then [] else [(a, v)]
  | (b, w) :: m, a, v =>
    if a < b then
      if v = Memory.unlisted then (b, w) :: m else (a, v) :: (b, w) :: m
    else if a = b then
      if v = Memory.unlisted then m else (a, v) :: m
    else (b, w) :: Memory.write m a v

/-- The canonical form: addresses strictly rising, no entry equal to an unlisted byte. -/
abbrev Memory.wf (m : Memory) : Prop :=
  m.Pairwise (fun c d => c.1 < d.1) ∧ ∀ c ∈ m, c.2 ≠ Memory.unlisted

/-- Every listed address is below `n`, the size of the space. -/
abbrev Memory.within (n : Nat) (m : Memory) : Prop := ∀ c ∈ m, c.1 < n

/-- The memory of `n` bytes that holds the cells given, later cells over earlier ones, cells beyond the space left
out. -/
def Memory.ofCells (n : Nat) (cells : List Host.Cell) : Memory :=
  cells.foldl (fun m c => if c.1 < n then Memory.write m c.1 c.2 else m) []

/-- The number of addresses of a memory (R40). -/
def Space.size : Space → Nat
  | .keymem => Config.keySpace
  | .msgmem => Config.msgSpace
  | .imgmem => Config.imgSpace

/-- How many bytes of a memory are backed by storage (R57). -/
def Backing.bytes (b : Backing) : Space → Nat
  | .keymem => b.key
  | .msgmem => b.msg
  | .imgmem => b.img

/-- The memory of a space. -/
def State.memory (s : State) : Space → Memory
  | .keymem => s.keymem
  | .msgmem => s.msgmem
  | .imgmem => s.imgmem

/-- `MemRead(sp, a, 1)`. -/
def State.readByte (s : State) (sp : Space) (a : Nat) : Byte := (s.memory sp).read a

/-- `MemWrite(sp, a, 1, v)`. -/
def State.writeByte (s : State) (sp : Space) (a : Nat) (v : Byte) : State :=
  match sp with
  | .keymem => { s with keymem := s.keymem.write a v }
  | .msgmem => { s with msgmem := s.msgmem.write a v }
  | .imgmem => { s with imgmem := s.imgmem.write a v }

/-! ### The set of issued positions (R12) -/

/-- `USED + {p}`, in the order of `Position.key`; the set itself when `p` is already in it. -/
def usedInsert (p : Position) : List Position → List Position
  | [] => [p]
  | q :: qs =>
    if p.key < q.key then p :: q :: qs
    else if p.key = q.key then q :: qs
    else q :: usedInsert p qs

/-- The list form of a set: strictly rising keys, so no position twice. -/
abbrev usedWf (u : List Position) : Prop := u.Pairwise (fun p q => p.key < q.key)

/-- The four lines of R128 that issue a position: `USED`, `ISSUED` and `POS` are written together. -/
def State.issue (s : State) (p : Position) : State :=
  { s with used := usedInsert p s.used, issued := s.issued + 1#40, pos := p }

/-! ### Entering the fault, leaving it, hanging -/

/-- `raise CapacityExceeded` (R186): "PHASE <- Failed ; FAULT.CODE <- 1" and nothing else. Nothing is saved, no mode
changes and control goes nowhere. -/
def State.raiseCapacityExceeded (s : State) : State :=
  { s with phase := .failed, fault := .capacityExceeded }

/-- The effect of `INIT` (R84), the one way out of `Failed` short of reset (R187): all state of R36 but the
configuration registers and the memories. -/
def State.freshInvocation (s : State) : State :=
  { s with phase := .idle, fault := .noFault, ill := false, seed := Quad.zero, prng := Quad.zero, used := [],
           issued := 0#40, draw := 0#64, pos := ⟨0#32, 0#8⟩, rlen := 0#32 }

/-- Hardware reset (R200): every piece of block state takes R36's reset value, the three memories are not touched. A
command that hung is over. The host's moves, its latest reply and the platform's backing are not the block's. -/
def State.hardwareReset (s : State) : State :=
  { State.reset with keymem := s.keymem, msgmem := s.msgmem, imgmem := s.imgmem,
                     backing := s.backing, reply := s.reply, host := s.host }

/-- Loss of power (R193, U18): reset values for the block, any bytes in the memories. -/
def State.powerCycle (s : State) (key msg img : List Host.Cell) : State :=
  { s.hardwareReset with keymem := Memory.ofCells Config.keySpace key,
                         msgmem := Memory.ofCells Config.msgSpace msg,
                         imgmem := Memory.ofCells Config.imgSpace img }

/-- The running command never ends (R211): the write of `CMD` never completes and the host is blocked (R50). What
the command had done before stands. -/
def State.hang (s : State) : State := { s with hung := true }

/-- The host's next move is taken from the list. -/
def State.popMove (s : State) (rest : List HostMove) : State := { s with host := rest }

/-- The value a read returned to the host (R203). -/
def State.answer (s : State) (v : Word32) : State := { s with reply := v }

/-- The phase a command leaves behind, or takes while it runs (R81). -/
def State.toPhase (s : State) (p : Phase) : State := { s with phase := p }

/-! ### The registers the commands write -/

/-- `SEED[i] <- lane i` for all four lanes (R107). -/
def State.loadSeed (s : State) (q : Quad) : State := { s with seed := q }

/-- `s[i] <- SEED[i]` for `i = 0..3`, `USED <- {}`, `ISSUED <- 0` (R120). -/
def State.openStream (s : State) : State := { s with prng := s.seed, used := [], issued := 0#40 }

/-- `s` and `DRAW` after draws whose last output is `r` and whose last state is `q` (R122). -/
def State.drawn (s : State) (r : Word64) (q : Quad) : State := { s with prng := q, draw := r }

/-- `RLEN <- N` (R164). -/
def State.setRlen (s : State) (n : Word32) : State := { s with rlen := n }

end Sys2Proof.Machine
end

