-- ==== Sys2Proof/Machine/Operands.lean ====
section
/-!
DEFINITION. The implicit operands of the commands (spec/30_encoding.md R67): the quantities computed from the
configuration registers, the addresses in the memories, and the ranges a launch touches (spec/20_memory.md R57).
-/

namespace Sys2Proof.Machine

/-- `Capacity = PIXEL_COUNT * USABLE_CH`, on integers (R125). -/
def State.capacity (s : State) : Nat := s.pixelCount.toNat * s.usableCh.toNat

/-- The pixel stride in IMGMEM, `USABLE_CH + PAD` bytes, on integers (R23, R44). -/
def State.stride (s : State) : Nat := s.usableCh.toNat + s.pad.toNat

/-- `LsbAddr(pix, ch) = pix * (USABLE_CH + PAD) + ch`, on integers (R45). -/
def State.lsbAddr (s : State) (p : Position) : Nat := p.pix.toNat * s.stride + p.ch.toNat

/-- A position of this geometry: `pix < PIXEL_COUNT` and `ch < USABLE_CH` (R12). -/
abbrev State.inGeometry (s : State) (p : Position) : Prop :=
  p.pix.toNat < s.pixelCount.toNat ∧ p.ch.toNat < s.usableCh.toNat

/-- Every position is issued, or there is none: `ISSUED >= Capacity`, the test of R128. -/
def State.exhausted (s : State) : Bool := decide (s.capacity ≤ s.issued.toNat)

/-- `n <= Capacity - ISSUED`, on integers: `n` more positions are free. The capacity checks of R160 and R164 fail
when this is false (assumption 15). -/
def State.hasRoom (s : State) (n : Nat) : Bool := decide (n + s.issued.toNat ≤ s.capacity)

/-- `L = 32 + 8 * MSG_LEN`, on integers (R155, R160). -/
def State.streamLen (s : State) : Nat := Config.lenWidth + 8 * s.msgLen.toNat

/-- The key: bytes `0` to `KEY_LEN - 1` of KEYMEM in ascending order (R42, R101). -/
def State.keyBytes (s : State) : List Byte := (List.range s.keyLen.toNat).map (fun k => s.readByte .keymem k)

/-- The longest message an extract can return (R57): `floor((Capacity - 32) / 8)` bytes, none when Capacity is below
32, and never more than a 32-bit length can say (R153). -/
def State.longestExtract (s : State) : Nat := min ((s.capacity - Config.lenWidth) / 8) (2 ^ Config.lenWidth - 1)

/-- R57's duty of the host for one command: the addresses it will touch are backed by storage. `INIT`, `PSOPEN`,
`DRAW` and `NEXTPOS` touch none (R55), and neither does an `EXTRACT` with no free position, which raises
`CapacityExceeded` before its first read (R165; assumption 10). -/
def State.launchBacked (s : State) : Instr → Bool
  | .kseed => decide (s.keyLen.toNat ≤ s.backing.key)
  | .embed =>
    decide (s.msgLen.toNat ≤ s.backing.msg) && decide (s.pixelCount.toNat * s.stride ≤ s.backing.img)
  | .extract =>
    s.exhausted ||
      (decide (s.longestExtract ≤ s.backing.msg) && decide (s.pixelCount.toNat * s.stride ≤ s.backing.img))
  | .init | .psopen | .draw | .nextpos => true

end Sys2Proof.Machine
end

