-- ==== Sys2Proof/Machine/Flags.lean ====
section
/-!
DEFINITION. The two status flags of the block and the phase machine (spec/10_state.md R14, R15, R24, R25 and
spec/40_dispatch_and_init.md R81, R83). No arithmetic result sets a flag (R15).
-/

namespace Sys2Proof.Machine

/-- The code of a phase (R14). -/
def Phase.code : Phase → BitVec 4
  | .idle                => 0#4
  | .seedDerived         => 1#4
  | .positionStreamReady => 2#4
  | .embedding           => 3#4
  | .extracting          => 4#4
  | .done                => 5#4
  | .failed              => 6#4

/-- The code of a fault (R15). -/
def FaultCode.code : FaultCode → BitVec 8
  | .noFault          => 0#8
  | .capacityExceeded => 1#8

/-- `STATUS` as the host reads it (R18, R24): `PHASE` in 3:0, `ILL` in 8, the rest 0. -/
def State.statusWord (s : State) : Word32 := 0#23 ++ BitVec.ofBool s.ill ++ 0#4 ++ s.phase.code

/-- `FAULT` as the host reads it (R18, R25): `CODE` in 7:0, the rest 0. -/
def State.faultWord (s : State) : Word32 := 0#24 ++ s.fault.code

/-- The phases in which a command is accepted (R81). -/
def accepts : Instr → Phase → Bool
  | .init, _ => true
  | .kseed, p => p == .idle
  | .psopen, p => p == .seedDerived
  | .draw, p | .nextpos, p | .embed, p | .extract, p => p == .positionStreamReady

/-- The refusal of an illegal command (R83): "`STATUS.ILL <- 1`, and nothing else changes". -/
def State.refuseIllegal (s : State) : State := { s with ill := true }

end Sys2Proof.Machine
end

