-- ==== Sys2Proof/Machine/Control.lean ====
section
/-!
DEFINITION. The system command `INIT` (spec/40_dispatch_and_init.md R84).
-/

namespace Sys2Proof.Machine

/-- `INIT` (R84). Accepted in every phase; it cannot fault. -/
def execInit (s : State) : Out :=
  if accepts .init s.phase then .next s.freshInvocation else .next s.refuseIllegal

end Sys2Proof.Machine
end

