-- ==== Sys2Proof/Machine/BitPacker.lean ====
section
/-!
DEFINITION. The unit `bit_packer_serialize` (spec/43_bitpacker.md R150 to R156): the encode side that `EMBED` reads
and the decode side of `EXTRACT`. It has no command and no fault of its own.
-/

namespace Sys2Proof.Machine

/-- `BitAt(i)` (R152): bits 0 to 31 are the length, most significant first (R150); bit `32 + 8j + k` is bit `7 - k` of
message byte `j` (R151). -/
def State.bitAt (s : State) (i : Nat) : Bool :=
  if i < Config.lenWidth then s.msgLen.getLsbD (31 - i)
  else
    let j := (i - Config.lenWidth) / 8
    let k := (i - Config.lenWidth) % 8
    (s.readByte .msgmem j).getLsbD (7 - k)

/-- One bit as a word of `w` bits: 0 or 1. -/
def bitWord (w : Nat) (b : Bool) : BitVec w := BitVec.setWidth w (BitVec.ofBool b)

/-- The serial assembly of bits, the first read the most significant: `acc <- (acc << 1) | b` on `w` bits (R153,
R154). -/
def assemble (w : Nat) (bits : List Bool) : BitVec w :=
  bits.foldl (fun acc b => (acc <<< 1) ||| bitWord w b) 0#w

/-- `LenFromBits(b[0..31])` (R153). -/
def lenFromBits (bits : List Bool) : Word32 := assemble 32 bits

/-- `ByteFromBits(c[0..7])` (R154). -/
def byteFromBits (bits : List Bool) : Byte := assemble 8 bits

end Sys2Proof.Machine
end

