-- ==== Sys2Proof/Machine/PositionStream.lean ====
section
/-!
DEFINITION. The units `xoshiro256_prng_stateful` and `position_sampler_no_repeat` and the commands `PSOPEN`, `DRAW`
and `NEXTPOS` (spec/42_positionstream.md R120 to R130).
-/

namespace Sys2Proof.Machine

/-! ### The draw step -/

/-- `rotl64(a, k) = (a << k) | (a >> (64-k))` (R6). -/
def rotl64 (a : Word64) (k : Nat) : Word64 := (a <<< k) ||| (a >>> (64 - k))

/-- `out` of R122, from the state before the update. -/
def drawOutput (q : Quad) : Word64 := rotl64 (q.w0 + q.w3) Config.rotOut + q.w0

/-- The update of R122: the six state lines in order, each seeing the writes of the lines before it. -/
def drawState (q : Quad) : Quad :=
  let t  := q.w1 <<< Config.shiftT
  let s2 := q.w2 ^^^ q.w0
  let s3 := q.w3 ^^^ q.w1
  let s1 := q.w1 ^^^ s2
  let s0 := q.w0 ^^^ s3
  let s2 := s2 ^^^ t
  let s3 := rotl64 s3 Config.rotS3
  ⟨s0, s1, s2, s3⟩

/-- The PRNG state after `k` draws. -/
def prngAfter : Nat → Quad → Quad
  | 0, q => q
  | k + 1, q => prngAfter k (drawState q)

/-- The output of draw number `k`, counted from 0. -/
def drawAt (k : Nat) (q : Quad) : Word64 := drawOutput (prngAfter k q)

/-- `Next()` (R122) on the registers: `s` and `DRAW` are written, nothing else. -/
def State.nextDraw (s : State) : State := s.drawn (drawOutput s.prng) (drawState s.prng)

/-! ### From a draw to a position -/

/-- The reduction (R126): `pix = r mod PIXEL_COUNT`, `ch = (r div PIXEL_COUNT) mod USABLE_CH`, unsigned on the full
64-bit draw. -/
def reducePos (pixelCount : Word32) (usableCh : BitVec 8) (r : Word64) : Position :=
  ⟨BitVec.ofNat 32 (r.toNat % pixelCount.toNat), BitVec.ofNat 8 (r.toNat / pixelCount.toNat % usableCh.toNat)⟩

/-- The candidate position of a draw, with the geometry of the registers. -/
def State.candidate (s : State) (r : Word64) : Position := reducePos s.pixelCount s.usableCh r

/-! ### Unique positions -/

/-- The rejection loop of R128, at most `n` draws: the first draw whose position is not in `used`, and the PRNG state
after it; none when all `n` draws collide. -/
def findFree (pixelCount : Word32) (usableCh : BitVec 8) (used : List Position) : Nat → Quad → Option (Word64 × Quad)
  | 0, _ => none
  | n + 1, q =>
    if reducePos pixelCount usableCh (drawOutput q) ∈ used then
      findFree pixelCount usableCh used n (drawState q)
    else some (drawOutput q, drawState q)

/-- How a `NextPos()` ends (R128, R211). -/
inductive NextPos where
  /-- It returns a position; `t` is the state then. -/
  | issued (p : Position) (t : State)
  /-- It raises `CapacityExceeded`, before any draw. -/
  | exhausted
  /-- Its loop never ends (R211). -/
  | endless
deriving DecidableEq, Repr

/-- `NextPos()` (R128). The exhaustion test comes first and once; then draws are rejected until one lands on an
unused position. `Config.prngStates` draws try every state the generator can reach, so when they all collide the
loop never ends (assumption 3). -/
def State.nextPos (s : State) : NextPos :=
  if s.exhausted then .exhausted
  else
    match findFree s.pixelCount s.usableCh s.used Config.prngStates s.prng with
    | some (r, q) => .issued (s.candidate r) ((s.drawn r q).issue (s.candidate r))
    | none => .endless

/-! ### The commands -/

/-- `PSOPEN` (R120). Accepted in `SeedDerived`; it cannot fault, and no draw is made. -/
def execPsopen (s : State) : Out :=
  if accepts .psopen s.phase then .next (s.openStream.toPhase .positionStreamReady) else .next s.refuseIllegal

/-- `DRAW` (R124). Accepted in `PositionStreamReady`; it cannot fault, whatever the Capacity. -/
def execDraw (s : State) : Out :=
  if accepts .draw s.phase then .next s.nextDraw else .next s.refuseIllegal

/-- `NEXTPOS` (R130). Accepted in `PositionStreamReady`; it faults when every position is issued, and hangs when no
draw ever lands on an unused one. -/
def execNextpos (s : State) : Out :=
  if accepts .nextpos s.phase then
    match s.nextPos with
    | .issued _ t => .next t
    | .exhausted => .next s.raiseCapacityExceeded
    | .endless => .next s.hang
  else .next s.refuseIllegal

end Sys2Proof.Machine
end

