-- ==== Sys2Proof/Machine/EmbeddingEngine.lean ====
section
/-!
DEFINITION. The unit `lsb_embed_extract_pipeline` and the commands `EMBED` and `EXTRACT`
(spec/44_embedding_engine.md R160 to R168). Each loop of the pseudocode is one recursion; a `NextPos` inside it may
issue a position, raise `CapacityExceeded` or never end, and what the loop did before stands (R186, R163).
-/

namespace Sys2Proof.Machine

/-- How a loop over positions ends. -/
inductive Walk where
  /-- Every round was made; `t` is the state then. -/
  | finished (t : State)
  /-- A `NextPos` raised `CapacityExceeded` in the state `t`. -/
  | exhausted (t : State)
  /-- A `NextPos` begun in the state `t` never ends. -/
  | endless (t : State)
deriving DecidableEq, Repr

/-- The state a loop ends in, or is stuck in. -/
def Walk.state : Walk → State
  | .finished t => t
  | .exhausted t => t
  | .endless t => t

/-- How the command ends with its loop: normally in `Done`, by the fault, or never (R81, R180). -/
def Walk.outcome : Walk → Out
  | .finished t => .next (t.toPhase .done)
  | .exhausted t => .next t.raiseCapacityExceeded
  | .endless t => .next t.hang

/-! ### EMBED -/

/-- The new byte (R162): bits 7 to 1 of `v` kept, bit 0 replaced by the bit. -/
def withLsb (v : Byte) (b : Bool) : Byte := (v &&& 0xFE#8) ||| bitWord 8 b

/-- The read and the write of one image byte (R160, R162). -/
def State.embedBit (s : State) (p : Position) (b : Bool) : State :=
  s.writeByte .imgmem (s.lsbAddr p) (withLsb (s.readByte .imgmem (s.lsbAddr p)) b)

/-- Rounds `i` to `i + n - 1` of the loop of `EMBED` (R160). -/
def embedLoop : Nat → Nat → State → Walk
  | 0, _, s => .finished s
  | n + 1, i, s =>
    match s.nextPos with
    | .issued p t => embedLoop n (i + 1) (t.embedBit p (s.bitAt i))
    | .exhausted => .exhausted s
    | .endless => .endless s

/-- `EMBED` (R160). The check of R161 comes before any draw and any access to memory; a launch whose addresses are not
backed is refused (R57). -/
def execEmbed (s : State) : Out :=
  if accepts .embed s.phase then
    if s.hasRoom s.streamLen then
      if s.launchBacked .embed then (embedLoop s.streamLen 0 (s.toPhase .embedding)).outcome
      else .refused (.unbackedLaunch .embed)
    else .next (s.toPhase .embedding).raiseCapacityExceeded
  else .next s.refuseIllegal

/-! ### EXTRACT -/

/-- The LSB of the image byte at a position (R164). -/
def State.lsbAt (s : State) (p : Position) : Bool := (s.readByte .imgmem (s.lsbAddr p)).getLsbD 0

/-- How reading bits ends: with the bits in the order they were read, or as `Walk`. -/
inductive BitWalk where
  | finished (bits : List Bool) (t : State)
  | exhausted (t : State)
  | endless (t : State)
deriving DecidableEq, Repr

/-- `n` rounds of `NextPos` and the read of an LSB (R164). -/
def readBits : Nat → State → BitWalk
  | 0, s => .finished [] s
  | n + 1, s =>
    match s.nextPos with
    | .issued p t =>
      match readBits n t with
      | .finished bits u => .finished (t.lsbAt p :: bits) u
      | .exhausted u => .exhausted u
      | .endless u => .endless u
    | .exhausted => .exhausted s
    | .endless => .endless s

/-- Message bytes `j` to `j + n - 1`: eight LSBs each, written as soon as the eighth is read (R164, R167). -/
def extractBytes : Nat → Nat → State → Walk
  | 0, _, s => .finished s
  | n + 1, j, s =>
    match readBits 8 s with
    | .finished bits t => extractBytes n (j + 1) (t.writeByte .msgmem j (byteFromBits bits))
    | .exhausted t => .exhausted t
    | .endless t => .endless t

/-- From the 32 prefix bits on (R164): `RLEN <- N`, the validation of R166, and at most `limit` message bytes. -/
def extractMessage (limit : Nat) (bits : List Bool) (s : State) : Walk :=
  let n := lenFromBits bits
  let t := s.setRlen n
  if t.hasRoom (8 * n.toNat) then extractBytes (min limit n.toNat) 0 t else .exhausted t

/-- The pseudocode of `EXTRACT` (R164) with at most `limit` message bytes; all of them when `limit` is `2^32`. -/
def extractWalk (limit : Nat) (s : State) : Walk :=
  match readBits Config.lenWidth s with
  | .finished bits t => extractMessage limit bits t
  | .exhausted t => .exhausted t
  | .endless t => .endless t

/-- `EXTRACT` (R164). Each of the 32 prefix positions has its own exhaustion test (R165); a launch whose addresses are
not backed is refused (R57). -/
def execExtract (s : State) : Out :=
  if accepts .extract s.phase then
    if s.launchBacked .extract then (extractWalk Config.msgSpace (s.toPhase .extracting)).outcome
    else .refused (.unbackedLaunch .extract)
  else .next s.refuseIllegal

end Sys2Proof.Machine
end

