-- ==== Sys2Proof/Machine/KeySeeder.lean ====
section
/-!
DEFINITION. The unit `hash_seed_gen` and its command `KSEED` (spec/41_keyseeder.md): SHA-256 (R100 to R105), the four
seed lanes (R106), the command (R107).
-/

namespace Sys2Proof.Machine

/-! ### SHA-256 -/

/-- `rotr32(a, k) = (a >> k) | (a << (32-k))` on 32 bits (R6). -/
def rotr32 (a : Word32) (k : Nat) : Word32 := (a >>> k) ||| (a <<< (32 - k))

/-- Eight 32-bit words: the chaining value `H[0..7]`, or the working variables `a` to `h` (R104). -/
structure Chain where
  a : Word32
  b : Word32
  c : Word32
  d : Word32
  e : Word32
  f : Word32
  g : Word32
  h : Word32
deriving DecidableEq, Repr

/-- The initial chaining value (R103). -/
def shaInitial : Chain :=
  ⟨0x6a09e667#32, 0xbb67ae85#32, 0x3c6ef372#32, 0xa54ff53a#32,
   0x510e527f#32, 0x9b05688c#32, 0x1f83d9ab#32, 0x5be0cd19#32⟩

/-- `K[0..31]` (R103). -/
def shaConstantsLow : List Word32 :=
  [0x428a2f98#32, 0x71374491#32, 0xb5c0fbcf#32, 0xe9b5dba5#32, 0x3956c25b#32, 0x59f111f1#32, 0x923f82a4#32, 0xab1c5ed5#32,
   0xd807aa98#32, 0x12835b01#32, 0x243185be#32, 0x550c7dc3#32, 0x72be5d74#32, 0x80deb1fe#32, 0x9bdc06a7#32, 0xc19bf174#32,
   0xe49b69c1#32, 0xefbe4786#32, 0x0fc19dc6#32, 0x240ca1cc#32, 0x2de92c6f#32, 0x4a7484aa#32, 0x5cb0a9dc#32, 0x76f988da#32,
   0x983e5152#32, 0xa831c66d#32, 0xb00327c8#32, 0xbf597fc7#32, 0xc6e00bf3#32, 0xd5a79147#32, 0x06ca6351#32, 0x14292967#32]

/-- `K[32..63]` (R103). -/
def shaConstantsHigh : List Word32 :=
  [0x27b70a85#32, 0x2e1b2138#32, 0x4d2c6dfc#32, 0x53380d13#32, 0x650a7354#32, 0x766a0abb#32, 0x81c2c92e#32, 0x92722c85#32,
   0xa2bfe8a1#32, 0xa81a664b#32, 0xc24b8b70#32, 0xc76c51a3#32, 0xd192e819#32, 0xd6990624#32, 0xf40e3585#32, 0x106aa070#32,
   0x19a4c116#32, 0x1e376c08#32, 0x2748774c#32, 0x34b0bcb5#32, 0x391c0cb3#32, 0x4ed8aa4a#32, 0x5b9cca4f#32, 0x682e6ff3#32,
   0x748f82ee#32, 0x78a5636f#32, 0x84c87814#32, 0x8cc70208#32, 0x90befffa#32, 0xa4506ceb#32, 0xbef9a3f7#32, 0xc67178f2#32]

/-- `K[0..63]` (R103). -/
def shaConstants : List Word32 := shaConstantsLow ++ shaConstantsHigh

/-- `Ch(x,y,z)` (R104). -/
def shaCh (x y z : Word32) : Word32 := (x &&& y) ^^^ (~~~x &&& z)

/-- `Maj(x,y,z)` (R104). -/
def shaMaj (x y z : Word32) : Word32 := (x &&& y) ^^^ (x &&& z) ^^^ (y &&& z)

/-- `BSIG0(x)` (R104). -/
def bsig0 (x : Word32) : Word32 := rotr32 x 2 ^^^ rotr32 x 13 ^^^ rotr32 x 22

/-- `BSIG1(x)` (R104). -/
def bsig1 (x : Word32) : Word32 := rotr32 x 6 ^^^ rotr32 x 11 ^^^ rotr32 x 25

/-- `SSIG0(x)` (R104). -/
def ssig0 (x : Word32) : Word32 := rotr32 x 7 ^^^ rotr32 x 18 ^^^ (x >>> 3)

/-- `SSIG1(x)` (R104). -/
def ssig1 (x : Word32) : Word32 := rotr32 x 17 ^^^ rotr32 x 19 ^^^ (x >>> 10)

/-- `n` more words of the message schedule (R104), the newest word first: of the words so far, `W[t-2]`, `W[t-7]`,
`W[t-15]` and `W[t-16]` are the second, seventh, fifteenth and sixteenth. -/
def extendSchedule : Nat → List Word32 → List Word32
  | 0, ws => ws
  | n + 1, ws =>
    extendSchedule n
      ((ssig1 (ws.getD 1 0) + ws.getD 6 0 + ssig0 (ws.getD 14 0) + ws.getD 15 0) :: ws)

/-- `W[0..63]` from the sixteen words of a block (R104). -/
def schedule (m : List Word32) : List Word32 := (extendSchedule 48 m.reverse).reverse

/-- One round (R104): the eight assignments use the values from before the round. -/
def shaRound (v : Chain) (k w : Word32) : Chain :=
  let t1 := v.h + bsig1 v.e + shaCh v.e v.f v.g + k + w
  let t2 := bsig0 v.a + shaMaj v.a v.b v.c
  ⟨t1 + t2, v.a, v.b, v.c, v.d + t1, v.e, v.f, v.g⟩

/-- The rounds, one for each pair `K[t]`, `W[t]` (R104). -/
def shaRounds : List Word32 → List Word32 → Chain → Chain
  | k :: ks, w :: ws, v => shaRounds ks ws (shaRound v k w)
  | _, _, v => v

/-- The compression of one block of sixteen words into the chaining value (R104). -/
def compress (h : Chain) (m : List Word32) : Chain :=
  let v := shaRounds shaConstants (schedule m) h
  ⟨h.a + v.a, h.b + v.b, h.c + v.c, h.d + v.d, h.e + v.e, h.f + v.f, h.g + v.g, h.h + v.h⟩

/-- A big-endian word: the first byte is the most significant (R102). -/
def bigEndian32 (b0 b1 b2 b3 : Byte) : Word32 := b0 ++ b1 ++ b2 ++ b3

/-- Bytes taken four at a time as big-endian words (R102). -/
def bytesToWords : List Byte → List Word32
  | b0 :: b1 :: b2 :: b3 :: rest => bigEndian32 b0 b1 b2 b3 :: bytesToWords rest
  | _ => []

/-- `M[0..15]` of the block at the head of the padded bytes (R102). -/
def blockWords (p : List Byte) : List Word32 := bytesToWords (p.take 64)

/-- The number `z` of zero bytes: the smallest that makes `l + 1 + z` congruent to 56 modulo 64 (R101). -/
def padZeros (l : Nat) : Nat := (119 - l % 64) % 64

/-- A number as 8 bytes, the most significant first (R101). -/
def bigEndianBytes64 (n : Nat) : List Byte := (List.range 8).map fun i => BitVec.ofNat 8 (n / 2 ^ (8 * (7 - i)))

/-- The padded message (R101). -/
def shaPadded (m : List Byte) : List Byte :=
  m ++ 0x80#8 :: List.replicate (padZeros m.length) 0x00#8 ++ bigEndianBytes64 (8 * m.length)

/-- `n` blocks folded in ascending order (R104). -/
def foldBlocks : Nat → List Byte → Chain → Chain
  | 0, _, h => h
  | n + 1, p, h => foldBlocks n (p.drop 64) (compress h (blockWords p))

/-- The number of blocks (R101). -/
def blockCount (l : Nat) : Nat := (l + 8) / 64 + 1

/-- A word as four bytes, the most significant first (R105). -/
def wordBytes (w : Word32) : List Byte :=
  [w.extractLsb' 24 8, w.extractLsb' 16 8, w.extractLsb' 8 8, w.extractLsb' 0 8]

/-- The digest of a chaining value: `H[0]` first, each word big-endian (R105). -/
def digestBytes (h : Chain) : List Byte :=
  wordBytes h.a ++ wordBytes h.b ++ wordBytes h.c ++ wordBytes h.d ++
  wordBytes h.e ++ wordBytes h.f ++ wordBytes h.g ++ wordBytes h.h

/-- `SHA256(m)` (R100). -/
def sha256 (m : List Byte) : List Byte :=
  digestBytes (foldBlocks (blockCount m.length) (shaPadded m) shaInitial)

/-! ### From digest to seed -/

/-- `LANE(d, i)` (R106): digest byte `8i` is the least significant. -/
def lane (d : List Byte) (i : Nat) : Word64 :=
  d.getD (8 * i + 7) 0 ++ d.getD (8 * i + 6) 0 ++ d.getD (8 * i + 5) 0 ++ d.getD (8 * i + 4) 0 ++
  d.getD (8 * i + 3) 0 ++ d.getD (8 * i + 2) 0 ++ d.getD (8 * i + 1) 0 ++ d.getD (8 * i) 0

/-- The four lanes of a digest (R106). -/
def lanes (d : List Byte) : Quad := ⟨lane d 0, lane d 1, lane d 2, lane d 3⟩

/-- The seed of a key (R107). -/
def keySeed (key : List Byte) : Quad := lanes (sha256 key)

/-! ### The command -/

/-- `KSEED` (R107). Accepted in `Idle`; it cannot fault. A launch whose key bytes are not backed is refused
(R57). -/
def execKseed (s : State) : Out :=
  if accepts .kseed s.phase then
    if s.launchBacked .kseed then .next ((s.loadSeed (keySeed s.keyBytes)).toPhase .seedDerived)
    else .refused (.unbackedLaunch .kseed)
  else .next s.refuseIllegal

end Sys2Proof.Machine
end

