-- ==== Sys2Proof/Machine/Dispatch.lean ====
section
/-!
DEFINITION. The dispatch of a decoded command to its meaning (spec/40_dispatch_and_init.md R80).
-/

namespace Sys2Proof.Machine

/-- The meaning of every command (R62, R80): its phase check, its effect, its fault. -/
def exec (i : Instr) (s : State) : Host.Outcome State Fault Refusal :=
  match i with
  | .init => Sys2Proof.Machine.execInit s
  | .kseed => Sys2Proof.Machine.execKseed s
  | .psopen => Sys2Proof.Machine.execPsopen s
  | .draw => Sys2Proof.Machine.execDraw s
  | .nextpos => Sys2Proof.Machine.execNextpos s
  | .embed => Sys2Proof.Machine.execEmbed s
  | .extract => Sys2Proof.Machine.execExtract s

end Sys2Proof.Machine
end

