-- ==== Sys2Proof/Machine/HostPort.lean ====
section
/-!
DEFINITION. What the outside world does to the block: the register window (spec/10_state.md R18 to R33), the write of
`CMD` (spec/40_dispatch_and_init.md R80), the host's accesses to the memories (spec/20_memory.md R56), hardware reset
and loss of power (spec/70_reset_and_hazards.md R200, spec/60_exceptions.md R193).
-/

namespace Sys2Proof.Machine

/-- The registers of the window by name (R18). -/
inductive WindowReg where
  | cmd
  | status
  | fault
  | keyLen
  | msgLen
  | pixelCount
  | chancfg
  | rlen
  | issuedLo
  | issuedHi
  | drawLo
  | drawHi
  | posPix
  | posCh
  | seedLo (i : Fin 4)
  | seedHi (i : Fin 4)
  | sLo (i : Fin 4)
  | sHi (i : Fin 4)
  | reserved
deriving DecidableEq, Repr

/-- The register map of R18, first part: offsets `0x00` to `0x34`. -/
def windowMapLow : List (Nat × WindowReg) :=
  [(0x00, .cmd), (0x04, .status), (0x08, .fault), (0x0C, .keyLen), (0x10, .msgLen), (0x14, .pixelCount),
   (0x18, .chancfg), (0x1C, .rlen), (0x20, .issuedLo), (0x24, .issuedHi), (0x28, .drawLo), (0x2C, .drawHi),
   (0x30, .posPix), (0x34, .posCh)]

/-- The register map of R18, second part: the seed lanes at `0x40 + 8i` and the PRNG words at `0x60 + 8i`. -/
def windowMapHigh : List (Nat × WindowReg) :=
  [(0x40, .seedLo 0), (0x44, .seedHi 0), (0x48, .seedLo 1), (0x4C, .seedHi 1),
   (0x50, .seedLo 2), (0x54, .seedHi 2), (0x58, .seedLo 3), (0x5C, .seedHi 3),
   (0x60, .sLo 0), (0x64, .sHi 0), (0x68, .sLo 1), (0x6C, .sHi 1),
   (0x70, .sLo 2), (0x74, .sHi 2), (0x78, .sLo 3), (0x7C, .sHi 3)]

/-- The register at an offset; every other offset of the window is reserved (R32). -/
def regAt (off : Nat) : WindowReg := ((windowMapLow ++ windowMapHigh).lookup off).getD .reserved

/-- Word `i` of four (R10, R11). -/
def Quad.word (q : Quad) : Fin 4 → Word64
  | 0 => q.w0
  | 1 => q.w1
  | 2 => q.w2
  | 3 => q.w3

/-- Bits 31:0 of a 64-bit value (R18). -/
def lo32 (v : Word64) : Word32 := v.extractLsb' 0 32

/-- Bits 63:32 of a 64-bit value (R18). -/
def hi32 (v : Word64) : Word32 := v.extractLsb' 32 32

/-- What a register reads (R18 to R32). `CMD` and the reserved offsets read 0, and so do reserved bits. -/
def State.readReg (s : State) : WindowReg → Word32
  | .cmd => 0#32
  | .status => s.statusWord
  | .fault => s.faultWord
  | .keyLen => s.keyLen
  | .msgLen => s.msgLen
  | .pixelCount => s.pixelCount
  | .chancfg => 0#16 ++ s.pad ++ s.usableCh
  | .rlen => s.rlen
  | .issuedLo => s.issued.extractLsb' 0 32
  | .issuedHi => 0#24 ++ s.issued.extractLsb' 32 8
  | .drawLo => lo32 s.draw
  | .drawHi => hi32 s.draw
  | .posPix => s.pos.pix
  | .posCh => 0#24 ++ s.pos.ch
  | .seedLo i => lo32 (s.seed.word i)
  | .seedHi i => hi32 (s.seed.word i)
  | .sLo i => lo32 (s.prng.word i)
  | .sHi i => hi32 (s.prng.word i)
  | .reserved => 0#32

/-- A write to a configuration register, which takes effect while `PHASE = Idle` only (R33); `CHANCFG` keeps bits 15:0
(R23). Every other register is read-only or reserved: the write changes nothing (R18, R32). -/
def State.writeReg (s : State) (r : WindowReg) (v : Word32) : State :=
  if s.phase = .idle then
    match r with
    | .keyLen => { s with keyLen := v }
    | .msgLen => { s with msgLen := v }
    | .pixelCount => { s with pixelCount := v }
    | .chancfg => { s with usableCh := v.extractLsb' 0 8, pad := v.extractLsb' 8 8 }
    | .cmd | .status | .fault | .rlen | .issuedLo | .issuedHi | .drawLo | .drawHi | .posPix | .posCh
    | .seedLo _ | .seedHi _ | .sLo _ | .sHi _ | .reserved => s
  else s

/-- The write of a command word (R19, R80): decode, then the command's phase check and pseudocode; a word that is no
command is refused (R83). -/
def issueCommand (w : Word32) (s : State) : Out :=
  match decode w with
  | .command i => exec i s
  | .illegal _ => .next s.refuseIllegal

/-- The state in which hardware reset finds the memories when it cuts the command after at most `cut` memory writes
(R200, U13). Only `EMBED` and `EXTRACT` write memory (R55); a command that is refused or that faults before its first
write has written none. -/
def cutCommand (i : Instr) (cut : Nat) (s : State) : State :=
  if accepts i s.phase then
    match i with
    | .embed =>
      if s.hasRoom s.streamLen then (embedLoop (min cut s.streamLen) 0 (s.toPhase .embedding)).state else s
    | .extract => (extractWalk cut (s.toPhase .extracting)).state
    | .init | .kseed | .psopen | .draw | .nextpos => s
  else s

/-- The command word `w` is written to `CMD` and hardware reset cuts the command (R200). -/
def resetDuring (w : Word32) (cut : Nat) (s : State) : Out :=
  match decode w with
  | .illegal _ => .next s.hardwareReset
  | .command i =>
    match exec i s with
    | .next _ => .next (cutCommand i cut s).hardwareReset
    | .fault f => .fault f
    | .refused r => .refused r

/-- The check of a register access (R18, R32, U9): an aligned word inside the window. -/
def registerAccess (off : Nat) (k : WindowReg → Out) : Out :=
  if off % 4 ≠ 0 then .refused (.unalignedRegisterAccess off)
  else if Config.windowBytes ≤ off then .refused (.outsideWindow off)
  else k (regAt off)

/-- The check of a host access to a memory byte (R40, R57): inside the space and backed. -/
def memoryAccess (s : State) (sp : Space) (a : Nat) (o : Out) : Out :=
  if sp.size ≤ a then .refused (.outsideMemory sp a)
  else if s.backing.bytes sp ≤ a then .refused (.unbackedByte sp a)
  else o

/-- One move of the host or the platform while no command runs (R203). -/
def hostMove (m : HostMove) (s : State) : Out :=
  match m with
  | .write32 off v =>
    registerAccess off fun r => if r = .cmd then issueCommand v s else .next (s.writeReg r v)
  | .read32 off => registerAccess off fun r => .next (s.answer (s.readReg r))
  | .writeByte sp a v => memoryAccess s sp a (.next (s.writeByte sp a v))
  | .readByte sp a => memoryAccess s sp a (.next (s.answer (BitVec.setWidth 32 (s.readByte sp a))))
  | .reset => .next s.hardwareReset
  | .resetDuring w cut => resetDuring w cut s
  | .powerCycle key msg img => .next (s.powerCycle key msg img)

/-- One move while a command hangs (R50, R211): hardware reset and loss of power end it; every other access "does not
complete until the command has ended", so the move stays pending and nothing changes. `rest` is the list behind the
move. -/
def blockedMove (m : HostMove) (rest : List HostMove) (s : State) : State :=
  match m with
  | .reset => (s.popMove rest).hardwareReset
  | .powerCycle key msg img => (s.popMove rest).powerCycle key msg img
  | .write32 _ _ | .read32 _ | .writeByte _ _ _ | .readByte _ _ | .resetDuring _ _ => s

end Sys2Proof.Machine
end

