-- ==== Sys2Proof/Machine/Step.lean ====
section
/-!
DEFINITION. One step of the machine: the next move of the outside world, with the whole command where the move is a
write of `CMD` (spec/20_memory.md R50 lets a model run a command as one transition). The block fetches no
instructions (spec/20_memory.md R54): a command is the word the host writes to `CMD`.
-/

namespace Sys2Proof.Machine

/-- One step. With no move pending the block is "simply idle and keeps all its state" (R193; assumption 13). -/
def step (s : State) : Host.Outcome State Fault Refusal :=
  match s.host with
  | [] => .next s
  | m :: rest => if s.hung then .next (blockedMove m rest s) else hostMove m (s.popMove rest)

/-- `s` with the command word `w` as the host's next move, so that the next step runs it; no command is left hanging
before it (assumption 4). -/
def State.withFetchWord (s : State) (nbits w : Nat) : State :=
  { s with host := .write32 0x00 (BitVec.ofNat 32 (w % 2 ^ nbits)) :: s.host, hung := false }

end Sys2Proof.Machine
end

