-- ==== Sys2Proof/Safety.lean ====
section
/-!
DEFINITION. What counts as a good state (the invariants of spec/10_state.md R34 and the canonical forms of the
model's data), and the notions statements are written with: which draw a `NextPos` ends at, and the positions a
command walks over.
-/

namespace Sys2Proof.Machine

/-- The geometry holds `used` (R34): every position in it lies in the image, there are at most Capacity of them, and
`ISSUED` counts them. -/
structure State.UsedOk (s : State) : Prop where
  sorted  : usedWf s.used
  inside  : ∀ p ∈ s.used, s.inGeometry p
  bounded : s.used.length ≤ s.capacity
  counted : s.issued.toNat = s.used.length

/-- The three memories are in canonical form and inside their address spaces (R40). -/
structure State.MemoryOk (s : State) : Prop where
  keyForm   : s.keymem.wf
  msgForm   : s.msgmem.wf
  imgForm   : s.imgmem.wf
  keyWithin : s.keymem.within Config.keySpace
  msgWithin : s.msgmem.within Config.msgSpace
  imgWithin : s.imgmem.within Config.imgSpace

/-- Phase and registers agree (R34, R15, R24): nothing is drawn before `PSOPEN`, nothing is seeded before `KSEED`,
`RLEN` is 0 until an `EXTRACT`, `PHASE = Failed` exactly when `FAULT.CODE = 1`, and the phases of a running command
are seen only while one hangs. -/
structure State.PhaseOk (s : State) : Prop where
  unopened : s.phase = .idle ∨ s.phase = .seedDerived →
    s.used = [] ∧ s.issued = 0#40 ∧ s.prng = Quad.zero ∧ s.draw = 0#64 ∧ s.pos = ⟨0#32, 0#8⟩
  unseeded : s.phase = .idle → s.seed = Quad.zero
  unread   : s.phase = .idle ∨ s.phase = .seedDerived ∨ s.phase = .positionStreamReady ∨ s.phase = .embedding →
    s.rlen = 0#32
  failed   : s.phase = .failed ↔ s.fault = .capacityExceeded
  running  : s.phase = .embedding ∨ s.phase = .extracting → s.hung = true
  hanging  : s.hung = true →
    s.phase = .positionStreamReady ∨ s.phase = .embedding ∨ s.phase = .extracting

/-- The invariant of the machine between two moves of the host (R34). -/
structure State.Inv (s : State) : Prop where
  used   : s.UsedOk
  memory : s.MemoryOk
  phase  : s.PhaseOk

/-- Draw number `k` from here (counted from 0) falls on an issued position and is rejected (R128). -/
abbrev State.rejects (s : State) (k : Nat) : Prop := s.candidate (drawAt k s.prng) ∈ s.used

/-- Draw number `k` is the first that falls on an unused position: the loop of R128 ends with it. -/
abbrev State.landsAt (s : State) (k : Nat) : Prop := (∀ j < k, s.rejects j) ∧ ¬ s.rejects k

/-- `n` calls of `NextPos` one after another (R128), no memory touched: the positions issued in order and the state
then; none when a call raises or never ends. -/
def State.positions : Nat → State → Option (List Position × State)
  | 0, s => some ([], s)
  | n + 1, s =>
    match s.nextPos with
    | .issued p t =>
      match State.positions n t with
      | some (ps, u) => some (p :: ps, u)
      | none => none
    | .exhausted => none
    | .endless => none

/-- `s` with the position stream of `t`: the registers a `NextPos` writes (R128), `s[0..3]`, `DRAW`, `USED`, `ISSUED`
and `POS`, and no other. -/
def State.withStream (s t : State) : State :=
  { s with prng := t.prng, draw := t.draw, used := t.used, issued := t.issued, pos := t.pos }

/-- `s` with the position stream and IMGMEM of `t`: what the loop of `EMBED` writes (R67). -/
def State.withStreamAndImage (s t : State) : State := { s.withStream t with imgmem := t.imgmem }

/-- `s` with the position stream and MSGMEM of `t`: what the byte loops of `EXTRACT` write (R67). -/
def State.withStreamAndMessage (s t : State) : State := { s.withStream t with msgmem := t.msgmem }

/-- The addresses of IMGMEM that positions stand for (R45). -/
def State.addresses (s : State) (ps : List Position) : List Nat := ps.map s.lsbAddr

/-- The bits of the image at positions, in order (R164). -/
def State.lsbs (s : State) (ps : List Position) : List Bool := ps.map s.lsbAt

/-- Commands one after another, each on the state the one before it left; none when one does not answer a state. -/
def runCommands : List Instr → State → Option State
  | [], s => some s
  | i :: is, s =>
    match exec i s with
    | .next t => runCommands is t
    | .fault _ => none
    | .refused _ => none

end Sys2Proof.Machine
end

