-- ==== Sys2Proof/Certificates/Slice0/Obligations.lean ====
section
/-!
DEFINITION. The statements for the provers. Each says which rule of the spec it formalises; a clause that rests on a
choice of the model names the log entry.
-/

open Sys2Proof Sys2Proof.Machine

/-! ### Encoding and dispatch -/

/-- R61: a word is the command of a row exactly when it equals the row's match value under a mask of all ones; at
most one row matches; a word that matches no row is illegal. -/
def Obligations.DecodeIsTheMatchingRow : Prop :=
  (∀ (w : Word32) (i : Instr),
    decode w = .command i ↔ ∃ r ∈ opcodeTable, r.instr = i ∧ w &&& 0xFFFFFFFF#32 = r.pattern) ∧
  (∀ (w : Word32) (i : Instr), decode w = .command i ↔ ∃ r ∈ opcodeTable, r.instr = i ∧ w = r.pattern) ∧
  (∀ (w : Word32), ∀ r ∈ opcodeTable, ∀ r' ∈ opcodeTable, w = r.pattern → w = r'.pattern → r = r') ∧
  (∀ (w : Word32), (∀ r ∈ opcodeTable, w ≠ r.pattern) → ∃ why, decode w = .illegal why)

/-- R63: every word with a bit of 31:8 set, and every opcode 0 or 8 to 255, is illegal, refused by its own name, and
issuing it changes `STATUS.ILL` and nothing else. -/
def Obligations.IllegalWordsAreRefusedByName : Prop :=
  (∀ (w : Word32), w.extractLsb' 8 24 ≠ 0#24 → decode w = .illegal (.zeroFieldSet (w.extractLsb' 8 24))) ∧
  (∀ (w : Word32), w.extractLsb' 8 24 = 0#24 →
    (w.extractLsb' 0 8 = 0#8 ∨ 8 ≤ (w.extractLsb' 0 8).toNat) →
    decode w = .illegal (.reservedOpcode (w.extractLsb' 0 8))) ∧
  (∀ (w : Word32) (s : State), (∀ i, w ≠ encode i) → issueCommand w s = .next { s with ill := true })

/-- The encoder and the decoder agree on every command, and every word that decodes is the encoder's (R60 to R62). -/
def Obligations.DecodeAndEncodeAgree : Prop :=
  (∀ i : Instr, i.wf = true → decode (encode i) = .command i) ∧
  (∀ (w : Word32) (i : Instr), decode w = .command i → encode i = w) ∧
  (∀ i : Instr, (encode i).extractLsb' 8 24 = 0#24 ∧ (Cmd32.ofWord (encode i)).wf = true)

/-- The examples of 30_encoding.md section 8: the seven command words, and three words that are none. -/
def Obligations.SampleWordsDecode : Prop :=
  decode 0x00000001#32 = .command .init ∧ decode 0x00000002#32 = .command .kseed ∧
  decode 0x00000003#32 = .command .psopen ∧ decode 0x00000004#32 = .command .draw ∧
  decode 0x00000005#32 = .command .nextpos ∧ decode 0x00000006#32 = .command .embed ∧
  decode 0x00000007#32 = .command .extract ∧ decode 0x00000000#32 = .illegal (.reservedOpcode 0x00#8) ∧
  decode 0x00000008#32 = .illegal (.reservedOpcode 0x08#8) ∧ decode 0x00000106#32 = .illegal (.zeroFieldSet 0x000001#24)

/-- R19, and the step: the write of `CMD` decodes the word and runs the command to its end in one step; a read of
`CMD` returns 0 and changes nothing else; `withFetchWord` lays out exactly that write (assumption 4). -/
def Obligations.StepRunsTheCommandWritten : Prop :=
  (∀ (s : State) (rest : List HostMove) (w : Word32) (i : Instr), s.hung = false →
    s.host = .write32 0x00 w :: rest → decode w = .command i → step s = exec i { s with host := rest }) ∧
  (∀ (s : State) (rest : List HostMove) (w : Word32) (why : IllegalWord), s.hung = false →
    s.host = .write32 0x00 w :: rest → decode w = .illegal why →
    step s = .next { s with host := rest, ill := true }) ∧
  (∀ (s : State) (rest : List HostMove), s.hung = false → s.host = .read32 0x00 :: rest →
    step s = .next { s with host := rest, reply := 0#32 }) ∧
  (∀ (s : State) (i : Instr), step (s.withFetchWord 32 (encode i).toNat) = exec i { s with hung := false })

/-- R83: an illegal command sets `STATUS.ILL` and changes nothing else; `ILL` stays until `INIT` or a reset; `INIT` is
never refused for its phase; a word with the opcode of `INIT` and a bit of 31:8 set does not initialise. The loss of
power among the resets is assumption 14. -/
def Obligations.RefusedCommandOnlySetsIll : Prop :=
  (∀ (s : State) (w : Word32) (why : IllegalWord), decode w = .illegal why →
    issueCommand w s = .next { s with ill := true }) ∧
  (∀ (s : State) (i : Instr), accepts i s.phase = false → exec i s = .next { s with ill := true }) ∧
  (∀ (s t : State), step s = .next t → s.ill = true → t.ill = false →
    ∃ m rest, s.host = m :: rest ∧
      (m = .write32 0x00 (encode .init) ∨ m = .reset ∨ (∃ w cut, m = .resetDuring w cut) ∨
        ∃ key msg img, m = .powerCycle key msg img)) ∧
  (∀ s : State, ∃ t, exec .init s = .next t ∧ t.ill = false ∧ t.phase = .idle) ∧
  (∀ (s : State) (w : Word32), w.extractLsb' 0 8 = 0x01#8 → w.extractLsb' 8 24 ≠ 0#24 →
    issueCommand w s = .next { s with ill := true })

/-- R81: in which phase each command is accepted, and the phase after it: on a normal end, after the fault, and, for
a command that never ends, while it runs (the hanging state is assumption 7). -/
def Obligations.PhaseTableOfTheCommands : Prop :=
  (∀ p, accepts .init p = true ∧ (accepts .kseed p = true ↔ p = .idle) ∧
    (accepts .psopen p = true ↔ p = .seedDerived) ∧ (accepts .draw p = true ↔ p = .positionStreamReady) ∧
    (accepts .nextpos p = true ↔ p = .positionStreamReady) ∧ (accepts .embed p = true ↔ p = .positionStreamReady) ∧
    (accepts .extract p = true ↔ p = .positionStreamReady)) ∧
  (∀ (i : Instr) (s t : State), s.hung = false → accepts i s.phase = true → exec i s = .next t →
    (i = .init → t.phase = .idle) ∧ (i = .kseed → t.phase = .seedDerived) ∧
    (i = .psopen → t.phase = .positionStreamReady) ∧ (i = .draw → t.phase = .positionStreamReady) ∧
    (i = .nextpos → t.phase = .positionStreamReady ∨
      (t.phase = .failed ∧ t.fault = .capacityExceeded ∧ t.hung = false)) ∧
    (i = .embed → (t.hung = false ∧ t.phase = .done) ∨
      (t.hung = false ∧ t.phase = .failed ∧ t.fault = .capacityExceeded) ∨ (t.hung = true ∧ t.phase = .embedding)) ∧
    (i = .extract → (t.hung = false ∧ t.phase = .done) ∨
      (t.hung = false ∧ t.phase = .failed ∧ t.fault = .capacityExceeded) ∨ (t.hung = true ∧ t.phase = .extracting)))

/-- R82: no step leads to an earlier phase, except that `INIT`, a reset or a loss of power starts a new invocation in
`Idle`; in `Done` and in `Failed` every command but `INIT` is illegal. That a whole command is one step is assumption 2,
the loss of power assumption 14. -/
def Obligations.PhaseNeverGoesBack : Prop :=
  (∀ (s t : State), step s = .next t → t.phase ≠ s.phase →
    (s.phase = .idle ∧ t.phase = .seedDerived) ∨ (s.phase = .seedDerived ∧ t.phase = .positionStreamReady) ∨
    (s.phase = .positionStreamReady ∧
      (t.phase = .embedding ∨ t.phase = .extracting ∨ t.phase = .done ∨ t.phase = .failed)) ∨
    (t.phase = .idle ∧ ∃ m rest, s.host = m :: rest ∧
      (m = .write32 0x00 (encode .init) ∨ m = .reset ∨ (∃ w cut, m = .resetDuring w cut) ∨
        ∃ key msg img, m = .powerCycle key msg img))) ∧
  (∀ (s : State) (i : Instr), s.phase = .done ∨ s.phase = .failed → i ≠ .init →
    exec i s = .next { s with ill := true })

/-- R180: a command ends normally, refused, by `CapacityExceeded` or never, and each of these is a next state; the
machine has no other stop than the launch R57 does not define (assumption 10). With the whole of each address space
backed, as after reset (assumption 5), every command answers a next state. -/
def Obligations.CommandsNeverStopTheMachine : Prop :=
  (∀ (i : Instr) (s : State),
    (∃ t, exec i s = .next t) ∨
    (exec i s = .refused (.unbackedLaunch i) ∧ s.launchBacked i = false ∧ accepts i s.phase = true)) ∧
  ∀ (i : Instr) (s : State), s.backing = ⟨2 ^ 32, 2 ^ 32, 2 ^ 41⟩ → ∃ t, exec i s = .next t

/-! ### INIT, KSEED, PSOPEN, DRAW -/

/-- R84: `INIT` in every phase: everything is cleared but the configuration registers and the memories; directly after
reset it changes nothing. -/
def Obligations.InitStartsAFreshInvocation : Prop :=
  decode 0x00000001#32 = .command .init ∧
  (∀ s : State, exec .init s = .next { s with
    phase := .idle, fault := .noFault, ill := false, seed := ⟨0#64, 0#64, 0#64, 0#64⟩,
    prng := ⟨0#64, 0#64, 0#64, 0#64⟩, used := [], issued := 0#40, draw := 0#64, pos := ⟨0#32, 0#8⟩, rlen := 0#32 }) ∧
  (∀ s : State, exec .init s.hardwareReset = .next s.hardwareReset)

/-- R201: the reset state is the state after `INIT` with the four configuration registers zero, for a block in which
no command runs. -/
def Obligations.InitAndResetDifferInConfiguration : Prop :=
  ∀ (s : State) (rest : List HostMove), s.hung = false → s.host = .reset :: rest →
    ∃ t, exec .init { s with host := rest } = .next t ∧ t.keyLen = s.keyLen ∧ t.msgLen = s.msgLen ∧
      t.pixelCount = s.pixelCount ∧ t.usableCh = s.usableCh ∧ t.pad = s.pad ∧
      step s = .next { t with keyLen := 0#32, msgLen := 0#32, pixelCount := 0#32, usableCh := 0#8, pad := 0#8 }

/-- R107: `KSEED` in `Idle` puts the lanes of the SHA-256 digest of KEYMEM `0..KEY_LEN-1` into `SEED` and moves on to
`SeedDerived`; nothing else changes; in any other phase it is refused. The key bytes are backed (R57). Then the rule's
example: the key `61 62 63`, its digest, its four lanes, and what the host reads of lane 0. -/
def Obligations.KseedLoadsTheSeedOfTheKey : Prop :=
  decode 0x00000002#32 = .command .kseed ∧
  (∀ s : State, s.phase = .idle → s.keyLen.toNat ≤ s.backing.key →
    exec .kseed s = .next { s with
      seed := lanes (sha256 ((List.range s.keyLen.toNat).map fun k => s.keymem.read k)), phase := .seedDerived }) ∧
  (∀ s : State, s.phase ≠ .idle → exec .kseed s = .next { s with ill := true }) ∧
  sha256 [0x61#8, 0x62#8, 0x63#8] =
    [0xba#8, 0x78#8, 0x16#8, 0xbf#8, 0x8f#8, 0x01#8, 0xcf#8, 0xea#8, 0x41#8, 0x41#8, 0x40#8, 0xde#8, 0x5d#8, 0xae#8,
     0x22#8, 0x23#8, 0xb0#8, 0x03#8, 0x61#8, 0xa3#8, 0x96#8, 0x17#8, 0x7a#8, 0x9c#8, 0xb4#8, 0x10#8, 0xff#8, 0x61#8,
     0xf2#8, 0x00#8, 0x15#8, 0xad#8] ∧
  (∀ s : State, s.phase = .idle → s.keyLen = 3#32 → 3 ≤ s.backing.key → s.keymem.read 0 = 0x61#8 →
    s.keymem.read 1 = 0x62#8 → s.keymem.read 2 = 0x63#8 →
    ∃ t, exec .kseed s = .next t ∧
      t = { s with
        seed := ⟨0xeacf018fbf1678ba#64, 0x2322ae5dde404141#64, 0x9c7a1796a36103b0#64, 0xad1500f261ff10b4#64⟩,
        phase := .seedDerived } ∧
      t.readReg (regAt 0x40) = 0xbf1678ba#32 ∧ t.readReg (regAt 0x44) = 0xeacf018f#32)

/-- R108: the seed depends on `KEY_LEN` and the key bytes and on nothing else, and `KSEED` leaves `Idle`, so it runs at
most once between two `INIT`s. -/
def Obligations.SeedDependsOnTheKeyOnly : Prop :=
  ∀ s t s' t' : State, s.phase = .idle → t.phase = .idle → s.keyLen = t.keyLen →
    (∀ k < s.keyLen.toNat, s.keymem.read k = t.keymem.read k) →
    exec .kseed s = .next s' → exec .kseed t = .next t' →
    s'.seed = t'.seed ∧ s'.phase ≠ .idle ∧ exec .kseed s' = .next { s' with ill := true }

/-- R101: the shape of the padded message: the message, one byte `0x80`, the fewest zero bytes that make the length 56
modulo 64, and the bit length as 8 bytes, the most significant first; `floor((l + 8) / 64) + 1` whole blocks. -/
def Obligations.ShaPaddingFillsWholeBlocks : Prop :=
  ∀ m : List Byte, m.length < 2 ^ 61 →
    (∃ z tail, shaPadded m = m ++ [0x80#8] ++ List.replicate z 0x00#8 ++ tail ∧ tail.length = 8 ∧
      (m.length + 1 + z) % 64 = 56 ∧ (∀ y, (m.length + 1 + y) % 64 = 56 → z ≤ y) ∧
      tail.foldl (fun n b => n * 256 + b.toNat) 0 = 8 * m.length) ∧
    (shaPadded m).length = 64 * ((m.length + 8) / 64 + 1) ∧ blockCount m.length = (m.length + 8) / 64 + 1

/-- The message schedule of R104: `W[t] = M[t]` for the first sixteen words, then the recurrence. -/
def Obligations.ShaScheduleObeysTheRecurrence : Prop :=
  ∀ m : List Word32, m.length = 16 →
    (schedule m).length = 64 ∧ (∀ t < 16, (schedule m)[t]? = m[t]?) ∧
    (∀ t, 16 ≤ t → t < 64 →
      (schedule m).getD t 0 = ssig1 ((schedule m).getD (t - 2) 0) + (schedule m).getD (t - 7) 0 +
        ssig0 ((schedule m).getD (t - 15) 0) + (schedule m).getD (t - 16) 0)

/-- R106: lane `i` is the sum of digest byte `8i + k` times `2^(8k)`, which is the two byte-swapped words of the
chaining value. -/
def Obligations.LanesAreLittleEndian : Prop :=
  (∀ (d : List Byte) (i : Nat),
    (lane d i).toNat = ((List.range 8).map fun k => (d.getD (8 * i + k) 0).toNat * 2 ^ (8 * k)).sum) ∧
  (∀ h : Chain,
    let bswap : Word32 → Word32 := fun w =>
      w.extractLsb' 0 8 ++ w.extractLsb' 8 8 ++ w.extractLsb' 16 8 ++ w.extractLsb' 24 8
    lanes (digestBytes h) =
      ⟨bswap h.b ++ bswap h.a, bswap h.d ++ bswap h.c, bswap h.f ++ bswap h.e, bswap h.h ++ bswap h.g⟩)

/-- R120: `PSOPEN` in `SeedDerived` loads lane `i` into word `i`, empties `USED`, makes no draw and moves on to
`PositionStreamReady`; in any other phase it is refused. -/
def Obligations.PsopenLoadsTheGenerator : Prop :=
  decode 0x00000003#32 = .command .psopen ∧
  (∀ s : State, s.phase = .seedDerived →
    exec .psopen s = .next { s with
      prng := ⟨s.seed.w0, s.seed.w1, s.seed.w2, s.seed.w3⟩, used := [], issued := 0#40,
      phase := .positionStreamReady }) ∧
  (∀ s : State, s.phase ≠ .seedDerived → exec .psopen s = .next { s with ill := true })

/-- R122 and R124: `DRAW` in `PositionStreamReady` writes `s` and `DRAW` and nothing else; in terms of the old words
the update is the closed form of R122. In any other phase it is refused. -/
def Obligations.DrawAdvancesTheGenerator : Prop :=
  decode 0x00000004#32 = .command .draw ∧
  (∀ s : State, s.phase = .positionStreamReady →
    exec .draw s = .next { s with
      prng := ⟨s.prng.w0 ^^^ s.prng.w3 ^^^ s.prng.w1, s.prng.w1 ^^^ s.prng.w2 ^^^ s.prng.w0,
        s.prng.w2 ^^^ s.prng.w0 ^^^ (s.prng.w1 <<< 17), (s.prng.w3 ^^^ s.prng.w1).rotateLeft 45⟩,
      draw := (s.prng.w0 + s.prng.w3).rotateLeft 23 + s.prng.w0 }) ∧
  (∀ s : State, s.phase ≠ .positionStreamReady → exec .draw s = .next { s with ill := true })

/-- R123 (a) and (b): a draw is a function of `s` alone, and from the all-zero state every draw gives 0 and the
all-zero state, for ever. -/
def Obligations.ZeroGeneratorStaysZero : Prop :=
  (∀ s t s' t' : State, s.phase = .positionStreamReady → t.phase = .positionStreamReady → s.prng = t.prng →
    exec .draw s = .next s' → exec .draw t = .next t' → s'.prng = t'.prng ∧ s'.draw = t'.draw) ∧
  (∀ k : Nat, prngAfter k ⟨0#64, 0#64, 0#64, 0#64⟩ = ⟨0#64, 0#64, 0#64, 0#64⟩ ∧
    drawAt k ⟨0#64, 0#64, 0#64, 0#64⟩ = 0#64)

/-! ### From a draw to a position -/

/-- R126: `pix = r mod PIXEL_COUNT` and `ch = (r div PIXEL_COUNT) mod USABLE_CH` on the full draw, inside the
geometry; the same by way of `r mod Capacity`; and the rule's example. -/
def Obligations.ReductionOfADraw : Prop :=
  (∀ (P : Word32) (C : BitVec 8) (r : Word64), 0 < P.toNat → 0 < C.toNat →
    let q := r.toNat % (P.toNat * C.toNat)
    (reducePos P C r).pix.toNat = r.toNat % P.toNat ∧
    (reducePos P C r).ch.toNat = r.toNat / P.toNat % C.toNat ∧
    (reducePos P C r).pix.toNat < P.toNat ∧ (reducePos P C r).ch.toNat < C.toNat ∧
    (reducePos P C r).pix.toNat = q % P.toNat ∧ (reducePos P C r).ch.toNat = q / P.toNat) ∧
  reducePos 10000#32 3#8 0x53e79aee401c7d04#64 = ⟨3012#32, 0#8⟩

/-- R127: where `NextPos` reduces a draw, `PIXEL_COUNT >= 1` and `USABLE_CH >= 1`. -/
def Obligations.ReductionNeverDividesByZero : Prop :=
  ∀ s : State, s.nextPos ≠ .exhausted →
    s.issued.toNat < s.pixelCount.toNat * s.usableCh.toNat ∧ 1 ≤ s.pixelCount.toNat * s.usableCh.toNat ∧
    1 ≤ s.pixelCount.toNat ∧ 1 ≤ s.usableCh.toNat

/-- R128 and R130: with a free position, `NEXTPOS` takes draws until the first whose position is not in `USED`, issues
it, and writes nothing but `s`, `DRAW`, `USED`, `ISSUED` and `POS`. -/
def Obligations.NextposIssuesTheFirstFreeDraw : Prop :=
  ∀ (s : State) (k : Nat), s.phase = .positionStreamReady →
    s.issued.toNat < s.pixelCount.toNat * s.usableCh.toNat →
    (∀ j < k, reducePos s.pixelCount s.usableCh (drawAt j s.prng) ∈ s.used) →
    reducePos s.pixelCount s.usableCh (drawAt k s.prng) ∉ s.used →
    let p := reducePos s.pixelCount s.usableCh (drawAt k s.prng)
    exec .nextpos s = .next { s with
      prng := prngAfter (k + 1) s.prng, draw := drawAt k s.prng, used := usedInsert p s.used,
      issued := s.issued + 1#40, pos := p } ∧
    ∀ x, x ∈ usedInsert p s.used ↔ x = p ∨ x ∈ s.used

/-- R130, point F1 of R181: with every position issued, or Capacity 0, `NEXTPOS` faults at once: `PHASE` and
`FAULT.CODE` change and nothing else does. In another phase it is refused. -/
def Obligations.NextposFaultsWhenNothingIsFree : Prop :=
  (∀ s : State, s.phase = .positionStreamReady → s.pixelCount.toNat * s.usableCh.toNat ≤ s.issued.toNat →
    exec .nextpos s = .next { s with phase := .failed, fault := .capacityExceeded }) ∧
  (∀ s : State, s.phase ≠ .positionStreamReady → exec .nextpos s = .next { s with ill := true })

/-- R211: the rejection loop has no bound. With a free position, either some draw lands and `NEXTPOS` ends, or no draw
ever lands, and then, and only then, the command hangs. `Config.prngStates` is no limit of the block
(assumption 3), and the hanging state, the state before the command with `hung` set, is the model's (assumption 7). -/
def Obligations.NextposHangsExactlyWhenNoDrawLands : Prop :=
  ∀ s : State, s.phase = .positionStreamReady → s.hung = false → s.issued.toNat < s.capacity →
    ((∀ k, reducePos s.pixelCount s.usableCh (drawAt k s.prng) ∈ s.used) ↔
      exec .nextpos s = .next { s with hung := true }) ∧
    ((∃ k, reducePos s.pixelCount s.usableCh (drawAt k s.prng) ∉ s.used) ↔
      ∃ t, exec .nextpos s = .next t ∧ t.hung = false ∧ t.phase = .positionStreamReady ∧
        t.issued = s.issued + 1#40)

/-- R129 (a) and (d): positions issued one after another are all different, all new, all in the image; `ISSUED` grows
by their number and never beyond Capacity. -/
def Obligations.PositionsNeverRepeat : Prop :=
  ∀ (n : Nat) (s t : State) (ps : List Position), s.UsedOk → State.positions n s = some (ps, t) →
    ps.length = n ∧ ps.Nodup ∧ (∀ p ∈ ps, p ∉ s.used ∧ s.inGeometry p) ∧
    (∀ p, p ∈ t.used ↔ p ∈ ps ∨ p ∈ s.used) ∧ t.issued.toNat = s.issued.toNat + n ∧
    s.issued.toNat + n ≤ s.capacity ∧ t.UsedOk

/-- R129 (b) and (c): the position `NEXTPOS` issues is a function of the generator, the issued set and the geometry;
`PAD`, the memories, the seed and the lengths do not enter. -/
def Obligations.PositionsFollowGeneratorAndGeometry : Prop :=
  ∀ s t s' : State, s.phase = .positionStreamReady → t.phase = .positionStreamReady → s.prng = t.prng →
    s.used = t.used → s.issued = t.issued → s.pixelCount = t.pixelCount → s.usableCh = t.usableCh →
    s.hung = false → t.hung = false → exec .nextpos s = .next s' →
    ∃ t', exec .nextpos t = .next t' ∧ t'.prng = s'.prng ∧ t'.used = s'.used ∧ t'.issued = s'.issued ∧
      t'.phase = s'.phase ∧ t'.hung = s'.hung ∧ (s'.issued ≠ s.issued → t'.pos = s'.pos ∧ t'.draw = s'.draw)

/-- R212: from the all-zero generator every draw is 0 and falls on `(0, 0)`: with that position unused, `NEXTPOS` issues
it and leaves `s` zero: the whole next state. With `(0, 0)` issued and a position still free, `NEXTPOS` hangs; so the
one right after does. From an all-zero seed, with Capacity at least 2, the first `NEXTPOS` after `PSOPEN` issues `(0, 0)`
and the second hangs. The hanging state is assumption 7. -/
def Obligations.ZeroGeneratorHangs : Prop :=
  (∀ s : State, s.phase = .positionStreamReady → s.prng = ⟨0#64, 0#64, 0#64, 0#64⟩ → s.issued.toNat < s.capacity →
    (⟨0#32, 0#8⟩ : Position) ∉ s.used →
    let t : State := { s with
      draw := 0#64, used := usedInsert ⟨0#32, 0#8⟩ s.used, issued := s.issued + 1#40, pos := ⟨0#32, 0#8⟩ }
    exec .nextpos s = .next t ∧ (∀ x, x ∈ t.used ↔ x = ⟨0#32, 0#8⟩ ∨ x ∈ s.used) ∧
    t.issued.toNat = s.issued.toNat + 1 ∧
    (s.issued.toNat + 1 < s.capacity → exec .nextpos t = .next { t with hung := true })) ∧
  (∀ s : State, s.phase = .positionStreamReady → s.prng = ⟨0#64, 0#64, 0#64, 0#64⟩ → s.issued.toNat < s.capacity →
    (⟨0#32, 0#8⟩ : Position) ∈ s.used → exec .nextpos s = .next { s with hung := true }) ∧
  (∀ s : State, s.phase = .seedDerived → s.seed = ⟨0#64, 0#64, 0#64, 0#64⟩ → 2 ≤ s.capacity →
    ∃ t, runCommands [.psopen, .nextpos] s = some t ∧ t.used = [⟨0#32, 0#8⟩] ∧ t.issued = 1#40 ∧
      t.pos = ⟨0#32, 0#8⟩ ∧ t.draw = 0#64 ∧ t.prng = ⟨0#64, 0#64, 0#64, 0#64⟩ ∧
      t.phase = .positionStreamReady ∧ t.hung = s.hung ∧ exec .nextpos t = .next { t with hung := true })

/-! ### BitPacker and addresses -/

/-- R150 and R151: bit `i < 32` of the BitStream is bit `31 - i` of the length; bit `32 + 8j + k` is bit `7 - k` of
message byte `j`. -/
def Obligations.BitStreamIsMostSignificantFirst : Prop :=
  (∀ (s : State) (i : Nat), i ≤ 31 → s.bitAt i = s.msgLen.getLsbD (31 - i)) ∧
  (∀ (s : State) (j k : Nat), k ≤ 7 → s.bitAt (32 + 8 * j + k) = (s.msgmem.read j).getLsbD (7 - k))

/-- R153 and R154: the value of 32 length bits, and of 8 byte bits, the first the most significant. -/
def Obligations.BitsAssembleMostSignificantFirst : Prop :=
  (∀ bits : List Bool, bits.length = 32 →
    (lenFromBits bits).toNat = ((List.range 32).map fun i => (bits.getD i false).toNat * 2 ^ (31 - i)).sum) ∧
  (∀ bits : List Bool, bits.length = 8 →
    (byteFromBits bits).toNat = ((List.range 8).map fun k => (bits.getD k false).toNat * 2 ^ (7 - k)).sum)

/-- R156: decoding the bits that `BitAt` gives returns the length and the bytes of the message. -/
def Obligations.PackThenUnpack : Prop :=
  ∀ s : State, lenFromBits ((List.range 32).map s.bitAt) = s.msgLen ∧
    ∀ j < s.msgLen.toNat, byteFromBits ((List.range 8).map fun k => s.bitAt (32 + 8 * j + k)) = s.msgmem.read j

/-- R45: `LsbAddr(pix, ch) = pix * (USABLE_CH + PAD) + ch`; the largest value is `(2^32 - 2) * 510 + 254`, below
`2^41`; different positions have different addresses. -/
def Obligations.AddressesOfPositionsAreDistinct : Prop :=
  (∀ (s : State) (p : Position), p.pix.toNat < s.pixelCount.toNat → p.ch.toNat < s.usableCh.toNat →
    s.lsbAddr p = p.pix.toNat * (s.usableCh.toNat + s.pad.toNat) + p.ch.toNat ∧
    s.lsbAddr p ≤ (2 ^ 32 - 2) * 510 + 254 ∧ s.lsbAddr p < 2 ^ 41 ∧
    ∀ q : Position, q.pix.toNat < s.pixelCount.toNat → q.ch.toNat < s.usableCh.toNat →
      s.lsbAddr p = s.lsbAddr q → p = q) ∧
  ∃ (s : State) (p : Position), p.pix.toNat < s.pixelCount.toNat ∧ p.ch.toNat < s.usableCh.toNat ∧
    s.lsbAddr p = (2 ^ 32 - 2) * 510 + 254

/-! ### EMBED -/

/-- R160 and R162: when the BitStream fits and its positions can be issued, `EMBED` ends in `Done` with bit `i` of the
BitStream in bit 0 of the image byte at position `i`, the other seven bits of that byte kept, and every other byte of
the image as before. Besides the image it writes `PHASE` and what `NextPos` writes. The addresses are backed (R57). -/
def Obligations.EmbedWritesTheBitStream : Prop :=
  ∀ (s t : State) (ps : List Position), s.phase = .positionStreamReady → s.UsedOk → s.imgmem.wf →
    s.streamLen + s.issued.toNat ≤ s.capacity → s.msgLen.toNat ≤ s.backing.msg →
    s.pixelCount.toNat * s.stride ≤ s.backing.img → State.positions s.streamLen s = some (ps, t) →
    t = s.withStream t ∧ ps.length = 32 + 8 * s.msgLen.toNat ∧
    ∃ m : Memory, exec .embed s = .next { t with phase := .done, imgmem := m } ∧
      (∀ (i : Nat) (p : Position), ps[i]? = some p →
        m.read (s.lsbAddr p) =
          (s.imgmem.read (s.lsbAddr p) &&& 0xFE#8) ||| (if s.bitAt i then 0x01#8 else 0x00#8)) ∧
      (∀ a, (∀ p ∈ ps, a ≠ s.lsbAddr p) → m.read a = s.imgmem.read a)

/-- R161, point F2 of R181: when the BitStream is longer than the positions still free, `EMBED` faults before any draw
and any access to memory: `PHASE` and `FAULT.CODE` change and nothing else does. In another phase it is refused. -/
def Obligations.EmbedWithoutRoomFaults : Prop :=
  (∀ s : State, s.phase = .positionStreamReady →
    s.pixelCount.toNat * s.usableCh.toNat < 32 + 8 * s.msgLen.toNat + s.issued.toNat →
    exec .embed s = .next { s with phase := .failed, fault := .capacityExceeded }) ∧
  (∀ s : State, s.phase ≠ .positionStreamReady → exec .embed s = .next { s with ill := true })

/-- R163 (a): an `EMBED` that faults has changed nothing but `PHASE` and `FAULT.CODE`: never a partly written image
with a fault. -/
def Obligations.EmbedNeverFaultsHalfWay : Prop :=
  ∀ s t : State, s.UsedOk → s.phase = .positionStreamReady → exec .embed s = .next t → t.phase = .failed →
    t = { s with phase := .failed, fault := .capacityExceeded } ∧
    s.capacity < 32 + 8 * s.msgLen.toNat + s.issued.toNat

/-- R163 (c): however `EMBED` ends, also when it hangs, bits 7 to 1 of every image byte, every byte that is at no newly
issued position, every pad byte and every byte at or above `PIXEL_COUNT * (USABLE_CH + PAD)` are as before, and so
are KEYMEM and MSGMEM. -/
def Obligations.EmbedTouchesOnlyLsbs : Prop :=
  ∀ s t : State, s.imgmem.wf → exec .embed s = .next t →
    (∀ a, t.imgmem.read a &&& 0xFE#8 = s.imgmem.read a &&& 0xFE#8) ∧
    (∀ a, (∀ p ∈ t.used, p ∉ s.used → a ≠ s.lsbAddr p) → t.imgmem.read a = s.imgmem.read a) ∧
    (∀ pix c, pix < s.pixelCount.toNat → s.usableCh.toNat ≤ c → c < s.usableCh.toNat + s.pad.toNat →
      t.imgmem.read (pix * (s.usableCh.toNat + s.pad.toNat) + c) =
        s.imgmem.read (pix * (s.usableCh.toNat + s.pad.toNat) + c)) ∧
    (∀ a, s.pixelCount.toNat * (s.usableCh.toNat + s.pad.toNat) ≤ a → t.imgmem.read a = s.imgmem.read a) ∧
    t.keymem = s.keymem ∧ t.msgmem = s.msgmem

/-! ### EXTRACT -/

/-- R164 and R167: when the prefix and the message can be read, `EXTRACT` ends in `Done` with the decoded length in
`RLEN`, byte `j` of the message at MSGMEM `j`, and every other byte of MSGMEM as before. Besides these it writes what
`NextPos` writes. The launch is backed (R57). -/
def Obligations.ExtractReadsTheMessage : Prop :=
  ∀ (s t u : State) (ps qs : List Position), s.phase = .positionStreamReady → s.msgmem.wf →
    s.launchBacked .extract = true → State.positions 32 s = some (ps, t) →
    8 * (lenFromBits (s.lsbs ps)).toNat + t.issued.toNat ≤ s.capacity →
    State.positions (8 * (lenFromBits (s.lsbs ps)).toNat) t = some (qs, u) →
    u = s.withStream u ∧
    ∃ m : Memory, exec .extract s = .next { u with phase := .done, rlen := lenFromBits (s.lsbs ps), msgmem := m } ∧
      (∀ j < (lenFromBits (s.lsbs ps)).toNat, m.read j = byteFromBits (((s.lsbs qs).drop (8 * j)).take 8)) ∧
      (∀ a, (lenFromBits (s.lsbs ps)).toNat ≤ a → m.read a = s.msgmem.read a)

/-- R165, point F3 of R181: when fewer than 32 positions are free, all of them are issued and the next `NextPos`
raises `CapacityExceeded`; `RLEN` and the memories are not written. In another phase `EXTRACT` is refused. -/
def Obligations.ExtractPrefixFaults : Prop :=
  (∀ (s t : State) (ps : List Position), s.phase = .positionStreamReady → s.launchBacked .extract = true →
    s.capacity - s.issued.toNat < 32 → State.positions (s.capacity - s.issued.toNat) s = some (ps, t) →
    t = s.withStream t ∧ exec .extract s = .next { t with phase := .failed, fault := .capacityExceeded }) ∧
  (∀ s : State, s.phase ≠ .positionStreamReady → exec .extract s = .next { s with ill := true })

/-- R166, point F4 of R181: when eight times the decoded length exceeds the positions still free, `EXTRACT` faults with
the length in `RLEN`, 32 positions issued and MSGMEM untouched. -/
def Obligations.ExtractLengthFaults : Prop :=
  ∀ (s t : State) (ps : List Position), s.phase = .positionStreamReady → s.launchBacked .extract = true →
    State.positions 32 s = some (ps, t) →
    s.capacity < 8 * (lenFromBits (s.lsbs ps)).toNat + t.issued.toNat →
    t = s.withStream t ∧ exec .extract s = .next { t with
      phase := .failed, fault := .capacityExceeded, rlen := lenFromBits (s.lsbs ps) }

/-- R168 (a) and (b): however `EXTRACT` ends, IMGMEM and KEYMEM are as before; when it faults, MSGMEM is as before; when
it ends in `Done`, MSGMEM at and above `RLEN` is as before. -/
def Obligations.ExtractNeverWritesTheImage : Prop :=
  ∀ s t : State, exec .extract s = .next t →
    t.imgmem = s.imgmem ∧ t.keymem = s.keymem ∧
    (s.UsedOk → s.phase = .positionStreamReady → t.phase = .failed → t.msgmem = s.msgmem) ∧
    (t.phase = .done → ∀ a, t.rlen.toNat ≤ a → t.msgmem.read a = s.msgmem.read a)

/-- R169: an `EMBED` that ends in `Done`, then, in a fresh invocation with the same key, geometry and the resulting
image, `EXTRACT` ends in `Done` with the length and the bytes of the message, after the same walk. -/
def Obligations.EmbedThenExtractReturnsTheMessage : Prop :=
  ∀ s t u : State, s.phase = .idle → s.imgmem.wf → runCommands [.kseed, .psopen, .embed] s = some t →
    t.phase = .done → u.phase = .idle → u.msgmem.wf → u.keyLen = s.keyLen →
    (∀ k < s.keyLen.toNat, u.keymem.read k = s.keymem.read k) → u.pixelCount = s.pixelCount →
    u.usableCh = s.usableCh → u.pad = s.pad →
    (∀ a < s.pixelCount.toNat * s.stride, u.imgmem.read a = t.imgmem.read a) →
    u.keyLen.toNat ≤ u.backing.key → u.pixelCount.toNat * u.stride ≤ u.backing.img →
    u.longestExtract ≤ u.backing.msg →
    ∃ v, runCommands [.kseed, .psopen, .extract] u = some v ∧ v.phase = .done ∧ v.rlen = s.msgLen ∧
      (∀ j < s.msgLen.toNat, v.msgmem.read j = s.msgmem.read j) ∧ v.prng = t.prng ∧ v.used = t.used ∧
      v.issued = t.issued ∧ v.draw = t.draw ∧ v.pos = t.pos

/-! ### Faults, frames and the backing -/

/-- R181: `CapacityExceeded` is raised at the four points F1 to F4 and nowhere else, with the state the table gives;
`INIT`, `KSEED`, `PSOPEN` and `DRAW` never fault. -/
def Obligations.FaultIsRaisedAtFourPoints : Prop :=
  ∀ (i : Instr) (s t : State), s.UsedOk → s.fault = .noFault → exec i s = .next t → t.fault = .capacityExceeded →
    t.phase = .failed ∧ s.phase = .positionStreamReady ∧ t.keymem = s.keymem ∧ t.msgmem = s.msgmem ∧
    t.imgmem = s.imgmem ∧
    ((i = .nextpos ∧ s.capacity ≤ s.issued.toNat ∧ t = { s with phase := .failed, fault := .capacityExceeded }) ∨
     (i = .embed ∧ s.capacity < 32 + 8 * s.msgLen.toNat + s.issued.toNat ∧
       t = { s with phase := .failed, fault := .capacityExceeded }) ∨
     (i = .extract ∧ t.rlen = s.rlen ∧ t.issued.toNat = s.capacity ∧ t.issued.toNat < s.issued.toNat + 32) ∨
     (i = .extract ∧ s.capacity < 8 * t.rlen.toNat + t.issued.toNat ∧ t.issued.toNat = s.issued.toNat + 32))

/-- The last sentence but one of R181: with Capacity 0 `NEXTPOS`, `EMBED` and `EXTRACT` all fault at once, and nothing
but `PHASE` and `FAULT.CODE` changes. -/
def Obligations.CapacityZeroFaultsAtOnce : Prop :=
  ∀ (s : State) (i : Instr), s.phase = .positionStreamReady → s.pixelCount = 0#32 ∨ s.usableCh = 0#8 →
    i = .nextpos ∨ i = .embed ∨ i = .extract →
    exec i s = .next { s with phase := .failed, fault := .capacityExceeded }

/-- The frame of all commands (R55, R33, R67): no command writes KEYMEM or a configuration register, only `EXTRACT`
writes MSGMEM and only `EMBED` writes IMGMEM; the host's moves, its latest reply and the backing are not touched. -/
def Obligations.CommandsLeaveOtherMemoryAndConfiguration : Prop :=
  ∀ (i : Instr) (s t : State), exec i s = .next t →
    t.keymem = s.keymem ∧ (i ≠ .extract → t.msgmem = s.msgmem) ∧ (i ≠ .embed → t.imgmem = s.imgmem) ∧
    t.keyLen = s.keyLen ∧ t.msgLen = s.msgLen ∧ t.pixelCount = s.pixelCount ∧ t.usableCh = s.usableCh ∧
    t.pad = s.pad ∧ t.host = s.host ∧ t.reply = s.reply ∧ t.backing = s.backing

/-- Who writes which register (R10, R11, R12, R13, R15, R16): each register a command changes is one its rule names. -/
def Obligations.RegistersAreWrittenByTheirCommandsOnly : Prop :=
  ∀ (i : Instr) (s t : State), exec i s = .next t →
    (t.seed ≠ s.seed → i = .init ∨ i = .kseed) ∧ (t.prng ≠ s.prng → i ≠ .kseed) ∧
    (t.used ≠ s.used ∨ t.issued ≠ s.issued → i ≠ .kseed ∧ i ≠ .draw) ∧
    (t.draw ≠ s.draw → i ≠ .kseed ∧ i ≠ .psopen) ∧
    (t.pos ≠ s.pos → i ≠ .kseed ∧ i ≠ .psopen ∧ i ≠ .draw) ∧ (t.rlen ≠ s.rlen → i = .init ∨ i = .extract) ∧
    (t.ill ≠ s.ill → i = .init ∨ accepts i s.phase = false) ∧
    (t.fault ≠ s.fault → i = .init ∨ i = .nextpos ∨ i = .embed ∨ i = .extract)

/-- R57: a launch that would touch addresses the platform does not back is refused, by a name of its own: what the
block does then is not defined by the spec. The order (after the phase and after F2) is the model's, assumption 10. -/
def Obligations.UnbackedLaunchIsRefused : Prop :=
  (∀ s : State, s.phase = .idle → s.backing.key < s.keyLen.toNat →
    exec .kseed s = .refused (.unbackedLaunch .kseed)) ∧
  (∀ s : State, s.phase = .positionStreamReady → s.streamLen + s.issued.toNat ≤ s.capacity →
    s.backing.msg < s.msgLen.toNat ∨ s.backing.img < s.pixelCount.toNat * s.stride →
    exec .embed s = .refused (.unbackedLaunch .embed)) ∧
  (∀ s : State, s.phase = .positionStreamReady → s.issued.toNat < s.capacity →
    s.backing.msg < min ((s.capacity - 32) / 8) (2 ^ 32 - 1) ∨ s.backing.img < s.pixelCount.toNat * s.stride →
    exec .extract s = .refused (.unbackedLaunch .extract))

/-! ### The host's side -/

/-- R33: a write to a configuration register takes effect while `PHASE = Idle` only; in every other phase it is
ignored: nothing changes but that the move is made. `CHANCFG` keeps bits 15:0 (R23). -/
def Obligations.ConfigurationLock : Prop :=
  ∀ (s : State) (rest : List HostMove) (off : Nat) (v : Word32), s.hung = false →
    s.host = .write32 off v :: rest → off = 0x0C ∨ off = 0x10 ∨ off = 0x14 ∨ off = 0x18 →
    (s.phase ≠ .idle → step s = .next { s with host := rest }) ∧
    (s.phase = .idle → off = 0x0C → step s = .next { s with host := rest, keyLen := v }) ∧
    (s.phase = .idle → off = 0x10 → step s = .next { s with host := rest, msgLen := v }) ∧
    (s.phase = .idle → off = 0x14 → step s = .next { s with host := rest, pixelCount := v }) ∧
    (s.phase = .idle → off = 0x18 →
      step s = .next { s with host := rest, usableCh := v.extractLsb' 0 8, pad := v.extractLsb' 8 8 })

/-- R18 and R32: a read of any register has no side effect; a read of a reserved offset returns 0; a write to a
read-only register or a reserved offset changes nothing. -/
def Obligations.ReadsAndIgnoredWritesChangeNothing : Prop :=
  (∀ (s : State) (rest : List HostMove) (off : Nat), s.hung = false → s.host = .read32 off :: rest → off % 4 = 0 →
    off < 0x100 → step s = .next { s with host := rest, reply := s.readReg (regAt off) }) ∧
  (∀ (s : State) (rest : List HostMove) (off : Nat), s.hung = false → s.host = .read32 off :: rest → off % 4 = 0 →
    off < 0x100 → off = 0x38 ∨ off = 0x3C ∨ 0x80 ≤ off → step s = .next { s with host := rest, reply := 0#32 }) ∧
  (∀ (s : State) (rest : List HostMove) (off : Nat) (v : Word32), s.hung = false →
    s.host = .write32 off v :: rest → off % 4 = 0 → off < 0x100 → off ≠ 0x00 →
    off ≠ 0x0C → off ≠ 0x10 → off ≠ 0x14 → off ≠ 0x18 → step s = .next { s with host := rest })

/-- The register map of R18 with R20 to R31: what each offset reads. A 64-bit value, and `ISSUED`, is read as two
halves. The codes in `STATUS` and `FAULT` are those of R14 and R15. -/
def Obligations.RegisterWindowReads : Prop :=
  (Phase.idle.code = 0#4 ∧ Phase.seedDerived.code = 1#4 ∧ Phase.positionStreamReady.code = 2#4 ∧
    Phase.embedding.code = 3#4 ∧ Phase.extracting.code = 4#4 ∧ Phase.done.code = 5#4 ∧ Phase.failed.code = 6#4) ∧
  (FaultCode.noFault.code = 0#8 ∧ FaultCode.capacityExceeded.code = 1#8) ∧
  ∀ s : State,
    (s.readReg (regAt 0x04)).extractLsb' 0 4 = s.phase.code ∧ (s.readReg (regAt 0x04)).extractLsb' 4 4 = 0#4 ∧
    (s.readReg (regAt 0x04)).getLsbD 8 = s.ill ∧ (s.readReg (regAt 0x04)).extractLsb' 9 23 = 0#23 ∧
    s.readReg (regAt 0x08) = BitVec.setWidth 32 s.fault.code ∧
    s.readReg (regAt 0x0C) = s.keyLen ∧ s.readReg (regAt 0x10) = s.msgLen ∧ s.readReg (regAt 0x14) = s.pixelCount ∧
    (s.readReg (regAt 0x18)).extractLsb' 0 8 = s.usableCh ∧ (s.readReg (regAt 0x18)).extractLsb' 8 8 = s.pad ∧
    (s.readReg (regAt 0x18)).extractLsb' 16 16 = 0#16 ∧ s.readReg (regAt 0x1C) = s.rlen ∧
    s.readReg (regAt 0x24) ++ s.readReg (regAt 0x20) = BitVec.setWidth 64 s.issued ∧
    s.readReg (regAt 0x2C) ++ s.readReg (regAt 0x28) = s.draw ∧
    s.readReg (regAt 0x30) = s.pos.pix ∧ s.readReg (regAt 0x34) = BitVec.setWidth 32 s.pos.ch ∧
    (∀ i : Fin 4, s.readReg (regAt (0x44 + 8 * i.val)) ++ s.readReg (regAt (0x40 + 8 * i.val)) = s.seed.word i) ∧
    (∀ i : Fin 4, s.readReg (regAt (0x64 + 8 * i.val)) ++ s.readReg (regAt (0x60 + 8 * i.val)) = s.prng.word i)

/-- R18 and U9: a register access that is not an aligned word of the window does not exist on the interface, and the
model refuses it. -/
def Obligations.OtherRegisterAccessesAreRefused : Prop :=
  ∀ (s : State) (rest : List HostMove) (m : HostMove) (off : Nat) (v : Word32), s.hung = false → s.host = m :: rest →
    m = .read32 off ∨ m = .write32 off v →
    (off % 4 ≠ 0 → step s = .refused (.unalignedRegisterAccess off)) ∧
    (off % 4 = 0 → 0x100 ≤ off → step s = .refused (.outsideWindow off))

/-- R56 and R52: while no command runs the host reads and writes any backed byte of the three memories, in any phase;
it sees the byte most recently written, and nothing else of the block changes. -/
def Obligations.HostReachesTheMemories : Prop :=
  (∀ (s : State) (rest : List HostMove) (sp : Space) (a : Nat), s.hung = false → s.host = .readByte sp a :: rest →
    a < sp.size → a < s.backing.bytes sp →
    step s = .next { s with host := rest, reply := BitVec.setWidth 32 (s.readByte sp a) }) ∧
  (∀ (s : State) (rest : List HostMove) (sp : Space) (a : Nat) (v : Byte), s.MemoryOk → s.hung = false →
    s.host = .writeByte sp a v :: rest → a < sp.size → a < s.backing.bytes sp →
    ∃ t, step s = .next t ∧ t.readByte sp a = v ∧
      (∀ sp' b, sp' ≠ sp ∨ b ≠ a → t.readByte sp' b = s.readByte sp' b) ∧
      t = { s with host := rest, keymem := t.keymem, msgmem := t.msgmem, imgmem := t.imgmem })

/-- R36 and R200: hardware reset, between commands and in a hang, gives every register of the block its reset value
and leaves the three memories alone; `State.reset` holds the same values. The fields `backing`, `hung`, `reply` and
`host` are the model's own (assumptions 4 to 7). -/
def Obligations.ResetValues : Prop :=
  (∀ (s : State) (rest : List HostMove), s.host = .reset :: rest →
    step s = .next
      { phase := .idle, fault := .noFault, ill := false, seed := ⟨0#64, 0#64, 0#64, 0#64⟩,
        prng := ⟨0#64, 0#64, 0#64, 0#64⟩, used := [], issued := 0#40, draw := 0#64, pos := ⟨0#32, 0#8⟩, rlen := 0#32,
        keyLen := 0#32, msgLen := 0#32, pixelCount := 0#32, usableCh := 0#8, pad := 0#8, keymem := s.keymem,
        msgmem := s.msgmem, imgmem := s.imgmem, backing := s.backing, hung := false, reply := s.reply, host := rest }) ∧
  State.reset.hardwareReset = State.reset

/-- R200 and U13: hardware reset cuts a running command at an unspecified point: the block is in its reset state, and
the memories keep the writes the command had made, the first `cut` of them (the cut as a number of writes is assumption
9) or, for a command that hangs before, all it ever makes. For `EMBED` these are bits of the BitStream in bit 0 of the
image bytes at the first `n` positions its walk issues; for `EXTRACT` the first `n` message bytes; every other byte is
as before. A command that is refused, or that faults before its first write, has written none. Where the command is a
launch that is backed, the move answers a next state (the refusal of any other is assumptions 9 and 10). -/
def Obligations.ResetCutsARunningCommand : Prop :=
  ∀ (s : State) (rest : List HostMove) (w : Word32) (cut : Nat), s.hung = false →
    s.host = .resetDuring w cut :: rest →
    ((∀ i, decode w = .command i → s.launchBacked i = true) → ∃ t, step s = .next t) ∧
    ∀ t, step s = .next t →
      t = { State.reset with keymem := s.keymem, msgmem := t.msgmem, imgmem := t.imgmem, backing := s.backing,
                             reply := s.reply, host := rest } ∧
      (s.imgmem.wf → ∀ a, t.imgmem.read a &&& 0xFE#8 = s.imgmem.read a &&& 0xFE#8) ∧
      (∀ a, cut ≤ a → t.msgmem.read a = s.msgmem.read a) ∧
      (cut = 0 → t.msgmem = s.msgmem ∧ t.imgmem = s.imgmem) ∧
      (decode w ≠ .command .embed ∨ s.phase ≠ .positionStreamReady ∨ s.capacity < s.streamLen + s.issued.toNat →
        t.imgmem = s.imgmem) ∧
      (decode w ≠ .command .extract ∨ s.phase ≠ .positionStreamReady ∨ State.positions 32 s = none ∨
        (∃ ps u, State.positions 32 s = some (ps, u) ∧
          s.capacity < 8 * (lenFromBits (s.lsbs ps)).toNat + u.issued.toNat) → t.msgmem = s.msgmem) ∧
      (∀ (n : Nat) (ps : List Position) (u : State), decode w = .command .embed → s.phase = .positionStreamReady →
        s.UsedOk → s.imgmem.wf → s.streamLen + s.issued.toNat ≤ s.capacity → n ≤ min cut s.streamLen →
        State.positions n s = some (ps, u) → n = min cut s.streamLen ∨ State.positions (n + 1) s = none →
        (∀ (i : Nat) (p : Position), ps[i]? = some p →
          t.imgmem.read (s.lsbAddr p) =
            (s.imgmem.read (s.lsbAddr p) &&& 0xFE#8) ||| (if s.bitAt i then 0x01#8 else 0x00#8)) ∧
        (∀ a, (∀ p ∈ ps, a ≠ s.lsbAddr p) → t.imgmem.read a = s.imgmem.read a)) ∧
      (∀ (n : Nat) (ps qs : List Position) (u v : State), decode w = .command .extract →
        s.phase = .positionStreamReady → s.msgmem.wf → State.positions 32 s = some (ps, u) →
        8 * (lenFromBits (s.lsbs ps)).toNat + u.issued.toNat ≤ s.capacity →
        n ≤ min cut (lenFromBits (s.lsbs ps)).toNat → State.positions (8 * n) u = some (qs, v) →
        n = min cut (lenFromBits (s.lsbs ps)).toNat ∨ State.positions (8 * (n + 1)) u = none →
        (∀ j < n, t.msgmem.read j = byteFromBits (((s.lsbs qs).drop (8 * j)).take 8)) ∧
        (∀ a, n ≤ a → t.msgmem.read a = s.msgmem.read a))

/-- R50 and R211: while a command hangs the host has no move: every access stays pending and nothing changes, for any
number of steps; hardware reset ends it. That the hanging state is a state of its own is assumption 7. -/
def Obligations.HangBlocksTheHost : Prop :=
  ∀ (s : State) (m : HostMove) (rest : List HostMove), s.hung = true → s.host = m :: rest →
    (m ≠ .reset → (∀ key msg img, m ≠ .powerCycle key msg img) → ∀ k, core.run k s = .next s) ∧
    (m = .reset → ∃ t, step s = .next t ∧ t.hung = false ∧ t.phase = .idle ∧ t.host = rest)

/-- R193 and U18: after a loss of power the block has its reset values and the memories hold any bytes, here those the
move names: each named address reads the last byte named for it, and an address that is not named reads as one that
nothing has written (assumption 1). The move is the model's, assumption 14. -/
def Obligations.PowerLossGivesResetValues : Prop :=
  ∀ (s : State) (rest : List HostMove) (key msg img : List Host.Cell), s.host = .powerCycle key msg img :: rest →
    ∃ t, step s = .next t ∧ t.MemoryOk ∧
      t = { State.reset with keymem := t.keymem, msgmem := t.msgmem, imgmem := t.imgmem, backing := s.backing,
                             reply := s.reply, host := rest } ∧
      ∀ (n : Nat) (cells : List Host.Cell) (m : Memory),
        (n = 2 ^ 32 ∧ cells = key ∧ m = t.keymem) ∨ (n = 2 ^ 32 ∧ cells = msg ∧ m = t.msgmem) ∨
          (n = 2 ^ 41 ∧ cells = img ∧ m = t.imgmem) →
        (∀ (before after : List Host.Cell) (a : Nat) (v : Byte), cells = before ++ (a, v) :: after → a < n →
          (∀ c ∈ after, c.1 ≠ a) → m.read a = v) ∧
        (∀ a, (∀ c ∈ cells, c.1 ≠ a) → m.read a = Memory.unlisted)

/-- R193: "between commands the block is simply idle and keeps all its state". That the step then answers the same
state is the model's, assumption 13. -/
def Obligations.IdleBlockKeepsItsState : Prop :=
  ∀ s : State, s.host = [] → ∀ k, core.run k s = .next s

/-! ### The invariant -/

/-- R34: every step keeps the invariants of the block: `ISSUED = |USED| <= Capacity`, every issued position inside the
geometry, nothing drawn before `PSOPEN` and nothing seeded before `KSEED`, `PHASE = Failed` exactly when
`FAULT.CODE = 1`; and the canonical form of the memories. The clauses about the memories and about `hung` are the
model's own (assumptions 1, 7 and 11). -/
def Obligations.StepKeepsTheInvariant : Prop :=
  ∀ s t : State, s.Inv → step s = .next t → t.Inv

/-- The reset state meets the invariant. -/
def Obligations.ResetMeetsTheInvariant : Prop :=
  State.reset.Inv

/-! ### SHA-256, the inside of KSEED -/

/-- R103: the initial chaining value is the first 32 bits of the fractional parts of the square roots of the first 8
primes, the round constants those of the cube roots of the first 64 primes: with `x` the root scaled by `2^32` and
rounded down, the constant is `x` modulo `2^32`. -/
def Obligations.ShaConstantsAreRootsOfPrimes : Prop :=
  (∀ t < 8, ∃ c,
    let x := c * 2 ^ 32 + ([shaInitial.a, shaInitial.b, shaInitial.c, shaInitial.d, shaInitial.e, shaInitial.f,
      shaInitial.g, shaInitial.h].getD t 0).toNat
    x ^ 2 ≤ Nat.nth Nat.Prime t * 2 ^ 64 ∧ Nat.nth Nat.Prime t * 2 ^ 64 < (x + 1) ^ 2) ∧
  shaConstants.length = 64 ∧
  ∀ t < 64, ∃ c,
    let x := c * 2 ^ 32 + (shaConstants.getD t 0).toNat
    x ^ 3 ≤ Nat.nth Nat.Prime t * 2 ^ 96 ∧ Nat.nth Nat.Prime t * 2 ^ 96 < (x + 1) ^ 3

/-- R102, R104 and R105, by index: the words of block `b`; the functions of the schedule as rotations; the 64 rounds as
a sequence `v 0, …, v 64` of the eight working variables, `K[t]` beside `W[t]`, and the sum with the chaining value;
the blocks in ascending order; the bytes of the digest. -/
def Obligations.ShaCompressesTheBlocksInOrder : Prop :=
  (∀ (p : List Byte) (b t : Nat), 64 * b + 64 ≤ p.length → t < 16 →
    (blockWords (p.drop (64 * b))).length = 16 ∧
    ((blockWords (p.drop (64 * b))).getD t 0).toNat =
      (p.getD (64 * b + 4 * t) 0).toNat * 2 ^ 24 + (p.getD (64 * b + 4 * t + 1) 0).toNat * 2 ^ 16 +
        (p.getD (64 * b + 4 * t + 2) 0).toNat * 2 ^ 8 + (p.getD (64 * b + 4 * t + 3) 0).toNat) ∧
  (∀ x : Word32, ssig0 x = x.rotateRight 7 ^^^ x.rotateRight 18 ^^^ (x >>> 3) ∧
    ssig1 x = x.rotateRight 17 ^^^ x.rotateRight 19 ^^^ (x >>> 10)) ∧
  (∀ (h : Chain) (m : List Word32) (v : Nat → Chain), m.length = 16 → v 0 = h →
    (∀ t < 64,
      let x := v t
      let t1 := x.h + (x.e.rotateRight 6 ^^^ x.e.rotateRight 11 ^^^ x.e.rotateRight 25) +
        ((x.e &&& x.f) ^^^ (~~~x.e &&& x.g)) + shaConstants.getD t 0 + (schedule m).getD t 0
      let t2 := (x.a.rotateRight 2 ^^^ x.a.rotateRight 13 ^^^ x.a.rotateRight 22) +
        ((x.a &&& x.b) ^^^ (x.a &&& x.c) ^^^ (x.b &&& x.c))
      v (t + 1) = ⟨t1 + t2, x.a, x.b, x.c, x.d + t1, x.e, x.f, x.g⟩) →
    compress h m = ⟨h.a + (v 64).a, h.b + (v 64).b, h.c + (v 64).c, h.d + (v 64).d,
      h.e + (v 64).e, h.f + (v 64).f, h.g + (v 64).g, h.h + (v 64).h⟩) ∧
  (∀ (m : List Byte) (H : Nat → Chain), H 0 = shaInitial →
    (∀ b < (m.length + 8) / 64 + 1, H (b + 1) = compress (H b) (blockWords ((shaPadded m).drop (64 * b)))) →
    sha256 m = digestBytes (H ((m.length + 8) / 64 + 1))) ∧
  (∀ h : Chain, (digestBytes h).length = 32 ∧ ∀ j < 8, ∀ k < 4,
    (digestBytes h).getD (4 * j + k) 0 =
      ([h.a, h.b, h.c, h.d, h.e, h.f, h.g, h.h].getD j 0).extractLsb' (24 - 8 * k) 8)
end

