-- ==== Sys2Proof/Laws/Memory.lean ====
section
/-!
SUPPORT. The laws of the byte memories: a read after a write, and that every operation keeps the canonical form and
stays inside the address space.
-/

namespace Sys2Proof.Machine

@[simp] theorem Memory.read_nil (a : Nat) : Memory.read [] a = Memory.unlisted := rfl

/-- Below every listed address nothing is listed. -/
theorem Memory.read_of_lt {m : Memory} {a : Nat} (h : ∀ c ∈ m, a < c.1) : m.read a = Memory.unlisted := by
  induction m with
  | nil => rfl
  | cons c m ih =>
    have hc := h c (by simp)
    rw [Memory.read, if_neg (by omega)]
    exact ih fun d hd => h d (by simp [hd])

/-- A write leaves every other address alone, in any memory. -/
theorem Memory.read_write_other (m : Memory) {a b : Nat} (v : Byte) (h : b ≠ a) :
    (Memory.write m a v).read b = m.read b := by
  induction m with
  | nil => by_cases hv : v = Memory.unlisted <;> simp [Memory.write, Memory.read, hv, h]
  | cons c m ih =>
    obtain ⟨x, w⟩ := c
    rw [Memory.write]
    split
    · split <;> simp [Memory.read, h]
    · split
      · rename_i hax
        split <;> simp [Memory.read, ← hax, h]
      · simp [Memory.read, ih]

/-- A read after a write of the same address gives the byte written. -/
theorem Memory.read_write_same {m : Memory} (hm : m.wf) (a : Nat) (v : Byte) : (Memory.write m a v).read a = v := by
  induction m with
  | nil =>
    by_cases hv : v = Memory.unlisted
    · simp [Memory.write, hv]
    · simp [Memory.write, Memory.read, hv]
  | cons c m ih =>
    obtain ⟨x, w⟩ := c
    obtain ⟨hp, hv⟩ := hm
    rw [List.pairwise_cons] at hp
    have below : ∀ y, y ≤ x → Memory.read m y = Memory.unlisted := fun y hy =>
      Memory.read_of_lt fun d hd => lt_of_le_of_lt hy (hp.1 d hd)
    rw [Memory.write]
    split
    · rename_i hax
      split
      · rename_i hvu
        rw [Memory.read, if_neg (by omega), below a (by omega), hvu]
      · simp [Memory.read]
    · split
      · rename_i hax
        split
        · rename_i hvu
          rw [below a (by omega), hvu]
        · simp [Memory.read]
      · rename_i h1 h2
        rw [Memory.read, if_neg h2]
        exact ih ⟨hp.2, fun d hd => hv d (by simp [hd])⟩

/-- A cell of the memory after a write is the cell written or was there before. -/
theorem Memory.mem_write {m : Memory} {a : Nat} {v : Byte} {c : Host.Cell} (h : c ∈ Memory.write m a v) :
    c = (a, v) ∨ c ∈ m := by
  induction m with
  | nil => by_cases hv : v = Memory.unlisted <;> simp_all [Memory.write]
  | cons d m ih =>
    obtain ⟨x, w⟩ := d
    rw [Memory.write] at h
    split at h
    · split at h <;> simp_all
    · split at h
      · split at h <;> simp_all
        tauto
      · simp only [List.mem_cons] at h ⊢
        rcases h with h | h
        · exact .inr (.inl h)
        · rcases ih h with h | h
          · exact .inl h
          · exact .inr (.inr h)

/-- A write keeps the canonical form. -/
theorem Memory.write_wf {m : Memory} (hm : m.wf) (a : Nat) (v : Byte) : (Memory.write m a v).wf := by
  induction m with
  | nil => by_cases hv : v = Memory.unlisted <;> simp [Memory.write, Memory.wf, hv]
  | cons c m ih =>
    obtain ⟨x, w⟩ := c
    obtain ⟨hp, hv⟩ := hm
    have hp' := List.pairwise_cons.1 hp
    have tail : Memory.wf m := ⟨hp'.2, fun d hd => hv d (by simp [hd])⟩
    rw [Memory.write]
    split
    · rename_i hax
      split
      · exact ⟨hp, hv⟩
      · rename_i hvu
        refine ⟨List.pairwise_cons.2 ⟨fun d hd => ?_, hp⟩, fun d hd => ?_⟩
        · rcases List.mem_cons.1 hd with rfl | hd
          · exact hax
          · exact lt_trans hax (hp'.1 d hd)
        · rcases List.mem_cons.1 hd with rfl | hd
          · exact hvu
          · exact hv d hd
    · split
      · rename_i hax
        split
        · exact tail
        · rename_i hvu
          refine ⟨List.pairwise_cons.2 ⟨fun d hd => hax ▸ hp'.1 d hd, hp'.2⟩, fun d hd => ?_⟩
          rcases List.mem_cons.1 hd with rfl | hd
          · exact hvu
          · exact tail.2 d hd
      · rename_i h1 h2
        refine ⟨List.pairwise_cons.2 ⟨fun d hd => ?_, (ih tail).1⟩, fun d hd => ?_⟩
        · rcases Memory.mem_write hd with rfl | hd
          · exact lt_of_le_of_ne (not_lt.1 h1) (Ne.symm h2)
          · exact hp'.1 d hd
        · rcases List.mem_cons.1 hd with rfl | hd
          · exact hv _ (by simp)
          · exact (ih tail).2 d hd

/-- A write inside the space stays inside it. -/
theorem Memory.write_within {m : Memory} {n a : Nat} (hm : m.within n) (ha : a < n) (v : Byte) :
    (Memory.write m a v).within n := fun c hc => by
  rcases Memory.mem_write hc with rfl | hc
  · exact ha
  · exact hm c hc

/-- The memory made of any cells is canonical and inside its space. -/
theorem Memory.ofCells_ok (n : Nat) (cells : List Host.Cell) :
    (Memory.ofCells n cells).wf ∧ (Memory.ofCells n cells).within n := by
  have step : ∀ m : Memory, m.wf ∧ m.within n →
      (cells.foldl (fun m c => if c.1 < n then Memory.write m c.1 c.2 else m) m).wf ∧
      (cells.foldl (fun m c => if c.1 < n then Memory.write m c.1 c.2 else m) m).within n := by
    induction cells with
    | nil => exact fun m h => h
    | cons c cells ih =>
      intro m h
      refine ih _ ?_
      dsimp only
      split
      · rename_i hc
        exact ⟨Memory.write_wf h.1 _ _, Memory.write_within h.2 hc _⟩
      · exact h
  exact step [] (by simp [Memory.wf, Memory.within])

/-- Cells written one after another leave every address alone that none of them names. -/
theorem Memory.read_foldl_other (n : Nat) (cells : List Host.Cell) (m : Memory) {a : Nat}
    (h : ∀ c ∈ cells, c.1 ≠ a) :
    (cells.foldl (fun m c => if c.1 < n then Memory.write m c.1 c.2 else m) m).read a = m.read a := by
  induction cells generalizing m with
  | nil => rfl
  | cons c cells ih =>
    rw [List.foldl_cons, ih _ fun d hd => h d (by simp [hd])]
    split
    · exact Memory.read_write_other _ _ (h c (by simp)).symm
    · rfl

/-- An address no cell names reads as one nothing has written. -/
theorem Memory.read_ofCells_unnamed (n : Nat) {cells : List Host.Cell} {a : Nat} (h : ∀ c ∈ cells, c.1 ≠ a) :
    (Memory.ofCells n cells).read a = Memory.unlisted :=
  Memory.read_foldl_other n cells [] h

/-- An address of the space reads the last byte the cells name for it. -/
theorem Memory.read_ofCells_last {n : Nat} (before : List Host.Cell) {after : List Host.Cell} {a : Nat} (v : Byte)
    (ha : a < n) (h : ∀ c ∈ after, c.1 ≠ a) : (Memory.ofCells n (before ++ (a, v) :: after)).read a = v := by
  rw [Memory.ofCells, List.foldl_append, List.foldl_cons, Memory.read_foldl_other n after _ h, if_pos ha]
  exact Memory.read_write_same (Memory.ofCells_ok n before).1 _ _

/-- Two canonical memories that read alike everywhere are the same list. -/
theorem Memory.ext_read {m n : Memory} (hm : m.wf) (hn : n.wf) (h : ∀ a, m.read a = n.read a) : m = n := by
  induction m generalizing n with
  | nil =>
    cases n with
    | nil => rfl
    | cons d n =>
      have := h d.1
      obtain ⟨x, w⟩ := d
      have hw := hn.2 (x, w) (by simp)
      simp [Memory.read] at this
      exact absurd this.symm hw
  | cons c m ih =>
    obtain ⟨x, w⟩ := c
    have hw := hm.2 (x, w) (by simp)
    have pm := List.pairwise_cons.1 hm.1
    cases n with
    | nil =>
      have := h x
      simp [Memory.read] at this
      exact absurd this hw
    | cons d n =>
      obtain ⟨y, z⟩ := d
      have hz := hn.2 (y, z) (by simp)
      have pn := List.pairwise_cons.1 hn.1
      have bm : ∀ e, e ≤ x → Memory.read m e = Memory.unlisted := fun e he =>
        Memory.read_of_lt fun d hd => lt_of_le_of_lt he (pm.1 d hd)
      have bn : ∀ e, e ≤ y → Memory.read n e = Memory.unlisted := fun e he =>
        Memory.read_of_lt fun d hd => lt_of_le_of_lt he (pn.1 d hd)
      have hxy : x = y := by
        rcases lt_trichotomy x y with hlt | heq | hgt
        · have := h x
          simp only [Memory.read, if_true] at this
          rw [if_neg (by omega), bn x (by omega)] at this
          exact absurd this hw
        · exact heq
        · have := h y
          simp only [Memory.read, if_true] at this
          rw [if_neg (by omega), bm y (by omega)] at this
          exact absurd this.symm hz
      subst hxy
      have hwz : w = z := by simpa [Memory.read] using h x
      subst hwz
      congr 1
      refine ih ⟨pm.2, fun d hd => hm.2 d (by simp [hd])⟩ ⟨pn.2, fun d hd => hn.2 d (by simp [hd])⟩ fun a => ?_
      by_cases ha : a = x
      · subst ha; rw [bm a le_rfl, bn a le_rfl]
      · simpa [Memory.read, ha] using h a

end Sys2Proof.Machine
end

