-- ==== Sys2Proof/Laws/State.lean ====
section
/-!
SUPPORT. One lemma for each field of State and each named update of it, true by `rfl`: no later proof unfolds a
record update.
-/

namespace Sys2Proof.Machine

/-! ### State.issue -/

@[simp] theorem State.issue_phase (s : State) (p : Position) : (s.issue p).phase = s.phase := rfl
@[simp] theorem State.issue_fault (s : State) (p : Position) : (s.issue p).fault = s.fault := rfl
@[simp] theorem State.issue_ill (s : State) (p : Position) : (s.issue p).ill = s.ill := rfl
@[simp] theorem State.issue_seed (s : State) (p : Position) : (s.issue p).seed = s.seed := rfl
@[simp] theorem State.issue_prng (s : State) (p : Position) : (s.issue p).prng = s.prng := rfl
@[simp] theorem State.issue_used (s : State) (p : Position) : (s.issue p).used = usedInsert p s.used := rfl
@[simp] theorem State.issue_issued (s : State) (p : Position) : (s.issue p).issued = s.issued + 1#40 := rfl
@[simp] theorem State.issue_draw (s : State) (p : Position) : (s.issue p).draw = s.draw := rfl
@[simp] theorem State.issue_pos (s : State) (p : Position) : (s.issue p).pos = p := rfl
@[simp] theorem State.issue_rlen (s : State) (p : Position) : (s.issue p).rlen = s.rlen := rfl
@[simp] theorem State.issue_keyLen (s : State) (p : Position) : (s.issue p).keyLen = s.keyLen := rfl
@[simp] theorem State.issue_msgLen (s : State) (p : Position) : (s.issue p).msgLen = s.msgLen := rfl
@[simp] theorem State.issue_pixelCount (s : State) (p : Position) : (s.issue p).pixelCount = s.pixelCount := rfl
@[simp] theorem State.issue_usableCh (s : State) (p : Position) : (s.issue p).usableCh = s.usableCh := rfl
@[simp] theorem State.issue_pad (s : State) (p : Position) : (s.issue p).pad = s.pad := rfl
@[simp] theorem State.issue_keymem (s : State) (p : Position) : (s.issue p).keymem = s.keymem := rfl
@[simp] theorem State.issue_msgmem (s : State) (p : Position) : (s.issue p).msgmem = s.msgmem := rfl
@[simp] theorem State.issue_imgmem (s : State) (p : Position) : (s.issue p).imgmem = s.imgmem := rfl
@[simp] theorem State.issue_backing (s : State) (p : Position) : (s.issue p).backing = s.backing := rfl
@[simp] theorem State.issue_hung (s : State) (p : Position) : (s.issue p).hung = s.hung := rfl
@[simp] theorem State.issue_reply (s : State) (p : Position) : (s.issue p).reply = s.reply := rfl
@[simp] theorem State.issue_host (s : State) (p : Position) : (s.issue p).host = s.host := rfl

/-! ### State.drawn -/

@[simp] theorem State.drawn_phase (s : State) (r : Word64) (q : Quad) : (s.drawn r q).phase = s.phase := rfl
@[simp] theorem State.drawn_fault (s : State) (r : Word64) (q : Quad) : (s.drawn r q).fault = s.fault := rfl
@[simp] theorem State.drawn_ill (s : State) (r : Word64) (q : Quad) : (s.drawn r q).ill = s.ill := rfl
@[simp] theorem State.drawn_seed (s : State) (r : Word64) (q : Quad) : (s.drawn r q).seed = s.seed := rfl
@[simp] theorem State.drawn_prng (s : State) (r : Word64) (q : Quad) : (s.drawn r q).prng = q := rfl
@[simp] theorem State.drawn_used (s : State) (r : Word64) (q : Quad) : (s.drawn r q).used = s.used := rfl
@[simp] theorem State.drawn_issued (s : State) (r : Word64) (q : Quad) : (s.drawn r q).issued = s.issued := rfl
@[simp] theorem State.drawn_draw (s : State) (r : Word64) (q : Quad) : (s.drawn r q).draw = r := rfl
@[simp] theorem State.drawn_pos (s : State) (r : Word64) (q : Quad) : (s.drawn r q).pos = s.pos := rfl
@[simp] theorem State.drawn_rlen (s : State) (r : Word64) (q : Quad) : (s.drawn r q).rlen = s.rlen := rfl
@[simp] theorem State.drawn_keyLen (s : State) (r : Word64) (q : Quad) : (s.drawn r q).keyLen = s.keyLen := rfl
@[simp] theorem State.drawn_msgLen (s : State) (r : Word64) (q : Quad) : (s.drawn r q).msgLen = s.msgLen := rfl
@[simp] theorem State.drawn_pixelCount (s : State) (r : Word64) (q : Quad) : (s.drawn r q).pixelCount = s.pixelCount := rfl
@[simp] theorem State.drawn_usableCh (s : State) (r : Word64) (q : Quad) : (s.drawn r q).usableCh = s.usableCh := rfl
@[simp] theorem State.drawn_pad (s : State) (r : Word64) (q : Quad) : (s.drawn r q).pad = s.pad := rfl
@[simp] theorem State.drawn_keymem (s : State) (r : Word64) (q : Quad) : (s.drawn r q).keymem = s.keymem := rfl
@[simp] theorem State.drawn_msgmem (s : State) (r : Word64) (q : Quad) : (s.drawn r q).msgmem = s.msgmem := rfl
@[simp] theorem State.drawn_imgmem (s : State) (r : Word64) (q : Quad) : (s.drawn r q).imgmem = s.imgmem := rfl
@[simp] theorem State.drawn_backing (s : State) (r : Word64) (q : Quad) : (s.drawn r q).backing = s.backing := rfl
@[simp] theorem State.drawn_hung (s : State) (r : Word64) (q : Quad) : (s.drawn r q).hung = s.hung := rfl
@[simp] theorem State.drawn_reply (s : State) (r : Word64) (q : Quad) : (s.drawn r q).reply = s.reply := rfl
@[simp] theorem State.drawn_host (s : State) (r : Word64) (q : Quad) : (s.drawn r q).host = s.host := rfl

/-! ### State.nextDraw -/

@[simp] theorem State.nextDraw_phase (s : State) : (s.nextDraw).phase = s.phase := rfl
@[simp] theorem State.nextDraw_fault (s : State) : (s.nextDraw).fault = s.fault := rfl
@[simp] theorem State.nextDraw_ill (s : State) : (s.nextDraw).ill = s.ill := rfl
@[simp] theorem State.nextDraw_seed (s : State) : (s.nextDraw).seed = s.seed := rfl
@[simp] theorem State.nextDraw_prng (s : State) : (s.nextDraw).prng = drawState s.prng := rfl
@[simp] theorem State.nextDraw_used (s : State) : (s.nextDraw).used = s.used := rfl
@[simp] theorem State.nextDraw_issued (s : State) : (s.nextDraw).issued = s.issued := rfl
@[simp] theorem State.nextDraw_draw (s : State) : (s.nextDraw).draw = drawOutput s.prng := rfl
@[simp] theorem State.nextDraw_pos (s : State) : (s.nextDraw).pos = s.pos := rfl
@[simp] theorem State.nextDraw_rlen (s : State) : (s.nextDraw).rlen = s.rlen := rfl
@[simp] theorem State.nextDraw_keyLen (s : State) : (s.nextDraw).keyLen = s.keyLen := rfl
@[simp] theorem State.nextDraw_msgLen (s : State) : (s.nextDraw).msgLen = s.msgLen := rfl
@[simp] theorem State.nextDraw_pixelCount (s : State) : (s.nextDraw).pixelCount = s.pixelCount := rfl
@[simp] theorem State.nextDraw_usableCh (s : State) : (s.nextDraw).usableCh = s.usableCh := rfl
@[simp] theorem State.nextDraw_pad (s : State) : (s.nextDraw).pad = s.pad := rfl
@[simp] theorem State.nextDraw_keymem (s : State) : (s.nextDraw).keymem = s.keymem := rfl
@[simp] theorem State.nextDraw_msgmem (s : State) : (s.nextDraw).msgmem = s.msgmem := rfl
@[simp] theorem State.nextDraw_imgmem (s : State) : (s.nextDraw).imgmem = s.imgmem := rfl
@[simp] theorem State.nextDraw_backing (s : State) : (s.nextDraw).backing = s.backing := rfl
@[simp] theorem State.nextDraw_hung (s : State) : (s.nextDraw).hung = s.hung := rfl
@[simp] theorem State.nextDraw_reply (s : State) : (s.nextDraw).reply = s.reply := rfl
@[simp] theorem State.nextDraw_host (s : State) : (s.nextDraw).host = s.host := rfl

/-! ### State.toPhase -/

@[simp] theorem State.toPhase_phase (s : State) (x : Phase) : (s.toPhase x).phase = x := rfl
@[simp] theorem State.toPhase_fault (s : State) (x : Phase) : (s.toPhase x).fault = s.fault := rfl
@[simp] theorem State.toPhase_ill (s : State) (x : Phase) : (s.toPhase x).ill = s.ill := rfl
@[simp] theorem State.toPhase_seed (s : State) (x : Phase) : (s.toPhase x).seed = s.seed := rfl
@[simp] theorem State.toPhase_prng (s : State) (x : Phase) : (s.toPhase x).prng = s.prng := rfl
@[simp] theorem State.toPhase_used (s : State) (x : Phase) : (s.toPhase x).used = s.used := rfl
@[simp] theorem State.toPhase_issued (s : State) (x : Phase) : (s.toPhase x).issued = s.issued := rfl
@[simp] theorem State.toPhase_draw (s : State) (x : Phase) : (s.toPhase x).draw = s.draw := rfl
@[simp] theorem State.toPhase_pos (s : State) (x : Phase) : (s.toPhase x).pos = s.pos := rfl
@[simp] theorem State.toPhase_rlen (s : State) (x : Phase) : (s.toPhase x).rlen = s.rlen := rfl
@[simp] theorem State.toPhase_keyLen (s : State) (x : Phase) : (s.toPhase x).keyLen = s.keyLen := rfl
@[simp] theorem State.toPhase_msgLen (s : State) (x : Phase) : (s.toPhase x).msgLen = s.msgLen := rfl
@[simp] theorem State.toPhase_pixelCount (s : State) (x : Phase) : (s.toPhase x).pixelCount = s.pixelCount := rfl
@[simp] theorem State.toPhase_usableCh (s : State) (x : Phase) : (s.toPhase x).usableCh = s.usableCh := rfl
@[simp] theorem State.toPhase_pad (s : State) (x : Phase) : (s.toPhase x).pad = s.pad := rfl
@[simp] theorem State.toPhase_keymem (s : State) (x : Phase) : (s.toPhase x).keymem = s.keymem := rfl
@[simp] theorem State.toPhase_msgmem (s : State) (x : Phase) : (s.toPhase x).msgmem = s.msgmem := rfl
@[simp] theorem State.toPhase_imgmem (s : State) (x : Phase) : (s.toPhase x).imgmem = s.imgmem := rfl
@[simp] theorem State.toPhase_backing (s : State) (x : Phase) : (s.toPhase x).backing = s.backing := rfl
@[simp] theorem State.toPhase_hung (s : State) (x : Phase) : (s.toPhase x).hung = s.hung := rfl
@[simp] theorem State.toPhase_reply (s : State) (x : Phase) : (s.toPhase x).reply = s.reply := rfl
@[simp] theorem State.toPhase_host (s : State) (x : Phase) : (s.toPhase x).host = s.host := rfl

/-! ### State.setRlen -/

@[simp] theorem State.setRlen_phase (s : State) (n : Word32) : (s.setRlen n).phase = s.phase := rfl
@[simp] theorem State.setRlen_fault (s : State) (n : Word32) : (s.setRlen n).fault = s.fault := rfl
@[simp] theorem State.setRlen_ill (s : State) (n : Word32) : (s.setRlen n).ill = s.ill := rfl
@[simp] theorem State.setRlen_seed (s : State) (n : Word32) : (s.setRlen n).seed = s.seed := rfl
@[simp] theorem State.setRlen_prng (s : State) (n : Word32) : (s.setRlen n).prng = s.prng := rfl
@[simp] theorem State.setRlen_used (s : State) (n : Word32) : (s.setRlen n).used = s.used := rfl
@[simp] theorem State.setRlen_issued (s : State) (n : Word32) : (s.setRlen n).issued = s.issued := rfl
@[simp] theorem State.setRlen_draw (s : State) (n : Word32) : (s.setRlen n).draw = s.draw := rfl
@[simp] theorem State.setRlen_pos (s : State) (n : Word32) : (s.setRlen n).pos = s.pos := rfl
@[simp] theorem State.setRlen_rlen (s : State) (n : Word32) : (s.setRlen n).rlen = n := rfl
@[simp] theorem State.setRlen_keyLen (s : State) (n : Word32) : (s.setRlen n).keyLen = s.keyLen := rfl
@[simp] theorem State.setRlen_msgLen (s : State) (n : Word32) : (s.setRlen n).msgLen = s.msgLen := rfl
@[simp] theorem State.setRlen_pixelCount (s : State) (n : Word32) : (s.setRlen n).pixelCount = s.pixelCount := rfl
@[simp] theorem State.setRlen_usableCh (s : State) (n : Word32) : (s.setRlen n).usableCh = s.usableCh := rfl
@[simp] theorem State.setRlen_pad (s : State) (n : Word32) : (s.setRlen n).pad = s.pad := rfl
@[simp] theorem State.setRlen_keymem (s : State) (n : Word32) : (s.setRlen n).keymem = s.keymem := rfl
@[simp] theorem State.setRlen_msgmem (s : State) (n : Word32) : (s.setRlen n).msgmem = s.msgmem := rfl
@[simp] theorem State.setRlen_imgmem (s : State) (n : Word32) : (s.setRlen n).imgmem = s.imgmem := rfl
@[simp] theorem State.setRlen_backing (s : State) (n : Word32) : (s.setRlen n).backing = s.backing := rfl
@[simp] theorem State.setRlen_hung (s : State) (n : Word32) : (s.setRlen n).hung = s.hung := rfl
@[simp] theorem State.setRlen_reply (s : State) (n : Word32) : (s.setRlen n).reply = s.reply := rfl
@[simp] theorem State.setRlen_host (s : State) (n : Word32) : (s.setRlen n).host = s.host := rfl

/-! ### State.loadSeed -/

@[simp] theorem State.loadSeed_phase (s : State) (q : Quad) : (s.loadSeed q).phase = s.phase := rfl
@[simp] theorem State.loadSeed_fault (s : State) (q : Quad) : (s.loadSeed q).fault = s.fault := rfl
@[simp] theorem State.loadSeed_ill (s : State) (q : Quad) : (s.loadSeed q).ill = s.ill := rfl
@[simp] theorem State.loadSeed_seed (s : State) (q : Quad) : (s.loadSeed q).seed = q := rfl
@[simp] theorem State.loadSeed_prng (s : State) (q : Quad) : (s.loadSeed q).prng = s.prng := rfl
@[simp] theorem State.loadSeed_used (s : State) (q : Quad) : (s.loadSeed q).used = s.used := rfl
@[simp] theorem State.loadSeed_issued (s : State) (q : Quad) : (s.loadSeed q).issued = s.issued := rfl
@[simp] theorem State.loadSeed_draw (s : State) (q : Quad) : (s.loadSeed q).draw = s.draw := rfl
@[simp] theorem State.loadSeed_pos (s : State) (q : Quad) : (s.loadSeed q).pos = s.pos := rfl
@[simp] theorem State.loadSeed_rlen (s : State) (q : Quad) : (s.loadSeed q).rlen = s.rlen := rfl
@[simp] theorem State.loadSeed_keyLen (s : State) (q : Quad) : (s.loadSeed q).keyLen = s.keyLen := rfl
@[simp] theorem State.loadSeed_msgLen (s : State) (q : Quad) : (s.loadSeed q).msgLen = s.msgLen := rfl
@[simp] theorem State.loadSeed_pixelCount (s : State) (q : Quad) : (s.loadSeed q).pixelCount = s.pixelCount := rfl
@[simp] theorem State.loadSeed_usableCh (s : State) (q : Quad) : (s.loadSeed q).usableCh = s.usableCh := rfl
@[simp] theorem State.loadSeed_pad (s : State) (q : Quad) : (s.loadSeed q).pad = s.pad := rfl
@[simp] theorem State.loadSeed_keymem (s : State) (q : Quad) : (s.loadSeed q).keymem = s.keymem := rfl
@[simp] theorem State.loadSeed_msgmem (s : State) (q : Quad) : (s.loadSeed q).msgmem = s.msgmem := rfl
@[simp] theorem State.loadSeed_imgmem (s : State) (q : Quad) : (s.loadSeed q).imgmem = s.imgmem := rfl
@[simp] theorem State.loadSeed_backing (s : State) (q : Quad) : (s.loadSeed q).backing = s.backing := rfl
@[simp] theorem State.loadSeed_hung (s : State) (q : Quad) : (s.loadSeed q).hung = s.hung := rfl
@[simp] theorem State.loadSeed_reply (s : State) (q : Quad) : (s.loadSeed q).reply = s.reply := rfl
@[simp] theorem State.loadSeed_host (s : State) (q : Quad) : (s.loadSeed q).host = s.host := rfl

/-! ### State.openStream -/

@[simp] theorem State.openStream_phase (s : State) : (s.openStream).phase = s.phase := rfl
@[simp] theorem State.openStream_fault (s : State) : (s.openStream).fault = s.fault := rfl
@[simp] theorem State.openStream_ill (s : State) : (s.openStream).ill = s.ill := rfl
@[simp] theorem State.openStream_seed (s : State) : (s.openStream).seed = s.seed := rfl
@[simp] theorem State.openStream_prng (s : State) : (s.openStream).prng = s.seed := rfl
@[simp] theorem State.openStream_used (s : State) : (s.openStream).used = [] := rfl
@[simp] theorem State.openStream_issued (s : State) : (s.openStream).issued = 0#40 := rfl
@[simp] theorem State.openStream_draw (s : State) : (s.openStream).draw = s.draw := rfl
@[simp] theorem State.openStream_pos (s : State) : (s.openStream).pos = s.pos := rfl
@[simp] theorem State.openStream_rlen (s : State) : (s.openStream).rlen = s.rlen := rfl
@[simp] theorem State.openStream_keyLen (s : State) : (s.openStream).keyLen = s.keyLen := rfl
@[simp] theorem State.openStream_msgLen (s : State) : (s.openStream).msgLen = s.msgLen := rfl
@[simp] theorem State.openStream_pixelCount (s : State) : (s.openStream).pixelCount = s.pixelCount := rfl
@[simp] theorem State.openStream_usableCh (s : State) : (s.openStream).usableCh = s.usableCh := rfl
@[simp] theorem State.openStream_pad (s : State) : (s.openStream).pad = s.pad := rfl
@[simp] theorem State.openStream_keymem (s : State) : (s.openStream).keymem = s.keymem := rfl
@[simp] theorem State.openStream_msgmem (s : State) : (s.openStream).msgmem = s.msgmem := rfl
@[simp] theorem State.openStream_imgmem (s : State) : (s.openStream).imgmem = s.imgmem := rfl
@[simp] theorem State.openStream_backing (s : State) : (s.openStream).backing = s.backing := rfl
@[simp] theorem State.openStream_hung (s : State) : (s.openStream).hung = s.hung := rfl
@[simp] theorem State.openStream_reply (s : State) : (s.openStream).reply = s.reply := rfl
@[simp] theorem State.openStream_host (s : State) : (s.openStream).host = s.host := rfl

/-! ### State.raiseCapacityExceeded -/

@[simp] theorem State.raiseCapacityExceeded_phase (s : State) : (s.raiseCapacityExceeded).phase = .failed := rfl
@[simp] theorem State.raiseCapacityExceeded_fault (s : State) : (s.raiseCapacityExceeded).fault = .capacityExceeded := rfl
@[simp] theorem State.raiseCapacityExceeded_ill (s : State) : (s.raiseCapacityExceeded).ill = s.ill := rfl
@[simp] theorem State.raiseCapacityExceeded_seed (s : State) : (s.raiseCapacityExceeded).seed = s.seed := rfl
@[simp] theorem State.raiseCapacityExceeded_prng (s : State) : (s.raiseCapacityExceeded).prng = s.prng := rfl
@[simp] theorem State.raiseCapacityExceeded_used (s : State) : (s.raiseCapacityExceeded).used = s.used := rfl
@[simp] theorem State.raiseCapacityExceeded_issued (s : State) : (s.raiseCapacityExceeded).issued = s.issued := rfl
@[simp] theorem State.raiseCapacityExceeded_draw (s : State) : (s.raiseCapacityExceeded).draw = s.draw := rfl
@[simp] theorem State.raiseCapacityExceeded_pos (s : State) : (s.raiseCapacityExceeded).pos = s.pos := rfl
@[simp] theorem State.raiseCapacityExceeded_rlen (s : State) : (s.raiseCapacityExceeded).rlen = s.rlen := rfl
@[simp] theorem State.raiseCapacityExceeded_keyLen (s : State) : (s.raiseCapacityExceeded).keyLen = s.keyLen := rfl
@[simp] theorem State.raiseCapacityExceeded_msgLen (s : State) : (s.raiseCapacityExceeded).msgLen = s.msgLen := rfl
@[simp] theorem State.raiseCapacityExceeded_pixelCount (s : State) : (s.raiseCapacityExceeded).pixelCount = s.pixelCount := rfl
@[simp] theorem State.raiseCapacityExceeded_usableCh (s : State) : (s.raiseCapacityExceeded).usableCh = s.usableCh := rfl
@[simp] theorem State.raiseCapacityExceeded_pad (s : State) : (s.raiseCapacityExceeded).pad = s.pad := rfl
@[simp] theorem State.raiseCapacityExceeded_keymem (s : State) : (s.raiseCapacityExceeded).keymem = s.keymem := rfl
@[simp] theorem State.raiseCapacityExceeded_msgmem (s : State) : (s.raiseCapacityExceeded).msgmem = s.msgmem := rfl
@[simp] theorem State.raiseCapacityExceeded_imgmem (s : State) : (s.raiseCapacityExceeded).imgmem = s.imgmem := rfl
@[simp] theorem State.raiseCapacityExceeded_backing (s : State) : (s.raiseCapacityExceeded).backing = s.backing := rfl
@[simp] theorem State.raiseCapacityExceeded_hung (s : State) : (s.raiseCapacityExceeded).hung = s.hung := rfl
@[simp] theorem State.raiseCapacityExceeded_reply (s : State) : (s.raiseCapacityExceeded).reply = s.reply := rfl
@[simp] theorem State.raiseCapacityExceeded_host (s : State) : (s.raiseCapacityExceeded).host = s.host := rfl

/-! ### State.refuseIllegal -/

@[simp] theorem State.refuseIllegal_phase (s : State) : (s.refuseIllegal).phase = s.phase := rfl
@[simp] theorem State.refuseIllegal_fault (s : State) : (s.refuseIllegal).fault = s.fault := rfl
@[simp] theorem State.refuseIllegal_ill (s : State) : (s.refuseIllegal).ill = true := rfl
@[simp] theorem State.refuseIllegal_seed (s : State) : (s.refuseIllegal).seed = s.seed := rfl
@[simp] theorem State.refuseIllegal_prng (s : State) : (s.refuseIllegal).prng = s.prng := rfl
@[simp] theorem State.refuseIllegal_used (s : State) : (s.refuseIllegal).used = s.used := rfl
@[simp] theorem State.refuseIllegal_issued (s : State) : (s.refuseIllegal).issued = s.issued := rfl
@[simp] theorem State.refuseIllegal_draw (s : State) : (s.refuseIllegal).draw = s.draw := rfl
@[simp] theorem State.refuseIllegal_pos (s : State) : (s.refuseIllegal).pos = s.pos := rfl
@[simp] theorem State.refuseIllegal_rlen (s : State) : (s.refuseIllegal).rlen = s.rlen := rfl
@[simp] theorem State.refuseIllegal_keyLen (s : State) : (s.refuseIllegal).keyLen = s.keyLen := rfl
@[simp] theorem State.refuseIllegal_msgLen (s : State) : (s.refuseIllegal).msgLen = s.msgLen := rfl
@[simp] theorem State.refuseIllegal_pixelCount (s : State) : (s.refuseIllegal).pixelCount = s.pixelCount := rfl
@[simp] theorem State.refuseIllegal_usableCh (s : State) : (s.refuseIllegal).usableCh = s.usableCh := rfl
@[simp] theorem State.refuseIllegal_pad (s : State) : (s.refuseIllegal).pad = s.pad := rfl
@[simp] theorem State.refuseIllegal_keymem (s : State) : (s.refuseIllegal).keymem = s.keymem := rfl
@[simp] theorem State.refuseIllegal_msgmem (s : State) : (s.refuseIllegal).msgmem = s.msgmem := rfl
@[simp] theorem State.refuseIllegal_imgmem (s : State) : (s.refuseIllegal).imgmem = s.imgmem := rfl
@[simp] theorem State.refuseIllegal_backing (s : State) : (s.refuseIllegal).backing = s.backing := rfl
@[simp] theorem State.refuseIllegal_hung (s : State) : (s.refuseIllegal).hung = s.hung := rfl
@[simp] theorem State.refuseIllegal_reply (s : State) : (s.refuseIllegal).reply = s.reply := rfl
@[simp] theorem State.refuseIllegal_host (s : State) : (s.refuseIllegal).host = s.host := rfl

/-! ### State.hang -/

@[simp] theorem State.hang_phase (s : State) : (s.hang).phase = s.phase := rfl
@[simp] theorem State.hang_fault (s : State) : (s.hang).fault = s.fault := rfl
@[simp] theorem State.hang_ill (s : State) : (s.hang).ill = s.ill := rfl
@[simp] theorem State.hang_seed (s : State) : (s.hang).seed = s.seed := rfl
@[simp] theorem State.hang_prng (s : State) : (s.hang).prng = s.prng := rfl
@[simp] theorem State.hang_used (s : State) : (s.hang).used = s.used := rfl
@[simp] theorem State.hang_issued (s : State) : (s.hang).issued = s.issued := rfl
@[simp] theorem State.hang_draw (s : State) : (s.hang).draw = s.draw := rfl
@[simp] theorem State.hang_pos (s : State) : (s.hang).pos = s.pos := rfl
@[simp] theorem State.hang_rlen (s : State) : (s.hang).rlen = s.rlen := rfl
@[simp] theorem State.hang_keyLen (s : State) : (s.hang).keyLen = s.keyLen := rfl
@[simp] theorem State.hang_msgLen (s : State) : (s.hang).msgLen = s.msgLen := rfl
@[simp] theorem State.hang_pixelCount (s : State) : (s.hang).pixelCount = s.pixelCount := rfl
@[simp] theorem State.hang_usableCh (s : State) : (s.hang).usableCh = s.usableCh := rfl
@[simp] theorem State.hang_pad (s : State) : (s.hang).pad = s.pad := rfl
@[simp] theorem State.hang_keymem (s : State) : (s.hang).keymem = s.keymem := rfl
@[simp] theorem State.hang_msgmem (s : State) : (s.hang).msgmem = s.msgmem := rfl
@[simp] theorem State.hang_imgmem (s : State) : (s.hang).imgmem = s.imgmem := rfl
@[simp] theorem State.hang_backing (s : State) : (s.hang).backing = s.backing := rfl
@[simp] theorem State.hang_hung (s : State) : (s.hang).hung = true := rfl
@[simp] theorem State.hang_reply (s : State) : (s.hang).reply = s.reply := rfl
@[simp] theorem State.hang_host (s : State) : (s.hang).host = s.host := rfl

/-! ### State.popMove -/

@[simp] theorem State.popMove_phase (s : State) (rest : List HostMove) : (s.popMove rest).phase = s.phase := rfl
@[simp] theorem State.popMove_fault (s : State) (rest : List HostMove) : (s.popMove rest).fault = s.fault := rfl
@[simp] theorem State.popMove_ill (s : State) (rest : List HostMove) : (s.popMove rest).ill = s.ill := rfl
@[simp] theorem State.popMove_seed (s : State) (rest : List HostMove) : (s.popMove rest).seed = s.seed := rfl
@[simp] theorem State.popMove_prng (s : State) (rest : List HostMove) : (s.popMove rest).prng = s.prng := rfl
@[simp] theorem State.popMove_used (s : State) (rest : List HostMove) : (s.popMove rest).used = s.used := rfl
@[simp] theorem State.popMove_issued (s : State) (rest : List HostMove) : (s.popMove rest).issued = s.issued := rfl
@[simp] theorem State.popMove_draw (s : State) (rest : List HostMove) : (s.popMove rest).draw = s.draw := rfl
@[simp] theorem State.popMove_pos (s : State) (rest : List HostMove) : (s.popMove rest).pos = s.pos := rfl
@[simp] theorem State.popMove_rlen (s : State) (rest : List HostMove) : (s.popMove rest).rlen = s.rlen := rfl
@[simp] theorem State.popMove_keyLen (s : State) (rest : List HostMove) : (s.popMove rest).keyLen = s.keyLen := rfl
@[simp] theorem State.popMove_msgLen (s : State) (rest : List HostMove) : (s.popMove rest).msgLen = s.msgLen := rfl
@[simp] theorem State.popMove_pixelCount (s : State) (rest : List HostMove) : (s.popMove rest).pixelCount = s.pixelCount := rfl
@[simp] theorem State.popMove_usableCh (s : State) (rest : List HostMove) : (s.popMove rest).usableCh = s.usableCh := rfl
@[simp] theorem State.popMove_pad (s : State) (rest : List HostMove) : (s.popMove rest).pad = s.pad := rfl
@[simp] theorem State.popMove_keymem (s : State) (rest : List HostMove) : (s.popMove rest).keymem = s.keymem := rfl
@[simp] theorem State.popMove_msgmem (s : State) (rest : List HostMove) : (s.popMove rest).msgmem = s.msgmem := rfl
@[simp] theorem State.popMove_imgmem (s : State) (rest : List HostMove) : (s.popMove rest).imgmem = s.imgmem := rfl
@[simp] theorem State.popMove_backing (s : State) (rest : List HostMove) : (s.popMove rest).backing = s.backing := rfl
@[simp] theorem State.popMove_hung (s : State) (rest : List HostMove) : (s.popMove rest).hung = s.hung := rfl
@[simp] theorem State.popMove_reply (s : State) (rest : List HostMove) : (s.popMove rest).reply = s.reply := rfl
@[simp] theorem State.popMove_host (s : State) (rest : List HostMove) : (s.popMove rest).host = rest := rfl

/-! ### State.answer -/

@[simp] theorem State.answer_phase (s : State) (v : Word32) : (s.answer v).phase = s.phase := rfl
@[simp] theorem State.answer_fault (s : State) (v : Word32) : (s.answer v).fault = s.fault := rfl
@[simp] theorem State.answer_ill (s : State) (v : Word32) : (s.answer v).ill = s.ill := rfl
@[simp] theorem State.answer_seed (s : State) (v : Word32) : (s.answer v).seed = s.seed := rfl
@[simp] theorem State.answer_prng (s : State) (v : Word32) : (s.answer v).prng = s.prng := rfl
@[simp] theorem State.answer_used (s : State) (v : Word32) : (s.answer v).used = s.used := rfl
@[simp] theorem State.answer_issued (s : State) (v : Word32) : (s.answer v).issued = s.issued := rfl
@[simp] theorem State.answer_draw (s : State) (v : Word32) : (s.answer v).draw = s.draw := rfl
@[simp] theorem State.answer_pos (s : State) (v : Word32) : (s.answer v).pos = s.pos := rfl
@[simp] theorem State.answer_rlen (s : State) (v : Word32) : (s.answer v).rlen = s.rlen := rfl
@[simp] theorem State.answer_keyLen (s : State) (v : Word32) : (s.answer v).keyLen = s.keyLen := rfl
@[simp] theorem State.answer_msgLen (s : State) (v : Word32) : (s.answer v).msgLen = s.msgLen := rfl
@[simp] theorem State.answer_pixelCount (s : State) (v : Word32) : (s.answer v).pixelCount = s.pixelCount := rfl
@[simp] theorem State.answer_usableCh (s : State) (v : Word32) : (s.answer v).usableCh = s.usableCh := rfl
@[simp] theorem State.answer_pad (s : State) (v : Word32) : (s.answer v).pad = s.pad := rfl
@[simp] theorem State.answer_keymem (s : State) (v : Word32) : (s.answer v).keymem = s.keymem := rfl
@[simp] theorem State.answer_msgmem (s : State) (v : Word32) : (s.answer v).msgmem = s.msgmem := rfl
@[simp] theorem State.answer_imgmem (s : State) (v : Word32) : (s.answer v).imgmem = s.imgmem := rfl
@[simp] theorem State.answer_backing (s : State) (v : Word32) : (s.answer v).backing = s.backing := rfl
@[simp] theorem State.answer_hung (s : State) (v : Word32) : (s.answer v).hung = s.hung := rfl
@[simp] theorem State.answer_reply (s : State) (v : Word32) : (s.answer v).reply = v := rfl
@[simp] theorem State.answer_host (s : State) (v : Word32) : (s.answer v).host = s.host := rfl

/-! ### State.freshInvocation -/

@[simp] theorem State.freshInvocation_phase (s : State) : (s.freshInvocation).phase = .idle := rfl
@[simp] theorem State.freshInvocation_fault (s : State) : (s.freshInvocation).fault = .noFault := rfl
@[simp] theorem State.freshInvocation_ill (s : State) : (s.freshInvocation).ill = false := rfl
@[simp] theorem State.freshInvocation_seed (s : State) : (s.freshInvocation).seed = Quad.zero := rfl
@[simp] theorem State.freshInvocation_prng (s : State) : (s.freshInvocation).prng = Quad.zero := rfl
@[simp] theorem State.freshInvocation_used (s : State) : (s.freshInvocation).used = [] := rfl
@[simp] theorem State.freshInvocation_issued (s : State) : (s.freshInvocation).issued = 0#40 := rfl
@[simp] theorem State.freshInvocation_draw (s : State) : (s.freshInvocation).draw = 0#64 := rfl
@[simp] theorem State.freshInvocation_pos (s : State) : (s.freshInvocation).pos = ⟨0#32, 0#8⟩ := rfl
@[simp] theorem State.freshInvocation_rlen (s : State) : (s.freshInvocation).rlen = 0#32 := rfl
@[simp] theorem State.freshInvocation_keyLen (s : State) : (s.freshInvocation).keyLen = s.keyLen := rfl
@[simp] theorem State.freshInvocation_msgLen (s : State) : (s.freshInvocation).msgLen = s.msgLen := rfl
@[simp] theorem State.freshInvocation_pixelCount (s : State) : (s.freshInvocation).pixelCount = s.pixelCount := rfl
@[simp] theorem State.freshInvocation_usableCh (s : State) : (s.freshInvocation).usableCh = s.usableCh := rfl
@[simp] theorem State.freshInvocation_pad (s : State) : (s.freshInvocation).pad = s.pad := rfl
@[simp] theorem State.freshInvocation_keymem (s : State) : (s.freshInvocation).keymem = s.keymem := rfl
@[simp] theorem State.freshInvocation_msgmem (s : State) : (s.freshInvocation).msgmem = s.msgmem := rfl
@[simp] theorem State.freshInvocation_imgmem (s : State) : (s.freshInvocation).imgmem = s.imgmem := rfl
@[simp] theorem State.freshInvocation_backing (s : State) : (s.freshInvocation).backing = s.backing := rfl
@[simp] theorem State.freshInvocation_hung (s : State) : (s.freshInvocation).hung = s.hung := rfl
@[simp] theorem State.freshInvocation_reply (s : State) : (s.freshInvocation).reply = s.reply := rfl
@[simp] theorem State.freshInvocation_host (s : State) : (s.freshInvocation).host = s.host := rfl

/-! ### State.hardwareReset -/

@[simp] theorem State.hardwareReset_phase (s : State) : (s.hardwareReset).phase = .idle := rfl
@[simp] theorem State.hardwareReset_fault (s : State) : (s.hardwareReset).fault = .noFault := rfl
@[simp] theorem State.hardwareReset_ill (s : State) : (s.hardwareReset).ill = false := rfl
@[simp] theorem State.hardwareReset_seed (s : State) : (s.hardwareReset).seed = Quad.zero := rfl
@[simp] theorem State.hardwareReset_prng (s : State) : (s.hardwareReset).prng = Quad.zero := rfl
@[simp] theorem State.hardwareReset_used (s : State) : (s.hardwareReset).used = [] := rfl
@[simp] theorem State.hardwareReset_issued (s : State) : (s.hardwareReset).issued = 0#40 := rfl
@[simp] theorem State.hardwareReset_draw (s : State) : (s.hardwareReset).draw = 0#64 := rfl
@[simp] theorem State.hardwareReset_pos (s : State) : (s.hardwareReset).pos = ⟨0#32, 0#8⟩ := rfl
@[simp] theorem State.hardwareReset_rlen (s : State) : (s.hardwareReset).rlen = 0#32 := rfl
@[simp] theorem State.hardwareReset_keyLen (s : State) : (s.hardwareReset).keyLen = 0#32 := rfl
@[simp] theorem State.hardwareReset_msgLen (s : State) : (s.hardwareReset).msgLen = 0#32 := rfl
@[simp] theorem State.hardwareReset_pixelCount (s : State) : (s.hardwareReset).pixelCount = 0#32 := rfl
@[simp] theorem State.hardwareReset_usableCh (s : State) : (s.hardwareReset).usableCh = 0#8 := rfl
@[simp] theorem State.hardwareReset_pad (s : State) : (s.hardwareReset).pad = 0#8 := rfl
@[simp] theorem State.hardwareReset_keymem (s : State) : (s.hardwareReset).keymem = s.keymem := rfl
@[simp] theorem State.hardwareReset_msgmem (s : State) : (s.hardwareReset).msgmem = s.msgmem := rfl
@[simp] theorem State.hardwareReset_imgmem (s : State) : (s.hardwareReset).imgmem = s.imgmem := rfl
@[simp] theorem State.hardwareReset_backing (s : State) : (s.hardwareReset).backing = s.backing := rfl
@[simp] theorem State.hardwareReset_hung (s : State) : (s.hardwareReset).hung = false := rfl
@[simp] theorem State.hardwareReset_reply (s : State) : (s.hardwareReset).reply = s.reply := rfl
@[simp] theorem State.hardwareReset_host (s : State) : (s.hardwareReset).host = s.host := rfl

/-! ### State.powerCycle -/

@[simp] theorem State.powerCycle_phase (s : State) (k m i : List Host.Cell) : (s.powerCycle k m i).phase = .idle := rfl
@[simp] theorem State.powerCycle_fault (s : State) (k m i : List Host.Cell) : (s.powerCycle k m i).fault = .noFault := rfl
@[simp] theorem State.powerCycle_ill (s : State) (k m i : List Host.Cell) : (s.powerCycle k m i).ill = false := rfl
@[simp] theorem State.powerCycle_seed (s : State) (k m i : List Host.Cell) : (s.powerCycle k m i).seed = Quad.zero := rfl
@[simp] theorem State.powerCycle_prng (s : State) (k m i : List Host.Cell) : (s.powerCycle k m i).prng = Quad.zero := rfl
@[simp] theorem State.powerCycle_used (s : State) (k m i : List Host.Cell) : (s.powerCycle k m i).used = [] := rfl
@[simp] theorem State.powerCycle_issued (s : State) (k m i : List Host.Cell) : (s.powerCycle k m i).issued = 0#40 := rfl
@[simp] theorem State.powerCycle_draw (s : State) (k m i : List Host.Cell) : (s.powerCycle k m i).draw = 0#64 := rfl
@[simp] theorem State.powerCycle_pos (s : State) (k m i : List Host.Cell) : (s.powerCycle k m i).pos = ⟨0#32, 0#8⟩ := rfl
@[simp] theorem State.powerCycle_rlen (s : State) (k m i : List Host.Cell) : (s.powerCycle k m i).rlen = 0#32 := rfl
@[simp] theorem State.powerCycle_keyLen (s : State) (k m i : List Host.Cell) : (s.powerCycle k m i).keyLen = 0#32 := rfl
@[simp] theorem State.powerCycle_msgLen (s : State) (k m i : List Host.Cell) : (s.powerCycle k m i).msgLen = 0#32 := rfl
@[simp] theorem State.powerCycle_pixelCount (s : State) (k m i : List Host.Cell) : (s.powerCycle k m i).pixelCount = 0#32 := rfl
@[simp] theorem State.powerCycle_usableCh (s : State) (k m i : List Host.Cell) : (s.powerCycle k m i).usableCh = 0#8 := rfl
@[simp] theorem State.powerCycle_pad (s : State) (k m i : List Host.Cell) : (s.powerCycle k m i).pad = 0#8 := rfl
@[simp] theorem State.powerCycle_keymem (s : State) (k m i : List Host.Cell) : (s.powerCycle k m i).keymem = Memory.ofCells Config.keySpace k := rfl
@[simp] theorem State.powerCycle_msgmem (s : State) (k m i : List Host.Cell) : (s.powerCycle k m i).msgmem = Memory.ofCells Config.msgSpace m := rfl
@[simp] theorem State.powerCycle_imgmem (s : State) (k m i : List Host.Cell) : (s.powerCycle k m i).imgmem = Memory.ofCells Config.imgSpace i := rfl
@[simp] theorem State.powerCycle_backing (s : State) (k m i : List Host.Cell) : (s.powerCycle k m i).backing = s.backing := rfl
@[simp] theorem State.powerCycle_hung (s : State) (k m i : List Host.Cell) : (s.powerCycle k m i).hung = false := rfl
@[simp] theorem State.powerCycle_reply (s : State) (k m i : List Host.Cell) : (s.powerCycle k m i).reply = s.reply := rfl
@[simp] theorem State.powerCycle_host (s : State) (k m i : List Host.Cell) : (s.powerCycle k m i).host = s.host := rfl

/-! ### State.writeByte -/

@[simp] theorem State.writeByte_phase (s : State) (sp : Space) (a : Nat) (v : Byte) : (s.writeByte sp a v).phase = s.phase := by cases sp <;> rfl
@[simp] theorem State.writeByte_fault (s : State) (sp : Space) (a : Nat) (v : Byte) : (s.writeByte sp a v).fault = s.fault := by cases sp <;> rfl
@[simp] theorem State.writeByte_ill (s : State) (sp : Space) (a : Nat) (v : Byte) : (s.writeByte sp a v).ill = s.ill := by cases sp <;> rfl
@[simp] theorem State.writeByte_seed (s : State) (sp : Space) (a : Nat) (v : Byte) : (s.writeByte sp a v).seed = s.seed := by cases sp <;> rfl
@[simp] theorem State.writeByte_prng (s : State) (sp : Space) (a : Nat) (v : Byte) : (s.writeByte sp a v).prng = s.prng := by cases sp <;> rfl
@[simp] theorem State.writeByte_used (s : State) (sp : Space) (a : Nat) (v : Byte) : (s.writeByte sp a v).used = s.used := by cases sp <;> rfl
@[simp] theorem State.writeByte_issued (s : State) (sp : Space) (a : Nat) (v : Byte) : (s.writeByte sp a v).issued = s.issued := by cases sp <;> rfl
@[simp] theorem State.writeByte_draw (s : State) (sp : Space) (a : Nat) (v : Byte) : (s.writeByte sp a v).draw = s.draw := by cases sp <;> rfl
@[simp] theorem State.writeByte_pos (s : State) (sp : Space) (a : Nat) (v : Byte) : (s.writeByte sp a v).pos = s.pos := by cases sp <;> rfl
@[simp] theorem State.writeByte_rlen (s : State) (sp : Space) (a : Nat) (v : Byte) : (s.writeByte sp a v).rlen = s.rlen := by cases sp <;> rfl
@[simp] theorem State.writeByte_keyLen (s : State) (sp : Space) (a : Nat) (v : Byte) : (s.writeByte sp a v).keyLen = s.keyLen := by cases sp <;> rfl
@[simp] theorem State.writeByte_msgLen (s : State) (sp : Space) (a : Nat) (v : Byte) : (s.writeByte sp a v).msgLen = s.msgLen := by cases sp <;> rfl
@[simp] theorem State.writeByte_pixelCount (s : State) (sp : Space) (a : Nat) (v : Byte) : (s.writeByte sp a v).pixelCount = s.pixelCount := by cases sp <;> rfl
@[simp] theorem State.writeByte_usableCh (s : State) (sp : Space) (a : Nat) (v : Byte) : (s.writeByte sp a v).usableCh = s.usableCh := by cases sp <;> rfl
@[simp] theorem State.writeByte_pad (s : State) (sp : Space) (a : Nat) (v : Byte) : (s.writeByte sp a v).pad = s.pad := by cases sp <;> rfl
@[simp] theorem State.writeByte_keymem_keymem (s : State) (a : Nat) (v : Byte) : (s.writeByte .keymem a v).keymem = s.keymem.write a v := rfl
@[simp] theorem State.writeByte_msgmem_keymem (s : State) (a : Nat) (v : Byte) : (s.writeByte .msgmem a v).keymem = s.keymem := rfl
@[simp] theorem State.writeByte_imgmem_keymem (s : State) (a : Nat) (v : Byte) : (s.writeByte .imgmem a v).keymem = s.keymem := rfl
@[simp] theorem State.writeByte_keymem_msgmem (s : State) (a : Nat) (v : Byte) : (s.writeByte .keymem a v).msgmem = s.msgmem := rfl
@[simp] theorem State.writeByte_msgmem_msgmem (s : State) (a : Nat) (v : Byte) : (s.writeByte .msgmem a v).msgmem = s.msgmem.write a v := rfl
@[simp] theorem State.writeByte_imgmem_msgmem (s : State) (a : Nat) (v : Byte) : (s.writeByte .imgmem a v).msgmem = s.msgmem := rfl
@[simp] theorem State.writeByte_keymem_imgmem (s : State) (a : Nat) (v : Byte) : (s.writeByte .keymem a v).imgmem = s.imgmem := rfl
@[simp] theorem State.writeByte_msgmem_imgmem (s : State) (a : Nat) (v : Byte) : (s.writeByte .msgmem a v).imgmem = s.imgmem := rfl
@[simp] theorem State.writeByte_imgmem_imgmem (s : State) (a : Nat) (v : Byte) : (s.writeByte .imgmem a v).imgmem = s.imgmem.write a v := rfl
@[simp] theorem State.writeByte_backing (s : State) (sp : Space) (a : Nat) (v : Byte) : (s.writeByte sp a v).backing = s.backing := by cases sp <;> rfl
@[simp] theorem State.writeByte_hung (s : State) (sp : Space) (a : Nat) (v : Byte) : (s.writeByte sp a v).hung = s.hung := by cases sp <;> rfl
@[simp] theorem State.writeByte_reply (s : State) (sp : Space) (a : Nat) (v : Byte) : (s.writeByte sp a v).reply = s.reply := by cases sp <;> rfl
@[simp] theorem State.writeByte_host (s : State) (sp : Space) (a : Nat) (v : Byte) : (s.writeByte sp a v).host = s.host := by cases sp <;> rfl

/-! ### State.embedBit -/

@[simp] theorem State.embedBit_phase (s : State) (p : Position) (b : Bool) : (s.embedBit p b).phase = s.phase := rfl
@[simp] theorem State.embedBit_fault (s : State) (p : Position) (b : Bool) : (s.embedBit p b).fault = s.fault := rfl
@[simp] theorem State.embedBit_ill (s : State) (p : Position) (b : Bool) : (s.embedBit p b).ill = s.ill := rfl
@[simp] theorem State.embedBit_seed (s : State) (p : Position) (b : Bool) : (s.embedBit p b).seed = s.seed := rfl
@[simp] theorem State.embedBit_prng (s : State) (p : Position) (b : Bool) : (s.embedBit p b).prng = s.prng := rfl
@[simp] theorem State.embedBit_used (s : State) (p : Position) (b : Bool) : (s.embedBit p b).used = s.used := rfl
@[simp] theorem State.embedBit_issued (s : State) (p : Position) (b : Bool) : (s.embedBit p b).issued = s.issued := rfl
@[simp] theorem State.embedBit_draw (s : State) (p : Position) (b : Bool) : (s.embedBit p b).draw = s.draw := rfl
@[simp] theorem State.embedBit_pos (s : State) (p : Position) (b : Bool) : (s.embedBit p b).pos = s.pos := rfl
@[simp] theorem State.embedBit_rlen (s : State) (p : Position) (b : Bool) : (s.embedBit p b).rlen = s.rlen := rfl
@[simp] theorem State.embedBit_keyLen (s : State) (p : Position) (b : Bool) : (s.embedBit p b).keyLen = s.keyLen := rfl
@[simp] theorem State.embedBit_msgLen (s : State) (p : Position) (b : Bool) : (s.embedBit p b).msgLen = s.msgLen := rfl
@[simp] theorem State.embedBit_pixelCount (s : State) (p : Position) (b : Bool) : (s.embedBit p b).pixelCount = s.pixelCount := rfl
@[simp] theorem State.embedBit_usableCh (s : State) (p : Position) (b : Bool) : (s.embedBit p b).usableCh = s.usableCh := rfl
@[simp] theorem State.embedBit_pad (s : State) (p : Position) (b : Bool) : (s.embedBit p b).pad = s.pad := rfl
@[simp] theorem State.embedBit_keymem (s : State) (p : Position) (b : Bool) : (s.embedBit p b).keymem = s.keymem := rfl
@[simp] theorem State.embedBit_msgmem (s : State) (p : Position) (b : Bool) : (s.embedBit p b).msgmem = s.msgmem := rfl
@[simp] theorem State.embedBit_imgmem (s : State) (p : Position) (b : Bool) :
    (s.embedBit p b).imgmem = s.imgmem.write (s.lsbAddr p) (withLsb (s.imgmem.read (s.lsbAddr p)) b) := rfl
@[simp] theorem State.embedBit_backing (s : State) (p : Position) (b : Bool) : (s.embedBit p b).backing = s.backing := rfl
@[simp] theorem State.embedBit_hung (s : State) (p : Position) (b : Bool) : (s.embedBit p b).hung = s.hung := rfl
@[simp] theorem State.embedBit_reply (s : State) (p : Position) (b : Bool) : (s.embedBit p b).reply = s.reply := rfl
@[simp] theorem State.embedBit_host (s : State) (p : Position) (b : Bool) : (s.embedBit p b).host = s.host := rfl

/-! ### The memory of a space -/

@[simp] theorem State.readByte_keymem (s : State) (a : Nat) : s.readByte .keymem a = s.keymem.read a := rfl
@[simp] theorem State.readByte_msgmem (s : State) (a : Nat) : s.readByte .msgmem a = s.msgmem.read a := rfl
@[simp] theorem State.readByte_imgmem (s : State) (a : Nat) : s.readByte .imgmem a = s.imgmem.read a := rfl

end Sys2Proof.Machine
end

