-- ==== Sys2Proof/Laws/Used.lean ====
section
/-!
SUPPORT. The laws of the set of issued positions as a sorted list (spec/10_state.md R12).
-/

namespace Sys2Proof.Machine

/-- The key names the position. -/
theorem Position.key_inj {p q : Position} (h : p.key = q.key) : p = q := by
  obtain ⟨a, b⟩ := p
  obtain ⟨c, d⟩ := q
  have hb := b.isLt
  have hd := d.isLt
  simp only [Position.key] at h
  have h1 : a.toNat = c.toNat := by omega
  have h2 : b.toNat = d.toNat := by omega
  rw [BitVec.eq_of_toNat_eq h1, BitVec.eq_of_toNat_eq h2]

/-- `USED + {p}` holds `p` and what was in `USED`. -/
theorem mem_usedInsert {p q : Position} {u : List Position} : q ∈ usedInsert p u ↔ q = p ∨ q ∈ u := by
  induction u with
  | nil => simp [usedInsert]
  | cons r u ih =>
    rw [usedInsert]
    split
    · simp
    · split
      · rename_i h
        rw [Position.key_inj h]
        simp
      · simp only [List.mem_cons, ih]
        exact or_left_comm

/-- A new position makes the set one larger. -/
theorem length_usedInsert {p : Position} {u : List Position} (h : p ∉ u) :
    (usedInsert p u).length = u.length + 1 := by
  induction u with
  | nil => simp [usedInsert]
  | cons r u ih =>
    simp only [List.mem_cons, not_or] at h
    rw [usedInsert]
    split
    · simp
    · split
      · rename_i hk
        exact absurd (Position.key_inj hk) h.1
      · simp [ih h.2]

/-- The list stays sorted. -/
theorem usedInsert_wf {u : List Position} (h : usedWf u) (p : Position) : usedWf (usedInsert p u) := by
  induction u with
  | nil => simp [usedInsert, usedWf]
  | cons r u ih =>
    have hr := List.pairwise_cons.1 h
    rw [usedInsert]
    split
    · rename_i hk
      refine List.pairwise_cons.2 ⟨fun q hq => ?_, h⟩
      rcases List.mem_cons.1 hq with rfl | hq
      · exact hk
      · exact lt_trans hk (hr.1 q hq)
    · split
      · exact h
      · rename_i h1 h2
        refine List.pairwise_cons.2 ⟨fun q hq => ?_, ih hr.2⟩
        rcases mem_usedInsert.1 hq with rfl | hq
        · exact lt_of_le_of_ne (not_lt.1 h1) (Ne.symm h2)
        · exact hr.1 q hq

/-- A sorted list holds no position twice. -/
theorem usedWf_nodup {u : List Position} (h : usedWf u) : u.Nodup :=
  h.imp fun hpq heq => absurd hpq (by rw [heq]; exact lt_irrefl _)

/-- Two sorted lists with the same elements are the same list: equal sets are equal data. -/
theorem usedWf_ext {u v : List Position} (hu : usedWf u) (hv : usedWf v) (h : ∀ p, p ∈ u ↔ p ∈ v) : u = v :=
  List.Perm.eq_of_pairwise (fun _ _ _ _ h1 h2 => absurd (lt_trans h1 h2) (lt_irrefl _)) hu hv
    ((List.perm_ext_iff_of_nodup (usedWf_nodup hu) (usedWf_nodup hv)).2 h)

end Sys2Proof.Machine
end

