-- ==== Sys2Proof/Laws/Positions.lean ====
section
/-!
SUPPORT. The laws of the draws and of `NextPos` (spec/42_positionstream.md): what a `NextPos` can do, said once; that
`2^256` draws decide whether its loop ends; and that it keeps the set of issued positions in order.
-/

namespace Sys2Proof.Machine

/-! ### Draws -/

@[simp] theorem prngAfter_zero (q : Quad) : prngAfter 0 q = q := rfl

theorem prngAfter_succ (k : Nat) (q : Quad) : prngAfter (k + 1) q = prngAfter k (drawState q) := rfl

theorem prngAfter_eq_iterate (k : Nat) (q : Quad) : prngAfter k q = drawState^[k] q := by
  induction k generalizing q with
  | zero => rfl
  | succ k ih => rw [prngAfter, ih, Function.iterate_succ_apply]

theorem prngAfter_add (j k : Nat) (q : Quad) : prngAfter (j + k) q = prngAfter k (prngAfter j q) := by
  simp only [prngAfter_eq_iterate, ← Function.iterate_add_apply, Nat.add_comm]

/-- The all-zero state stays (R123). -/
theorem drawState_zero : drawState Quad.zero = Quad.zero := by decide

/-- Four 64-bit words are one number below `2^256`. -/
def Quad.toNat (q : Quad) : Nat :=
  ((q.w0.toNat * 2 ^ 64 + q.w1.toNat) * 2 ^ 64 + q.w2.toNat) * 2 ^ 64 + q.w3.toNat

theorem Quad.toNat_lt (q : Quad) : q.toNat < Config.prngStates := by
  have h0 := q.w0.isLt
  have h1 := q.w1.isLt
  have h2 := q.w2.isLt
  have h3 := q.w3.isLt
  simp only [Quad.toNat, Config.prngStates]
  omega

theorem Quad.toNat_inj {p q : Quad} (h : p.toNat = q.toNat) : p = q := by
  obtain ⟨a, b, c, d⟩ := p
  obtain ⟨e, f, g, i⟩ := q
  have hb := b.isLt
  have hc := c.isLt
  have hd := d.isLt
  have hf := f.isLt
  have hg := g.isLt
  have hi := i.isLt
  simp only [Quad.toNat] at h
  have h3 : d.toNat = i.toNat := by omega
  have h2 : c.toNat = g.toNat := by omega
  have h1 : b.toNat = f.toNat := by omega
  have h0 : a.toNat = e.toNat := by omega
  rw [BitVec.eq_of_toNat_eq h0, BitVec.eq_of_toNat_eq h1, BitVec.eq_of_toNat_eq h2, BitVec.eq_of_toNat_eq h3]

/-- Two of any `2^256 + 1` successive states are the same. -/
theorem prngAfter_repeats (q : Quad) :
    ∃ i j, i < j ∧ j ≤ Config.prngStates ∧ prngAfter i q = prngAfter j q := by
  have hmap : ∀ k ∈ Finset.range (Config.prngStates + 1), (prngAfter k q).toNat ∈ Finset.range Config.prngStates :=
    fun k _ => Finset.mem_range.2 (Quad.toNat_lt _)
  have hcard : (Finset.range Config.prngStates).card < (Finset.range (Config.prngStates + 1)).card := by
    rw [Finset.card_range, Finset.card_range]
    exact Nat.lt_succ_self _
  obtain ⟨i, hi, j, hj, hne, heq⟩ := Finset.exists_ne_map_eq_of_card_lt_of_maps_to hcard hmap
  rw [Finset.mem_range] at hi hj
  have heq' := Quad.toNat_inj heq
  rcases Nat.lt_or_gt_of_ne hne with h | h
  · exact ⟨i, j, h, by omega, heq'⟩
  · exact ⟨j, i, h, by omega, heq'.symm⟩

/-- Every state the generator ever reaches is reached within `2^256` draws. -/
theorem prngAfter_reached_early (q : Quad) (k : Nat) : ∃ j < Config.prngStates, prngAfter j q = prngAfter k q := by
  induction k using Nat.strong_induction_on with
  | _ k ih =>
    by_cases hk : k < Config.prngStates
    · exact ⟨k, hk, rfl⟩
    · obtain ⟨i, j, hij, hj, heq⟩ := prngAfter_repeats q
      have hback : prngAfter (i + (k - j)) q = prngAfter k q := by
        rw [prngAfter_add, heq, ← prngAfter_add]
        congr 1
        omega
      obtain ⟨m, hm, hmk⟩ := ih (i + (k - j)) (by omega)
      exact ⟨m, hm, hmk.trans hback⟩

/-! ### The rejection loop -/

theorem drawAt_succ (k : Nat) (q : Quad) : drawAt (k + 1) q = drawAt k (drawState q) := rfl

/-- The loop ends with draw `k` exactly when that is the first draw whose position is unused. -/
theorem findFree_eq_some_iff {P : Word32} {C : BitVec 8} {u : List Position} {n : Nat} {q q' : Quad} {r : Word64} :
    findFree P C u n q = some (r, q') ↔
      ∃ k < n, (∀ j < k, reducePos P C (drawAt j q) ∈ u) ∧ reducePos P C (drawAt k q) ∉ u ∧
        r = drawAt k q ∧ q' = prngAfter (k + 1) q := by
  induction n generalizing q with
  | zero => simp [findFree]
  | succ n ih =>
    rw [findFree]
    split
    · rename_i hmem
      rw [ih]
      constructor
      · rintro ⟨k, hk, hrej, hland, rfl, rfl⟩
        refine ⟨k + 1, by omega, fun j hj => ?_, hland, rfl, rfl⟩
        cases j with
        | zero => exact hmem
        | succ j => exact hrej j (by omega)
      · rintro ⟨k, hk, hrej, hland, rfl, rfl⟩
        cases k with
        | zero => exact absurd hmem hland
        | succ k => exact ⟨k, by omega, fun j hj => hrej (j + 1) (by omega), hland, rfl, rfl⟩
    · rename_i hmem
      constructor
      · intro h
        simp only [Option.some.injEq, Prod.mk.injEq] at h
        exact ⟨0, by omega, by simp, hmem, h.1.symm, h.2.symm⟩
      · rintro ⟨k, hk, hrej, hland, rfl, rfl⟩
        cases k with
        | zero => rfl
        | succ k => exact absurd (hrej 0 (by omega)) hmem

/-- The loop runs out of its draws exactly when all of them are rejected. -/
theorem findFree_eq_none_iff {P : Word32} {C : BitVec 8} {u : List Position} {n : Nat} {q : Quad} :
    findFree P C u n q = none ↔ ∀ k < n, reducePos P C (drawAt k q) ∈ u := by
  induction n generalizing q with
  | zero => simp [findFree]
  | succ n ih =>
    rw [findFree]
    split
    · rename_i hmem
      rw [ih]
      constructor
      · intro h k hk
        cases k with
        | zero => exact hmem
        | succ k => exact h k (by omega)
      · exact fun h k hk => h (k + 1) (by omega)
    · rename_i hmem
      constructor
      · intro h; cases h
      · exact fun h => absurd (h 0 (by omega)) hmem

/-- `2^256` rejected draws mean that every later draw is rejected too (assumption 3). -/
theorem rejects_forever {P : Word32} {C : BitVec 8} {u : List Position} {q : Quad}
    (h : ∀ k < Config.prngStates, reducePos P C (drawAt k q) ∈ u) (k : Nat) : reducePos P C (drawAt k q) ∈ u := by
  obtain ⟨j, hj, heq⟩ := prngAfter_reached_early q k
  have := h j hj
  rwa [drawAt, heq] at this

/-- The first draw that lands comes within `2^256` draws. -/
theorem landing_early {P : Word32} {C : BitVec 8} {u : List Position} {q : Quad} {k : Nat}
    (hrej : ∀ j < k, reducePos P C (drawAt j q) ∈ u) (hland : reducePos P C (drawAt k q) ∉ u) :
    k < Config.prngStates := by
  by_contra hk
  exact hland (rejects_forever (fun j hj => hrej j (by omega)) k)

/-! ### NextPos -/

theorem State.exhausted_iff (s : State) : s.exhausted = true ↔ s.capacity ≤ s.issued.toNat := by
  simp [State.exhausted]

theorem State.not_exhausted_iff (s : State) : s.exhausted = false ↔ s.issued.toNat < s.capacity := by
  simp [State.exhausted]

/-- `NextPos` raises exactly when every position is issued. -/
theorem State.nextPos_eq_exhausted_iff (s : State) : s.nextPos = .exhausted ↔ s.exhausted = true := by
  rw [State.nextPos]
  split
  · simp_all
  · split <;> simp_all

/-- `NextPos` issues the position of the first draw that lands. -/
theorem State.nextPos_eq_issued_iff (s : State) (p : Position) (t : State) :
    s.nextPos = .issued p t ↔ s.exhausted = false ∧ ∃ k, s.landsAt k ∧ p = s.candidate (drawAt k s.prng) ∧
      t = (s.drawn (drawAt k s.prng) (prngAfter (k + 1) s.prng)).issue p := by
  rw [State.nextPos]
  split
  · simp_all
  · rename_i hx
    have hx' : s.exhausted = false := by simpa using hx
    split
    · rename_i r q hf
      obtain ⟨k, hk, hrej, hland, rfl, rfl⟩ := findFree_eq_some_iff.1 hf
      constructor
      · intro h
        simp only [NextPos.issued.injEq] at h
        exact ⟨hx', k, ⟨hrej, hland⟩, h.1.symm, by rw [← h.2, ← h.1]⟩
      · rintro ⟨-, j, ⟨hrej', hland'⟩, rfl, rfl⟩
        have : j = k := by
          rcases lt_trichotomy j k with h | h | h
          · exact absurd (hrej j h) hland'
          · exact h
          · exact absurd (hrej' k h) hland
        rw [this]
    · rename_i hf
      constructor
      · intro h; cases h
      · rintro ⟨-, k, ⟨hrej, hland⟩, -⟩
        exact absurd (rejects_forever (findFree_eq_none_iff.1 hf) k) hland

/-- `NextPos` never ends exactly when a position is free and no draw ever lands (R211). -/
theorem State.nextPos_eq_endless_iff (s : State) :
    s.nextPos = .endless ↔ s.exhausted = false ∧ ∀ k, s.rejects k := by
  rw [State.nextPos]
  split
  · simp_all
  · rename_i hx
    have hx' : s.exhausted = false := by simpa using hx
    split
    · rename_i r q hf
      obtain ⟨k, hk, hrej, hland, rfl, rfl⟩ := findFree_eq_some_iff.1 hf
      constructor
      · intro h; cases h
      · exact fun h => absurd (h.2 k) hland
    · rename_i hf
      exact ⟨fun _ => ⟨hx', fun k => rejects_forever (findFree_eq_none_iff.1 hf) k⟩, fun _ => rfl⟩

/-- Capacity fits 40 bits (R34). -/
theorem State.capacity_lt (s : State) : s.capacity < 2 ^ 40 := by
  have h1 : s.pixelCount.toNat ≤ 2 ^ 32 - 1 := by have := s.pixelCount.isLt; omega
  have h2 : s.usableCh.toNat ≤ 2 ^ 8 - 1 := by have := s.usableCh.isLt; omega
  calc s.capacity ≤ (2 ^ 32 - 1) * (2 ^ 8 - 1) := Nat.mul_le_mul h1 h2
    _ < 2 ^ 40 := by norm_num

/-- Where a position is free there is a pixel and a channel (R127). -/
theorem State.geometry_pos {s : State} (h : s.exhausted = false) : 0 < s.pixelCount.toNat ∧ 0 < s.usableCh.toNat := by
  have hc := (State.not_exhausted_iff s).1 h
  have : 0 < s.pixelCount.toNat * s.usableCh.toNat := by rw [← State.capacity]; omega
  exact ⟨Nat.pos_of_mul_pos_left this |> fun h => by
    rcases Nat.eq_zero_or_pos s.pixelCount.toNat with h0 | h0
    · simp [h0] at this
    · exact h0, by
    rcases Nat.eq_zero_or_pos s.usableCh.toNat with h0 | h0
    · simp [h0] at this
    · exact h0⟩

/-- The two parts of a reduced draw (R126). -/
theorem reducePos_toNat {P : Word32} {C : BitVec 8} (r : Word64) (hP : 0 < P.toNat) (hC : 0 < C.toNat) :
    (reducePos P C r).pix.toNat = r.toNat % P.toNat ∧
    (reducePos P C r).ch.toNat = r.toNat / P.toNat % C.toNat := by
  have h1 := Nat.mod_lt r.toNat hP
  have h2 := Nat.mod_lt (r.toNat / P.toNat) hC
  have h3 := P.isLt
  have h4 := C.isLt
  simp only [reducePos, BitVec.toNat_ofNat]
  exact ⟨Nat.mod_eq_of_lt (by omega), Nat.mod_eq_of_lt (by omega)⟩

/-- A candidate position lies in the image. -/
theorem State.candidate_inGeometry {s : State} (h : s.exhausted = false) (r : Word64) : s.inGeometry (s.candidate r) := by
  obtain ⟨hP, hC⟩ := State.geometry_pos h
  obtain ⟨h1, h2⟩ := reducePos_toNat (P := s.pixelCount) (C := s.usableCh) r hP hC
  exact ⟨by rw [State.candidate, h1]; exact Nat.mod_lt _ hP, by rw [State.candidate, h2]; exact Nat.mod_lt _ hC⟩

/-- Everything an issuing `NextPos` does, for provers that need no draw number: the stream registers are written, the
position is new and lies in the image. -/
theorem State.nextPos_issued {s t : State} {p : Position} (h : s.nextPos = .issued p t) :
    (∃ r q, t = (s.drawn r q).issue p) ∧ p ∉ s.used ∧ s.inGeometry p ∧ s.exhausted = false := by
  obtain ⟨hx, k, hl, rfl, rfl⟩ := (State.nextPos_eq_issued_iff s p t).1 h
  exact ⟨⟨_, _, rfl⟩, hl.2, State.candidate_inGeometry hx _, hx⟩

/-- An issuing `NextPos` keeps the set of issued positions in order (R34). -/
theorem State.nextPos_usedOk {s t : State} {p : Position} (hs : s.UsedOk) (h : s.nextPos = .issued p t) : t.UsedOk := by
  obtain ⟨⟨r, q, rfl⟩, hnew, hgeo, hx⟩ := State.nextPos_issued h
  have hroom := (State.not_exhausted_iff s).1 hx
  have hcap := s.capacity_lt
  have hcount := hs.counted
  refine ⟨usedInsert_wf hs.sorted p, fun x hx => ?_, ?_, ?_⟩
  · rcases mem_usedInsert.1 hx with rfl | hx
    · exact hgeo
    · exact hs.inside x hx
  · show (usedInsert p s.used).length ≤ s.capacity
    rw [length_usedInsert hnew]
    omega
  · show (s.issued + 1#40).toNat = (usedInsert p s.used).length
    rw [length_usedInsert hnew, BitVec.toNat_add]
    simp only [BitVec.toNat_ofNat]
    omega

/-! ### The stream registers -/

/-- Only the stream registers differ. -/
theorem State.nextPos_withStream {s t : State} {p : Position} (h : s.nextPos = .issued p t) : t = s.withStream t := by
  obtain ⟨⟨r, q, rfl⟩, -⟩ := State.nextPos_issued h
  rfl

theorem State.withStream_trans {s t u : State} (h1 : t = s.withStream t) (h2 : u = t.withStream u) :
    u = s.withStream u := by
  calc u = t.withStream u := h2
    _ = (s.withStream t).withStream u := by rw [← h1]
    _ = s.withStream u := rfl

/-- `NextPos` sees the generator, the set, its count and the geometry, and nothing else (R129): states that agree on
these issue the same position and agree again. -/
structure State.SameStream (s t : State) : Prop where
  prng       : s.prng = t.prng
  used       : s.used = t.used
  issued     : s.issued = t.issued
  pixelCount : s.pixelCount = t.pixelCount
  usableCh   : s.usableCh = t.usableCh

theorem State.SameStream.symm {s t : State} (h : s.SameStream t) : t.SameStream s :=
  ⟨h.prng.symm, h.used.symm, h.issued.symm, h.pixelCount.symm, h.usableCh.symm⟩

/-- The same position, and streams that agree again. -/
theorem State.SameStream.nextPos {s t u : State} {p : Position} (h : s.SameStream t) (hs : s.nextPos = .issued p u) :
    ∃ v, t.nextPos = .issued p v ∧ u.SameStream v ∧ v.draw = u.draw ∧ v.pos = u.pos := by
  obtain ⟨hx, k, hl, rfl, rfl⟩ := (State.nextPos_eq_issued_iff s p u).1 hs
  have hcand : ∀ r, t.candidate r = s.candidate r := fun r => by
    simp only [State.candidate, h.pixelCount, h.usableCh]
  have hrej : ∀ j, t.rejects j ↔ s.rejects j := fun j => by
    simp only [State.rejects, hcand, ← h.prng, ← h.used]
  refine ⟨_, (State.nextPos_eq_issued_iff t _ _).2 ⟨?_, k, ⟨fun j hj => (hrej j).2 (hl.1 j hj), fun hk => hl.2 ((hrej k).1 hk)⟩,
    ?_, rfl⟩, ?_, ?_, ?_⟩
  · rw [State.not_exhausted_iff] at hx ⊢
    simpa only [State.capacity, ← h.pixelCount, ← h.usableCh, ← h.issued] using hx
  · rw [hcand, ← h.prng]
  · exact ⟨by simp [h.prng], by simp [h.used], by simp [h.issued], h.pixelCount, h.usableCh⟩
  · simp [h.prng]
  · simp

end Sys2Proof.Machine
end

