-- ==== Sys2Proof/Laws/Loops.lean ====
section
/-!
SUPPORT. The laws of the loops of `EMBED` and `EXTRACT` (spec/44_embedding_engine.md R160 to R168): what each writes
and what it leaves, how it runs when its positions can be issued, and how it ends.
-/

namespace Sys2Proof.Machine

/-! ### A walk over positions -/

theorem State.positions_succ_eq_some_iff {n : Nat} {s u : State} {ps : List Position} :
    State.positions (n + 1) s = some (ps, u) ↔
      ∃ p qs t, s.nextPos = .issued p t ∧ State.positions n t = some (qs, u) ∧ ps = p :: qs := by
  rw [State.positions]
  split
  · rename_i p t hn
    split
    · rename_i qs v hq
      constructor
      · intro h
        simp only [Option.some.injEq, Prod.mk.injEq] at h
        exact ⟨p, qs, t, hn, by rw [hq, h.2], h.1.symm⟩
      · rintro ⟨p', qs', t', hn', hq', rfl⟩
        rw [hn] at hn'
        cases hn'
        rw [hq] at hq'
        cases hq'
        rfl
    · rename_i hq
      constructor
      · intro h; cases h
      · rintro ⟨p', qs', t', hn', hq', rfl⟩
        rw [hn] at hn'
        cases hn'
        rw [hq] at hq'
        cases hq'
  · rename_i hn
    constructor
    · intro h; cases h
    · rintro ⟨p', qs', t', hn', -⟩
      rw [hn] at hn'
      cases hn'
  · rename_i hn
    constructor
    · intro h; cases h
    · rintro ⟨p', qs', t', hn', -⟩
      rw [hn] at hn'
      cases hn'

theorem State.positions_length {n : Nat} {s t : State} {ps : List Position} (h : State.positions n s = some (ps, t)) :
    ps.length = n := by
  induction n generalizing s ps with
  | zero =>
    simp only [State.positions, Option.some.injEq, Prod.mk.injEq] at h
    rw [← h.1]
    rfl
  | succ n ih =>
    obtain ⟨p, qs, u, -, hq, rfl⟩ := State.positions_succ_eq_some_iff.1 h
    rw [List.length_cons, ih hq]

/-- A walk writes the stream registers only. -/
theorem State.positions_withStream {n : Nat} {s t : State} {ps : List Position}
    (h : State.positions n s = some (ps, t)) : t = s.withStream t := by
  induction n generalizing s ps with
  | zero =>
    simp only [State.positions, Option.some.injEq, Prod.mk.injEq] at h
    rw [← h.2]
    rfl
  | succ n ih =>
    obtain ⟨p, qs, u, hn, hq, rfl⟩ := State.positions_succ_eq_some_iff.1 h
    exact State.withStream_trans (State.nextPos_withStream hn) (ih hq)

/-- Two walks one after the other are one walk. -/
theorem State.positions_append {m n : Nat} {s t u : State} {ps qs : List Position}
    (h1 : State.positions m s = some (ps, t)) (h2 : State.positions n t = some (qs, u)) :
    State.positions (m + n) s = some (ps ++ qs, u) := by
  induction m generalizing s ps with
  | zero =>
    simp only [State.positions, Option.some.injEq, Prod.mk.injEq] at h1
    rw [← h1.1, Nat.zero_add, h1.2]
    exact h2
  | succ m ih =>
    obtain ⟨p, rs, v, hn, hr, rfl⟩ := State.positions_succ_eq_some_iff.1 h1
    rw [Nat.succ_add]
    exact State.positions_succ_eq_some_iff.2 ⟨p, rs ++ qs, v, hn, ih hr, rfl⟩

/-- A walk splits anywhere. -/
theorem State.positions_split {m n : Nat} {s u : State} {ps : List Position}
    (h : State.positions (m + n) s = some (ps, u)) :
    ∃ t, State.positions m s = some (ps.take m, t) ∧ State.positions n t = some (ps.drop m, u) := by
  induction m generalizing s ps with
  | zero => exact ⟨s, by simp [State.positions], by simpa using h⟩
  | succ m ih =>
    rw [Nat.succ_add] at h
    obtain ⟨p, qs, t, hn, hq, rfl⟩ := State.positions_succ_eq_some_iff.1 h
    obtain ⟨v, h1, h2⟩ := ih hq
    exact ⟨v, State.positions_succ_eq_some_iff.2 ⟨p, _, t, hn, h1, by simp⟩, by simpa using h2⟩

/-- Streams that agree walk over the same positions and agree at the end, `DRAW` and `POS` too where they did. -/
theorem State.SameStream.positions {n : Nat} {s t u : State} {ps : List Position} (h : s.SameStream t)
    (hs : State.positions n s = some (ps, u)) :
    ∃ v, State.positions n t = some (ps, v) ∧ u.SameStream v ∧
      (s.draw = t.draw → s.pos = t.pos → u.draw = v.draw ∧ u.pos = v.pos) := by
  induction n generalizing s t ps with
  | zero =>
    simp only [State.positions, Option.some.injEq, Prod.mk.injEq] at hs
    exact ⟨t, by simp [State.positions, ← hs.1], hs.2 ▸ h, fun h1 h2 => hs.2 ▸ ⟨h1, h2⟩⟩
  | succ n ih =>
    obtain ⟨p, qs, w, hn, hq, rfl⟩ := State.positions_succ_eq_some_iff.1 hs
    obtain ⟨x, hx, hwx, hd, hp⟩ := h.nextPos hn
    obtain ⟨v, hv, huv, hdp⟩ := ih hwx hq
    exact ⟨v, State.positions_succ_eq_some_iff.2 ⟨p, qs, x, hx, hv, rfl⟩, huv, fun _ _ => hdp hd.symm hp.symm⟩

/-! ### The loop of EMBED -/

/-- After one position at least, `DRAW` and `POS` agree too, whatever they held before. -/
theorem State.SameStream.positions_succ {n : Nat} {s t u : State} {ps : List Position} (h : s.SameStream t)
    (hs : State.positions (n + 1) s = some (ps, u)) :
    ∃ v, State.positions (n + 1) t = some (ps, v) ∧ u.SameStream v ∧ u.draw = v.draw ∧ u.pos = v.pos := by
  obtain ⟨p, qs, w, hn, hq, rfl⟩ := State.positions_succ_eq_some_iff.1 hs
  obtain ⟨x, hx, hwx, hdraw, hpos⟩ := h.nextPos hn
  obtain ⟨v, hv, huv, hd⟩ := hwx.positions hq
  exact ⟨v, State.positions_succ_eq_some_iff.2 ⟨p, qs, x, hx, hv, rfl⟩, huv, hd hdraw.symm hpos.symm⟩

/-- The phase does not enter a walk (R129), and a walk leaves it. -/
theorem State.positions_toPhase {n : Nat} {s t : State} {ps : List Position} (ph : Phase)
    (h : State.positions n s = some (ps, t)) : State.positions n (s.toPhase ph) = some (ps, t.toPhase ph) := by
  have hsame : s.SameStream (s.toPhase ph) := ⟨rfl, rfl, rfl, rfl, rfl⟩
  obtain ⟨v, hv, hsv, hd⟩ := hsame.positions h
  obtain ⟨hdraw, hpos⟩ := hd rfl rfl
  have hvf := State.positions_withStream hv
  have htf := State.positions_withStream h
  rw [hv, hvf, htf]
  simp only [State.withStream, State.toPhase]
  rw [← hsv.prng, ← hsv.used, ← hsv.issued, ← hdraw, ← hpos]

theorem State.withStreamAndImage_trans {s t u : State} (h1 : t = s.withStreamAndImage t)
    (h2 : u = t.withStreamAndImage u) : u = s.withStreamAndImage u := by
  calc u = t.withStreamAndImage u := h2
    _ = (s.withStreamAndImage t).withStreamAndImage u := by rw [← h1]
    _ = s.withStreamAndImage u := rfl

/-- The state after one round of `EMBED` differs in the stream registers and IMGMEM only. -/
theorem State.embedRound_frame {s t : State} {p : Position} (h : s.nextPos = .issued p t) (b : Bool) :
    t.embedBit p b = s.withStreamAndImage (t.embedBit p b) := by
  obtain ⟨⟨r, q, rfl⟩, -⟩ := State.nextPos_issued h
  rfl

/-- However the loop of `EMBED` ends, only the stream registers and IMGMEM differ. -/
theorem embedLoop_frame (n i : Nat) (s : State) :
    (embedLoop n i s).state = s.withStreamAndImage (embedLoop n i s).state := by
  induction n generalizing i s with
  | zero => rfl
  | succ n ih =>
    rw [embedLoop]
    split
    · rename_i p t hn
      exact State.withStreamAndImage_trans (State.embedRound_frame hn _) (ih _ _)
    · rfl
    · rfl

/-- Bits written one after another at positions, from BitStream bit `i` on (R160). -/
def State.embedImage (s : State) : Nat → List Position → Memory → Memory
  | _, [], m => m
  | i, p :: ps, m =>
    s.embedImage (i + 1) ps (m.write (s.lsbAddr p) (withLsb (m.read (s.lsbAddr p)) (s.bitAt i)))

/-- A write keeps everything the loop of `EMBED` reads besides the image. -/
theorem State.embedImage_congr {s t : State} (h : t = s.withStreamAndImage t) (i : Nat) (ps : List Position)
    (m : Memory) : t.embedImage i ps m = s.embedImage i ps m := by
  induction ps generalizing i m with
  | nil => rfl
  | cons p ps ih =>
    have ha : t.lsbAddr p = s.lsbAddr p := by rw [h]; rfl
    have hb : t.bitAt i = s.bitAt i := by rw [h]; rfl
    rw [State.embedImage, State.embedImage, ha, hb, ih]

/-- The phase does not enter the image a walk writes. -/
@[simp] theorem State.embedImage_toPhase (s : State) (ph : Phase) (i : Nat) (ps : List Position) (m : Memory) :
    (s.toPhase ph).embedImage i ps m = s.embedImage i ps m := by
  induction ps generalizing i m with
  | nil => rfl
  | cons p ps ih =>
    rw [State.embedImage, State.embedImage, ih]
    rfl

/-- Neither do the host's moves. -/
@[simp] theorem State.embedImage_popMove (s : State) (rest : List HostMove) (i : Nat) (ps : List Position)
    (m : Memory) : (s.popMove rest).embedImage i ps m = s.embedImage i ps m := by
  induction ps generalizing i m with
  | nil => rfl
  | cons p ps ih =>
    rw [State.embedImage, State.embedImage, ih]
    rfl

/-- Where the first `n` positions can be issued, the loop of `EMBED` writes their bits and goes on from there. -/
theorem embedLoop_append {n : Nat} (k i : Nat) {s t : State} {ps : List Position}
    (h : State.positions n s = some (ps, t)) :
    embedLoop (n + k) i s = embedLoop k (i + n) { t with imgmem := s.embedImage i ps s.imgmem } := by
  induction n generalizing i s t ps with
  | zero =>
    simp only [State.positions, Option.some.injEq, Prod.mk.injEq] at h
    obtain ⟨rfl, rfl⟩ := h
    rw [Nat.zero_add]
    rfl
  | succ n ih =>
    obtain ⟨p, qs, u, hn, hq, rfl⟩ := State.positions_succ_eq_some_iff.1 h
    rw [Nat.succ_add, embedLoop, hn]
    have hsame : u.SameStream (u.embedBit p (s.bitAt i)) := ⟨rfl, rfl, rfl, rfl, rfl⟩
    obtain ⟨v, hv, htv, hd⟩ := hsame.positions hq
    obtain ⟨hdraw, hpos⟩ := hd rfl rfl
    have hround := State.embedRound_frame hn (s.bitAt i)
    have hu := State.nextPos_withStream hn
    have ht := State.positions_withStream hq
    have hvf := State.positions_withStream hv
    dsimp only
    rw [ih (i + 1) hv, State.embedImage_congr hround]
    have e1 : (u.embedBit p (s.bitAt i)).imgmem =
        s.imgmem.write (s.lsbAddr p) (withLsb (s.imgmem.read (s.lsbAddr p)) (s.bitAt i)) := by
      rw [hu]; rfl
    rw [e1, State.embedImage, Nat.add_right_comm i 1 n, Nat.add_assoc i n 1]
    congr 1
    rw [hvf, ht]
    simp only [State.withStream, State.embedBit, State.writeByte]
    rw [← htv.prng, ← htv.used, ← htv.issued, ← hdraw, ← hpos]

/-- Where the positions can be issued, the loop of `EMBED` finishes with the bits written there. -/
theorem embedLoop_of_positions {n : Nat} (i : Nat) {s t : State} {ps : List Position}
    (h : State.positions n s = some (ps, t)) :
    embedLoop n i s = .finished { t with imgmem := s.embedImage i ps s.imgmem } :=
  embedLoop_append 0 i h

/-- The image when the loop of `EMBED` gets no further than `n` positions: because it is to make no more rounds, or
because the next position is not issued. -/
theorem embedLoop_image_of_positions {n m : Nat} (i : Nat) {s t : State} {ps : List Position} (hnm : n ≤ m)
    (h : State.positions n s = some (ps, t)) (hstop : n = m ∨ State.positions (n + 1) s = none) :
    (embedLoop m i s).state.imgmem = s.embedImage i ps s.imgmem := by
  obtain ⟨k, rfl⟩ := Nat.exists_eq_add_of_le hnm
  rw [embedLoop_append k i h]
  cases k with
  | zero => rfl
  | succ k =>
    have hnone : State.positions (n + 1) s = none := hstop.resolve_left (by omega)
    rw [embedLoop]
    split
    · rename_i p u hn
      have hsame : State.SameStream { t with imgmem := s.embedImage i ps s.imgmem } t := ⟨rfl, rfl, rfl, rfl, rfl⟩
      obtain ⟨v, hv, -⟩ := hsame.nextPos hn
      have h1 : State.positions 1 t = some ([p], v) := State.positions_succ_eq_some_iff.2 ⟨p, [], v, hv, rfl, rfl⟩
      rw [State.positions_append h h1] at hnone
      cases hnone
    · rfl
    · rfl

/-- Where the loop of `EMBED` finishes, its positions could be issued. -/
theorem positions_of_embedLoop {n i : Nat} {s t : State} (h : embedLoop n i s = .finished t) :
    ∃ ps u, State.positions n s = some (ps, u) := by
  induction n generalizing i s with
  | zero => exact ⟨[], s, rfl⟩
  | succ n ih =>
    rw [embedLoop] at h
    split at h
    · rename_i p v hn
      obtain ⟨ps, u, hp⟩ := ih h
      have hsame : (v.embedBit p (s.bitAt i)).SameStream v := ⟨rfl, rfl, rfl, rfl, rfl⟩
      obtain ⟨w, hw, -⟩ := hsame.positions hp
      exact ⟨p :: ps, w, State.positions_succ_eq_some_iff.2 ⟨p, ps, v, hn, hw, rfl⟩⟩
    · cases h
    · cases h

/-- Addresses where no bit is written keep their byte. -/
theorem State.read_embedImage_other (s : State) (i : Nat) (ps : List Position) (m : Memory) {a : Nat}
    (h : ∀ p ∈ ps, a ≠ s.lsbAddr p) : (s.embedImage i ps m).read a = m.read a := by
  induction ps generalizing i m with
  | nil => rfl
  | cons p ps ih =>
    rw [State.embedImage, ih _ _ fun q hq => h q (by simp [hq])]
    exact Memory.read_write_other _ _ (h p (by simp))

theorem State.embedImage_wf (s : State) (i : Nat) (ps : List Position) {m : Memory} (hm : m.wf) :
    (s.embedImage i ps m).wf := by
  induction ps generalizing i m with
  | nil => exact hm
  | cons p ps ih => exact ih _ (Memory.write_wf hm _ _)

/-- The byte at the `k`-th address has the bit of the BitStream in place of its LSB, when no address occurs twice. -/
theorem State.read_embedImage_at (s : State) (i : Nat) {ps : List Position} {m : Memory} (hm : m.wf)
    (hnd : (s.addresses ps).Nodup) {k : Nat} {p : Position} (hp : ps[k]? = some p) :
    (s.embedImage i ps m).read (s.lsbAddr p) = withLsb (m.read (s.lsbAddr p)) (s.bitAt (i + k)) := by
  induction ps generalizing i m k with
  | nil => simp at hp
  | cons q ps ih =>
    rw [State.addresses, List.map_cons, List.nodup_cons] at hnd
    rw [State.embedImage]
    cases k with
    | zero =>
      simp only [List.getElem?_cons_zero, Option.some.injEq] at hp
      subst hp
      rw [State.read_embedImage_other, Memory.read_write_same hm, Nat.add_zero]
      exact fun x hx heq => hnd.1 (heq ▸ List.mem_map_of_mem hx)
    | succ k =>
      simp only [List.getElem?_cons_succ] at hp
      rw [ih (i + 1) (Memory.write_wf hm _ _) hnd.2 hp, Memory.read_write_other]
      · rw [Nat.add_right_comm, Nat.add_assoc]
      · exact fun heq => hnd.1 (heq ▸ List.mem_map_of_mem (List.mem_of_getElem? hp))

/-! ### The loops of EXTRACT -/

/-- The state reading bits ends in, or is stuck in. -/
def BitWalk.state : BitWalk → State
  | .finished _ t => t
  | .exhausted t => t
  | .endless t => t

/-- However reading bits ends, only the stream registers differ. -/
theorem readBits_frame (n : Nat) (s : State) : (readBits n s).state = s.withStream (readBits n s).state := by
  induction n generalizing s with
  | zero => rfl
  | succ n ih =>
    rw [readBits]
    split
    · rename_i p t hn
      have h1 := State.nextPos_withStream hn
      have h2 := ih t
      split <;> rename_i hr <;> rw [hr] at h2 <;> exact State.withStream_trans h1 h2
    · rfl
    · rfl

theorem State.lsbAt_congr {s t : State} (h : t = s.withStream t) (p : Position) : t.lsbAt p = s.lsbAt p := by
  rw [h]; rfl

/-- Where the positions can be issued, reading bits finishes with the LSBs there. -/
theorem readBits_of_positions {n : Nat} {s t : State} {ps : List Position} (h : State.positions n s = some (ps, t)) :
    readBits n s = .finished (s.lsbs ps) t := by
  induction n generalizing s ps with
  | zero =>
    simp only [State.positions, Option.some.injEq, Prod.mk.injEq] at h
    obtain ⟨rfl, rfl⟩ := h
    rfl
  | succ n ih =>
    obtain ⟨p, qs, u, hn, hq, rfl⟩ := State.positions_succ_eq_some_iff.1 h
    have hu := State.nextPos_withStream hn
    rw [readBits, hn]
    dsimp only
    rw [ih hq]
    dsimp only
    have hmap : u.lsbs qs = s.lsbs qs := List.map_congr_left fun x _ => State.lsbAt_congr hu x
    rw [hmap, State.lsbAt_congr hu]
    rfl

/-- Where reading bits finishes, the positions could be issued. -/
theorem positions_of_readBits {n : Nat} {s t : State} {bits : List Bool} (h : readBits n s = .finished bits t) :
    ∃ ps, State.positions n s = some (ps, t) ∧ bits = s.lsbs ps := by
  induction n generalizing s bits with
  | zero =>
    simp only [readBits, BitWalk.finished.injEq] at h
    exact ⟨[], by simp [State.positions, h.2], h.1.symm⟩
  | succ n ih =>
    rw [readBits] at h
    split at h
    · rename_i p u hn
      split at h
      · rename_i bs v hr
        simp only [BitWalk.finished.injEq] at h
        rw [h.2] at hr
        obtain ⟨qs, hq, rfl⟩ := ih hr
        have hu := State.nextPos_withStream hn
        refine ⟨p :: qs, State.positions_succ_eq_some_iff.2 ⟨p, qs, u, hn, hq, rfl⟩, ?_⟩
        have hmap : u.lsbs qs = s.lsbs qs := List.map_congr_left fun x _ => State.lsbAt_congr hu x
        rw [← h.1, hmap, State.lsbAt_congr hu]
        rfl
      · cases h
      · cases h
    · cases h
    · cases h

theorem State.withStreamAndMessage_trans {s t u : State} (h1 : t = s.withStreamAndMessage t)
    (h2 : u = t.withStreamAndMessage u) : u = s.withStreamAndMessage u := by
  calc u = t.withStreamAndMessage u := h2
    _ = (s.withStreamAndMessage t).withStreamAndMessage u := by rw [← h1]
    _ = s.withStreamAndMessage u := rfl

theorem State.withStreamAndMessage_of_withStream {s t : State} (h : t = s.withStream t) :
    t = s.withStreamAndMessage t := by
  have hm : t.msgmem = s.msgmem := by rw [h]; rfl
  calc t = s.withStream t := h
    _ = { s.withStream t with msgmem := s.msgmem } := rfl
    _ = s.withStreamAndMessage t := by rw [← hm]; rfl

/-- However the byte loop of `EXTRACT` ends, only the stream registers and MSGMEM differ. -/
theorem extractBytes_frame (n j : Nat) (s : State) :
    (extractBytes n j s).state = s.withStreamAndMessage (extractBytes n j s).state := by
  induction n generalizing j s with
  | zero => rfl
  | succ n ih =>
    have hf := readBits_frame 8 s
    rw [extractBytes]
    split
    · rename_i bits t hr
      rw [hr] at hf
      refine State.withStreamAndMessage_trans ?_ (ih _ _)
      have hf' : t = s.withStream t := hf
      calc t.writeByte .msgmem j (byteFromBits bits)
          = (s.withStream t).writeByte .msgmem j (byteFromBits bits) := by rw [← hf']
        _ = s.withStreamAndMessage ((s.withStream t).writeByte .msgmem j (byteFromBits bits)) := rfl
        _ = s.withStreamAndMessage (t.writeByte .msgmem j (byteFromBits bits)) := by rw [← hf']
    · rename_i t hr
      rw [hr] at hf
      exact State.withStreamAndMessage_of_withStream hf
    · rename_i t hr
      rw [hr] at hf
      exact State.withStreamAndMessage_of_withStream hf

/-- MSGMEM after `n` bytes from address `j` on, eight bits each (R167). -/
def writtenBytes : Nat → Nat → List Bool → Memory → Memory
  | 0, _, _, m => m
  | n + 1, j, bits, m => writtenBytes n (j + 1) (bits.drop 8) (m.write j (byteFromBits (bits.take 8)))

/-- Where the positions of the first `n` bytes can be issued, the byte loop writes them and goes on from there. -/
theorem extractBytes_append {n : Nat} (k j : Nat) {s t : State} {ps : List Position}
    (h : State.positions (8 * n) s = some (ps, t)) :
    extractBytes (n + k) j s =
      extractBytes k (j + n) { t with msgmem := writtenBytes n j (s.lsbs ps) s.msgmem } := by
  induction n generalizing j s t ps with
  | zero =>
    simp only [State.positions, Option.some.injEq, Prod.mk.injEq] at h
    obtain ⟨rfl, rfl⟩ := h
    rw [Nat.zero_add]
    rfl
  | succ n ih =>
    rw [Nat.mul_succ, Nat.add_comm] at h
    obtain ⟨u, h1, h2⟩ := State.positions_split h
    have hu := State.positions_withStream h1
    have ht := State.positions_withStream h2
    rw [Nat.succ_add, extractBytes, readBits_of_positions h1]
    dsimp only
    have hsame : u.SameStream (u.writeByte .msgmem j (byteFromBits (s.lsbs (ps.take 8)))) := ⟨rfl, rfl, rfl, rfl, rfl⟩
    obtain ⟨v, hv, htv, hd⟩ := hsame.positions h2
    obtain ⟨hdraw, hpos⟩ := hd rfl rfl
    have hvf := State.positions_withStream hv
    rw [ih (j + 1) hv, Nat.add_right_comm j 1 n, Nat.add_assoc j n 1]
    congr 1
    have e1 : u.msgmem = s.msgmem := by rw [hu]; rfl
    have e2 : (u.writeByte .msgmem j (byteFromBits (s.lsbs (ps.take 8)))).lsbs (ps.drop 8) = (s.lsbs ps).drop 8 := by
      simp only [State.lsbs, ← List.map_drop]
      exact List.map_congr_left fun x _ => State.lsbAt_congr hu x
    have e3 : s.lsbs (ps.take 8) = (s.lsbs ps).take 8 := by simp only [State.lsbs, List.map_take]
    rw [e2, e3, writtenBytes, State.writeByte_msgmem_msgmem, e1, hvf, ht]
    simp only [State.withStream, State.writeByte]
    rw [← htv.prng, ← htv.used, ← htv.issued, ← hdraw, ← hpos]

/-- Where the positions can be issued, the byte loop finishes with the bytes of the LSBs there. -/
theorem extractBytes_of_positions {n : Nat} (j : Nat) {s t : State} {ps : List Position}
    (h : State.positions (8 * n) s = some (ps, t)) :
    extractBytes n j s = .finished { t with msgmem := writtenBytes n j (s.lsbs ps) s.msgmem } :=
  extractBytes_append 0 j h

/-- MSGMEM when the byte loop gets no further than `n` bytes: because it is to write no more, or because the positions
of the next byte are not all issued. -/
theorem extractBytes_msgmem_of_positions {n m : Nat} (j : Nat) {s t : State} {ps : List Position} (hnm : n ≤ m)
    (h : State.positions (8 * n) s = some (ps, t)) (hstop : n = m ∨ State.positions (8 * (n + 1)) s = none) :
    (extractBytes m j s).state.msgmem = writtenBytes n j (s.lsbs ps) s.msgmem := by
  obtain ⟨k, rfl⟩ := Nat.exists_eq_add_of_le hnm
  rw [extractBytes_append k j h]
  cases k with
  | zero => rfl
  | succ k =>
    have hnone : State.positions (8 * (n + 1)) s = none := hstop.resolve_left (by omega)
    have hf := readBits_frame 8 { t with msgmem := writtenBytes n j (s.lsbs ps) s.msgmem }
    rw [extractBytes]
    split <;> rename_i hr
    · obtain ⟨qs, hq, -⟩ := positions_of_readBits hr
      have hsame : State.SameStream { t with msgmem := writtenBytes n j (s.lsbs ps) s.msgmem } t :=
        ⟨rfl, rfl, rfl, rfl, rfl⟩
      obtain ⟨v, hv, -⟩ := hsame.positions hq
      rw [Nat.mul_succ, State.positions_append h hv] at hnone
      cases hnone
    · rw [hr] at hf
      exact congrArg State.msgmem hf
    · rw [hr] at hf
      exact congrArg State.msgmem hf

/-- Addresses below the bytes written, or beyond them, keep their byte. -/
theorem read_writtenBytes_other (n j : Nat) (bits : List Bool) (m : Memory) {a : Nat} (h : a < j ∨ j + n ≤ a) :
    (writtenBytes n j bits m).read a = m.read a := by
  induction n generalizing j bits m with
  | zero => rfl
  | succ n ih =>
    rw [writtenBytes, ih _ _ _ (by omega)]
    exact Memory.read_write_other _ _ (by omega)

/-- Byte `k` of those written. -/
theorem read_writtenBytes_at (n j : Nat) (bits : List Bool) {m : Memory} (hm : m.wf) {k : Nat} (hk : k < n) :
    (writtenBytes n j bits m).read (j + k) = byteFromBits ((bits.drop (8 * k)).take 8) := by
  induction n generalizing j bits m k with
  | zero => omega
  | succ n ih =>
    rw [writtenBytes]
    cases k with
    | zero =>
      rw [read_writtenBytes_other _ _ _ _ (by omega), Nat.add_zero, Memory.read_write_same hm]
      rfl
    | succ k =>
      have := ih (j + 1) (bits.drop 8) (Memory.write_wf hm j (byteFromBits (bits.take 8))) (k := k) (by omega)
      rw [List.drop_drop, Nat.add_comm 8] at this
      rw [← Nat.add_assoc, Nat.add_right_comm, this]
      rfl

theorem writtenBytes_wf (n j : Nat) (bits : List Bool) {m : Memory} (hm : m.wf) : (writtenBytes n j bits m).wf := by
  induction n generalizing j bits m with
  | zero => exact hm
  | succ n ih => exact ih _ _ (Memory.write_wf hm _ _)

end Sys2Proof.Machine
end

