-- ==== Sys2Proof/Laws/Step.lean ====
section
/-!
SUPPORT. What each command and one step can do, said once: every next state of a command is one of the cases of its
rule, and every step is idle, blocked, or one move of the host.
-/

namespace Sys2Proof.Machine

/-! ### The commands -/

theorem accepts_kseed {p : Phase} : accepts .kseed p = true ↔ p = .idle := by cases p <;> decide
theorem accepts_psopen {p : Phase} : accepts .psopen p = true ↔ p = .seedDerived := by cases p <;> decide
theorem accepts_draw {p : Phase} : accepts .draw p = true ↔ p = .positionStreamReady := by cases p <;> decide
theorem accepts_nextpos {p : Phase} : accepts .nextpos p = true ↔ p = .positionStreamReady := by cases p <;> decide
theorem accepts_embed {p : Phase} : accepts .embed p = true ↔ p = .positionStreamReady := by cases p <;> decide
theorem accepts_extract {p : Phase} : accepts .extract p = true ↔ p = .positionStreamReady := by cases p <;> decide

theorem State.hasRoom_iff (s : State) (n : Nat) : s.hasRoom n = true ↔ n + s.issued.toNat ≤ s.capacity := by
  simp [State.hasRoom]

/-- A loop's outcome is a next state, and which one. -/
theorem Walk.outcome_next {w : Walk} {t : State} (h : w.outcome = .next t) :
    (∃ u, w = .finished u ∧ t = u.toPhase .done) ∨ (∃ u, w = .exhausted u ∧ t = u.raiseCapacityExceeded) ∨
      (∃ u, w = .endless u ∧ t = u.hang) := by
  cases w with
  | finished u => exact .inl ⟨u, rfl, by simpa [Walk.outcome] using h.symm⟩
  | exhausted u => exact .inr (.inl ⟨u, rfl, by simpa [Walk.outcome] using h.symm⟩)
  | endless u => exact .inr (.inr ⟨u, rfl, by simpa [Walk.outcome] using h.symm⟩)

/-- What `KSEED` can answer. -/
theorem execKseed_next {s t : State} (h : execKseed s = .next t) :
    (s.phase ≠ .idle ∧ t = s.refuseIllegal) ∨
    (s.phase = .idle ∧ s.launchBacked .kseed = true ∧
      t = (s.loadSeed (keySeed s.keyBytes)).toPhase .seedDerived) := by
  rw [execKseed] at h
  split at h
  · rename_i ha
    split at h
    · rename_i hb
      exact .inr ⟨accepts_kseed.1 ha, hb, by simpa using h.symm⟩
    · cases h
  · rename_i ha
    exact .inl ⟨fun hp => ha (accepts_kseed.2 hp), by simpa using h.symm⟩

/-- What `PSOPEN` can answer. -/
theorem execPsopen_next {s t : State} (h : execPsopen s = .next t) :
    (s.phase ≠ .seedDerived ∧ t = s.refuseIllegal) ∨
    (s.phase = .seedDerived ∧ t = s.openStream.toPhase .positionStreamReady) := by
  rw [execPsopen] at h
  split at h
  · rename_i ha
    exact .inr ⟨accepts_psopen.1 ha, by simpa using h.symm⟩
  · rename_i ha
    exact .inl ⟨fun hp => ha (accepts_psopen.2 hp), by simpa using h.symm⟩

/-- What `DRAW` can answer. -/
theorem execDraw_next {s t : State} (h : execDraw s = .next t) :
    (s.phase ≠ .positionStreamReady ∧ t = s.refuseIllegal) ∨ (s.phase = .positionStreamReady ∧ t = s.nextDraw) := by
  rw [execDraw] at h
  split at h
  · rename_i ha
    exact .inr ⟨accepts_draw.1 ha, by simpa using h.symm⟩
  · rename_i ha
    exact .inl ⟨fun hp => ha (accepts_draw.2 hp), by simpa using h.symm⟩

/-- What `NEXTPOS` can answer. -/
theorem execNextpos_next {s t : State} (h : execNextpos s = .next t) :
    (s.phase ≠ .positionStreamReady ∧ t = s.refuseIllegal) ∨
    (s.phase = .positionStreamReady ∧
      ((∃ p, s.nextPos = .issued p t) ∨ (s.nextPos = .exhausted ∧ t = s.raiseCapacityExceeded) ∨
        (s.nextPos = .endless ∧ t = s.hang))) := by
  rw [execNextpos] at h
  split at h
  · rename_i ha
    refine .inr ⟨accepts_nextpos.1 ha, ?_⟩
    split at h
    · rename_i p u hn
      exact .inl ⟨p, by rw [hn]; simpa using h⟩
    · rename_i hn
      exact .inr (.inl ⟨hn, by simpa using h.symm⟩)
    · rename_i hn
      exact .inr (.inr ⟨hn, by simpa using h.symm⟩)
  · rename_i ha
    exact .inl ⟨fun hp => ha (accepts_nextpos.2 hp), by simpa using h.symm⟩

/-- What `EMBED` can answer. -/
theorem execEmbed_next {s t : State} (h : execEmbed s = .next t) :
    (s.phase ≠ .positionStreamReady ∧ t = s.refuseIllegal) ∨
    (s.phase = .positionStreamReady ∧ s.hasRoom s.streamLen = false ∧
      t = (s.toPhase .embedding).raiseCapacityExceeded) ∨
    (s.phase = .positionStreamReady ∧ s.hasRoom s.streamLen = true ∧ s.launchBacked .embed = true ∧
      (embedLoop s.streamLen 0 (s.toPhase .embedding)).outcome = .next t) := by
  rw [execEmbed] at h
  split at h
  · rename_i ha
    have hp := accepts_embed.1 ha
    split at h
    · rename_i hr
      split at h
      · rename_i hb
        exact .inr (.inr ⟨hp, hr, hb, h⟩)
      · cases h
    · rename_i hr
      exact .inr (.inl ⟨hp, by simpa using hr, by simpa using h.symm⟩)
  · rename_i ha
    exact .inl ⟨fun hp => ha (accepts_embed.2 hp), by simpa using h.symm⟩

/-- What `EXTRACT` can answer. -/
theorem execExtract_next {s t : State} (h : execExtract s = .next t) :
    (s.phase ≠ .positionStreamReady ∧ t = s.refuseIllegal) ∨
    (s.phase = .positionStreamReady ∧ s.launchBacked .extract = true ∧
      (extractWalk Config.msgSpace (s.toPhase .extracting)).outcome = .next t) := by
  rw [execExtract] at h
  split at h
  · rename_i ha
    have hp := accepts_extract.1 ha
    split at h
    · rename_i hb
      exact .inr ⟨hp, hb, h⟩
    · cases h
  · rename_i ha
    exact .inl ⟨fun hp => ha (accepts_extract.2 hp), by simpa using h.symm⟩

/-- How the walk of `EXTRACT` goes: the prefix ends early, or the length is too large, or the byte loop runs. -/
theorem extractWalk_cases (limit : Nat) (s : State) :
    (∃ t, readBits 32 s = .exhausted t ∧ extractWalk limit s = .exhausted t) ∨
    (∃ t, readBits 32 s = .endless t ∧ extractWalk limit s = .endless t) ∨
    (∃ bits t, readBits 32 s = .finished bits t ∧
      (((t.setRlen (lenFromBits bits)).hasRoom (8 * (lenFromBits bits).toNat) = false ∧
          extractWalk limit s = .exhausted (t.setRlen (lenFromBits bits))) ∨
       ((t.setRlen (lenFromBits bits)).hasRoom (8 * (lenFromBits bits).toNat) = true ∧
          extractWalk limit s =
            extractBytes (min limit (lenFromBits bits).toNat) 0 (t.setRlen (lenFromBits bits))))) := by
  cases hr : readBits 32 s with
  | exhausted t => exact .inl ⟨t, rfl, by rw [extractWalk, Config.lenWidth, hr]⟩
  | endless t => exact .inr (.inl ⟨t, rfl, by rw [extractWalk, Config.lenWidth, hr]⟩)
  | finished bits t =>
    refine .inr (.inr ⟨bits, t, rfl, ?_⟩)
    rw [extractWalk, Config.lenWidth, hr]
    simp only [extractMessage]
    cases hroom : (t.setRlen (lenFromBits bits)).hasRoom (8 * (lenFromBits bits).toNat) with
    | false => exact .inl ⟨rfl, by simp⟩
    | true => exact .inr ⟨rfl, by simp⟩

/-! ### One step -/

/-- What one step can do: nothing when no move is pending, a blocked move while a command hangs, and else one move of
the host. -/
theorem step_next_cases {s t : State} (h : step s = .next t) :
    (s.host = [] ∧ t = s) ∨
    ∃ m rest, s.host = m :: rest ∧
      ((s.hung = true ∧ t = blockedMove m rest s) ∨ (s.hung = false ∧ hostMove m (s.popMove rest) = .next t)) := by
  rw [step] at h
  split at h
  · rename_i hh
    exact .inl ⟨hh, by simpa using h.symm⟩
  · rename_i m rest hh
    refine .inr ⟨m, rest, hh, ?_⟩
    split at h
    · rename_i hg
      exact .inl ⟨hg, by simpa using h.symm⟩
    · rename_i hg
      exact .inr ⟨by simpa using hg, h⟩

/-- One more step of a run. -/
theorem run_succ (M : Host.Core) (k : Nat) (s : M.State) :
    M.run (k + 1) s = match M.step s with
      | .next t => M.run k t
      | .fault f => .fault f
      | .refused r => .refused r := rfl

/-- A state that a step answers with itself stays for any number of steps. -/
theorem run_fixed {s : State} (h : step s = .next s) (k : Nat) : core.run k s = .next s := by
  induction k with
  | zero => rfl
  | succ k ih =>
    have hs : core.step s = .next s := h
    rw [run_succ core k s, hs]
    exact ih

/-- A step with a move pending and no command hanging makes that move. -/
theorem step_move {s : State} {m : HostMove} {rest : List HostMove} (hu : s.hung = false) (hh : s.host = m :: rest) :
    step s = hostMove m (s.popMove rest) := by simp [step, hh, hu]

/-- The write of `CMD` issues the word. -/
theorem hostMove_cmd (w : Word32) (s : State) : hostMove (.write32 0x00 w) s = issueCommand w s := by
  simp [hostMove, registerAccess, regAt, windowMapLow, Config.windowBytes]

/-- A register access to an aligned word of the window reaches its register. -/
theorem registerAccess_of_aligned {off : Nat} (h4 : off % 4 = 0) (hw : off < 0x100) (k : WindowReg → Out) :
    registerAccess off k = k (regAt off) := by
  rw [registerAccess, if_neg (by omega), if_neg (by simp only [Config.windowBytes]; omega)]

/-- A register access that is answered is an aligned word of the window. -/
theorem registerAccess_next {off : Nat} {k : WindowReg → Out} {t : State} (h : registerAccess off k = .next t) :
    off % 4 = 0 ∧ off < 0x100 ∧ k (regAt off) = .next t := by
  rw [registerAccess] at h
  split at h
  · cases h
  · rename_i h4
    split at h
    · cases h
    · rename_i hw
      exact ⟨by simpa using h4, by simpa [Config.windowBytes] using hw, h⟩

/-- A memory access that is answered is inside the space and backed. -/
theorem memoryAccess_next {s t : State} {sp : Space} {a : Nat} {o : Out} (h : memoryAccess s sp a o = .next t) :
    a < sp.size ∧ a < s.backing.bytes sp ∧ o = .next t := by
  rw [memoryAccess] at h
  split at h
  · cases h
  · rename_i h1
    split at h
    · cases h
    · rename_i h2
      exact ⟨by omega, by omega, h⟩

/-- What one move of the host can answer. -/
theorem hostMove_next_cases {m : HostMove} {s t : State} (h : hostMove m s = .next t) :
    (∃ v, m = .write32 0x00 v ∧ issueCommand v s = .next t) ∨
    (∃ off v, m = .write32 off v ∧ regAt off ≠ .cmd ∧ t = s.writeReg (regAt off) v) ∨
    (∃ off, m = .read32 off ∧ t = s.answer (s.readReg (regAt off))) ∨
    (∃ sp a v, m = .writeByte sp a v ∧ a < sp.size ∧ t = s.writeByte sp a v) ∨
    (∃ sp a, m = .readByte sp a ∧ t = s.answer (BitVec.setWidth 32 (s.readByte sp a))) ∨
    (m = .reset ∧ t = s.hardwareReset) ∨
    (∃ w cut, m = .resetDuring w cut ∧ resetDuring w cut s = .next t) ∨
    (∃ key msg img, m = .powerCycle key msg img ∧ t = s.powerCycle key msg img) := by
  cases m with
  | write32 off v =>
    simp only [hostMove] at h
    obtain ⟨h4, hw, hk⟩ := registerAccess_next h
    split at hk
    · rename_i hc
      refine .inl ⟨v, ?_, hk⟩
      have : off = 0 := by
        have hall : ∀ o < 256, regAt o = .cmd → o = 0 := by decide +kernel
        exact hall off hw hc
      rw [this]
    · rename_i hc
      exact .inr (.inl ⟨off, v, rfl, hc, by simpa using hk.symm⟩)
  | read32 off =>
    simp only [hostMove] at h
    obtain ⟨-, -, hk⟩ := registerAccess_next h
    exact .inr (.inr (.inl ⟨off, rfl, by simpa using hk.symm⟩))
  | writeByte sp a v =>
    obtain ⟨h1, -, hk⟩ := memoryAccess_next h
    exact .inr (.inr (.inr (.inl ⟨sp, a, v, rfl, h1, by simpa using hk.symm⟩)))
  | readByte sp a =>
    obtain ⟨-, -, hk⟩ := memoryAccess_next h
    exact .inr (.inr (.inr (.inr (.inl ⟨sp, a, rfl, by simpa using hk.symm⟩))))
  | reset => exact .inr (.inr (.inr (.inr (.inr (.inl ⟨rfl, by simpa [hostMove] using h.symm⟩)))))
  | resetDuring w cut => exact .inr (.inr (.inr (.inr (.inr (.inr (.inl ⟨w, cut, rfl, h⟩))))))
  | powerCycle key msg img =>
    exact .inr (.inr (.inr (.inr (.inr (.inr (.inr ⟨key, msg, img, rfl, by simpa [hostMove] using h.symm⟩))))))

/-- A command word that is answered is refused, or its command answers. -/
theorem issueCommand_next {w : Word32} {s t : State} (h : issueCommand w s = .next t) :
    (∃ why, decode w = .illegal why ∧ t = s.refuseIllegal) ∨ (∃ i, decode w = .command i ∧ exec i s = .next t) := by
  rw [issueCommand] at h
  split at h
  · rename_i i hd
    exact .inr ⟨i, hd, h⟩
  · rename_i why hd
    exact .inl ⟨why, hd, by simpa using h.symm⟩

/-- A command cut by reset that is answered leaves the reset state, over the memories of some part of the command. -/
theorem resetDuring_next {w : Word32} {cut : Nat} {s t : State} (h : resetDuring w cut s = .next t) :
    (∃ why, decode w = .illegal why ∧ t = s.hardwareReset) ∨
    (∃ i, decode w = .command i ∧ t = (cutCommand i cut s).hardwareReset) := by
  rw [resetDuring] at h
  split at h
  · rename_i why hd
    exact .inl ⟨why, hd, by simpa using h.symm⟩
  · rename_i i hd
    refine .inr ⟨i, hd, ?_⟩
    split at h
    · simpa using h.symm
    · cases h
    · cases h

end Sys2Proof.Machine
end

