-- ==== Sys2Proof/Laws/Frames.lean ====
section
/-!
SUPPORT. What the walks of `NEXTPOS`, `EMBED` and `EXTRACT` leave alone, field by field, in the form later proofs
rewrite with (spec/30_encoding.md R67).
-/

namespace Sys2Proof.Machine

/-- `INIT` answers one state. -/
theorem execInit_next {s t : State} (h : execInit s = .next t) : t = s.freshInvocation := by
  simpa [execInit, accepts] using h.symm

/-- What a walk over positions leaves. -/
theorem State.withStream_fields {s t : State} (h : t = s.withStream t) :
    t.phase = s.phase ∧ t.fault = s.fault ∧ t.ill = s.ill ∧ t.seed = s.seed ∧ t.rlen = s.rlen ∧
    t.keyLen = s.keyLen ∧ t.msgLen = s.msgLen ∧ t.pixelCount = s.pixelCount ∧ t.usableCh = s.usableCh ∧
    t.pad = s.pad ∧ t.keymem = s.keymem ∧ t.msgmem = s.msgmem ∧ t.imgmem = s.imgmem ∧ t.backing = s.backing ∧
    t.hung = s.hung ∧ t.reply = s.reply ∧ t.host = s.host := by
  rw [h]
  simp [State.withStream]

/-- What the loop of `EMBED` leaves. -/
theorem State.withStreamAndImage_fields {s t : State} (h : t = s.withStreamAndImage t) :
    t.phase = s.phase ∧ t.fault = s.fault ∧ t.ill = s.ill ∧ t.seed = s.seed ∧ t.rlen = s.rlen ∧
    t.keyLen = s.keyLen ∧ t.msgLen = s.msgLen ∧ t.pixelCount = s.pixelCount ∧ t.usableCh = s.usableCh ∧
    t.pad = s.pad ∧ t.keymem = s.keymem ∧ t.msgmem = s.msgmem ∧ t.backing = s.backing ∧ t.hung = s.hung ∧
    t.reply = s.reply ∧ t.host = s.host := by
  rw [h]
  simp [State.withStreamAndImage, State.withStream]

/-- What the byte loop of `EXTRACT` leaves. -/
theorem State.withStreamAndMessage_fields {s t : State} (h : t = s.withStreamAndMessage t) :
    t.phase = s.phase ∧ t.fault = s.fault ∧ t.ill = s.ill ∧ t.seed = s.seed ∧ t.rlen = s.rlen ∧
    t.keyLen = s.keyLen ∧ t.msgLen = s.msgLen ∧ t.pixelCount = s.pixelCount ∧ t.usableCh = s.usableCh ∧
    t.pad = s.pad ∧ t.keymem = s.keymem ∧ t.imgmem = s.imgmem ∧ t.backing = s.backing ∧ t.hung = s.hung ∧
    t.reply = s.reply ∧ t.host = s.host := by
  rw [h]
  simp [State.withStreamAndMessage, State.withStream]

/-- What the whole walk of `EXTRACT` leaves: it writes the stream registers, `RLEN` and MSGMEM only. -/
theorem extractWalk_fields (limit : Nat) (s : State) :
    let t := (extractWalk limit s).state
    t.phase = s.phase ∧ t.fault = s.fault ∧ t.ill = s.ill ∧ t.seed = s.seed ∧ t.keyLen = s.keyLen ∧
    t.msgLen = s.msgLen ∧ t.pixelCount = s.pixelCount ∧ t.usableCh = s.usableCh ∧ t.pad = s.pad ∧
    t.keymem = s.keymem ∧ t.imgmem = s.imgmem ∧ t.backing = s.backing ∧ t.hung = s.hung ∧ t.reply = s.reply ∧
    t.host = s.host := by
  intro t
  have hf := readBits_frame 32 s
  rcases extractWalk_cases limit s with ⟨u, hr, hw⟩ | ⟨u, hr, hw⟩ | ⟨bits, u, hr, ⟨-, hw⟩ | ⟨-, hw⟩⟩ <;>
    rw [hr] at hf <;> have hu := State.withStream_fields (show u = s.withStream u from hf)
  · simp [t, hw, Walk.state, hu]
  · simp [t, hw, Walk.state, hu]
  · simp [t, hw, Walk.state, hu]
  · have hb := State.withStreamAndMessage_fields
      (extractBytes_frame (min limit (lenFromBits bits).toNat) 0 (u.setRlen (lenFromBits bits)))
    rw [← hw] at hb
    simp [t, hb, hu]

/-- What a loop's state tells of the command's next state: every field but the phase, the fault and the hang. -/
theorem Walk.outcome_fields {w : Walk} {t : State} (h : w.outcome = .next t) :
    t.ill = w.state.ill ∧ t.seed = w.state.seed ∧ t.prng = w.state.prng ∧ t.used = w.state.used ∧
    t.issued = w.state.issued ∧ t.draw = w.state.draw ∧ t.pos = w.state.pos ∧ t.rlen = w.state.rlen ∧
    t.keyLen = w.state.keyLen ∧ t.msgLen = w.state.msgLen ∧ t.pixelCount = w.state.pixelCount ∧
    t.usableCh = w.state.usableCh ∧ t.pad = w.state.pad ∧ t.keymem = w.state.keymem ∧
    t.msgmem = w.state.msgmem ∧ t.imgmem = w.state.imgmem ∧ t.backing = w.state.backing ∧
    t.reply = w.state.reply ∧ t.host = w.state.host := by
  rcases Walk.outcome_next h with ⟨u, rfl, rfl⟩ | ⟨u, rfl, rfl⟩ | ⟨u, rfl, rfl⟩ <;> simp [Walk.state]

/-- A write to a register changes configuration registers at most, and those in `Idle` only (R33). -/
theorem State.writeReg_fields (s : State) (r : WindowReg) (v : Word32) :
    let t := s.writeReg r v
    t.phase = s.phase ∧ t.fault = s.fault ∧ t.ill = s.ill ∧ t.seed = s.seed ∧ t.prng = s.prng ∧ t.used = s.used ∧
    t.issued = s.issued ∧ t.draw = s.draw ∧ t.pos = s.pos ∧ t.rlen = s.rlen ∧ t.keymem = s.keymem ∧
    t.msgmem = s.msgmem ∧ t.imgmem = s.imgmem ∧ t.backing = s.backing ∧ t.hung = s.hung ∧ t.reply = s.reply ∧
    t.host = s.host ∧ (s.phase ≠ .idle → t = s) := by
  simp only [State.writeReg]
  split
  · rename_i hp
    cases r <;> simp [hp]
  · simp

end Sys2Proof.Machine
end

