-- ==== Sys2Proof/Laws/PerInstr.lean ====
section
/-!
SUPPORT. The statement made for every instruction as syntax: the form of its command word (spec/30_encoding.md R60 to
R62).
-/

namespace Sys2Proof.Laws

/-- The instruction is well formed, its word is a row of the opcode map with a mask of all ones, its `OPCODE` is one of
`0x01` to `0x07`, and the opcode table's number for it reads back as the instruction. -/
def WordForm.Statement (i : Instr) : Prop :=
  i.wf = true ∧ ⟨i, encode i, 0xFFFFFFFF#32⟩ ∈ opcodeTable ∧ 1 ≤ (encode i).toNat ∧ (encode i).toNat ≤ 7 ∧
    decodeTableWord 32 (encode i).toNat = some i

theorem WordForm.init : WordForm.Statement .init := by unfold WordForm.Statement; decide
theorem WordForm.kseed : WordForm.Statement .kseed := by unfold WordForm.Statement; decide
theorem WordForm.psopen : WordForm.Statement .psopen := by unfold WordForm.Statement; decide
theorem WordForm.draw : WordForm.Statement .draw := by unfold WordForm.Statement; decide
theorem WordForm.nextpos : WordForm.Statement .nextpos := by unfold WordForm.Statement; decide
theorem WordForm.embed : WordForm.Statement .embed := by unfold WordForm.Statement; decide
theorem WordForm.extract : WordForm.Statement .extract := by unfold WordForm.Statement; decide

end Sys2Proof.Laws
end

