-- ==== Sys2Proof/Laws/Sha.lean ====
section
/-!
SUPPORT. The laws of SHA-256 by index (spec/41_keyseeder.md R102 to R105): the rounds and the blocks as sequences, the
words of a block, the message schedule and the digest.
-/

namespace Sys2Proof.Machine

/-! ### Words and rotations -/

theorem rotr32_eq_rotateRight (x : Word32) {k : Nat} (h : k < 32) : rotr32 x k = x.rotateRight k := by
  rw [BitVec.rotateRight, Nat.mod_eq_of_lt h]
  rfl

/-- A big-endian word as a sum (R102). -/
theorem bigEndian32_toNat (b0 b1 b2 b3 : Byte) :
    (bigEndian32 b0 b1 b2 b3).toNat = b0.toNat * 2 ^ 24 + b1.toNat * 2 ^ 16 + b2.toNat * 2 ^ 8 + b3.toNat := by
  have key : ∀ x y : Nat, y < 2 ^ 8 → x <<< 8 ||| y = x * 2 ^ 8 + y := fun x y hy => by
    rw [← Nat.shiftLeft_add_eq_or_of_lt hy, Nat.shiftLeft_eq]
  rw [bigEndian32, BitVec.toNat_append, BitVec.toNat_append, BitVec.toNat_append, key _ _ b3.isLt, key _ _ b2.isLt,
    key _ _ b1.isLt]
  omega

theorem bytesToWords_length (p : List Byte) : (bytesToWords p).length = p.length / 4 := by
  induction p using bytesToWords.induct with
  | case1 b0 b1 b2 b3 rest ih =>
    rw [bytesToWords, List.length_cons, ih]
    simp only [List.length_cons]
    omega
  | case2 p h =>
    match p with
    | [] | [_] | [_, _] | [_, _, _] => simp [bytesToWords]
    | b0 :: b1 :: b2 :: b3 :: rest => exact absurd rfl (h b0 b1 b2 b3 rest)

/-- Word `t` is made of the bytes `4t` to `4t + 3`. -/
theorem bytesToWords_getD (p : List Byte) {t : Nat} (h : 4 * t + 3 < p.length) :
    (bytesToWords p).getD t 0 =
      bigEndian32 (p.getD (4 * t) 0) (p.getD (4 * t + 1) 0) (p.getD (4 * t + 2) 0) (p.getD (4 * t + 3) 0) := by
  induction p using bytesToWords.induct generalizing t with
  | case1 b0 b1 b2 b3 rest ih =>
    rw [bytesToWords]
    cases t with
    | zero => rfl
    | succ t =>
      simp only [List.length_cons] at h
      rw [List.getD_cons_succ, ih (by omega)]
      rfl
  | case2 p hp =>
    match p with
    | [] | [_] | [_, _] | [_, _, _] => simp at h
    | b0 :: b1 :: b2 :: b3 :: rest => exact absurd rfl (hp b0 b1 b2 b3 rest)

/-- Word `t` of the block at the head of the bytes (R102). -/
theorem blockWords_getD {p : List Byte} (hp : 64 ≤ p.length) {t : Nat} (h : t < 16) :
    (blockWords p).getD t 0 =
      bigEndian32 (p.getD (4 * t) 0) (p.getD (4 * t + 1) 0) (p.getD (4 * t + 2) 0) (p.getD (4 * t + 3) 0) := by
  have hget : ∀ i < 64, (p.take 64).getD i 0 = p.getD i 0 := fun i hi => by
    simp only [List.getD, List.getElem?_take_of_lt hi]
  rw [blockWords, bytesToWords_getD _ (by rw [List.length_take]; omega), hget _ (by omega), hget _ (by omega),
    hget _ (by omega), hget _ (by omega)]

theorem blockWords_length {p : List Byte} (hp : 64 ≤ p.length) : (blockWords p).length = 16 := by
  rw [blockWords, bytesToWords_length, List.length_take, Nat.min_eq_left hp]

/-! ### The message schedule -/

theorem extendSchedule_length (n : Nat) (ws : List Word32) : (extendSchedule n ws).length = ws.length + n := by
  induction n generalizing ws with
  | zero => rfl
  | succ n ih =>
    rw [extendSchedule, ih, List.length_cons]
    omega

/-- The words there were stand behind the new ones. -/
theorem extendSchedule_drop (n : Nat) (ws : List Word32) : (extendSchedule n ws).drop n = ws := by
  induction n generalizing ws with
  | zero => rfl
  | succ n ih =>
    rw [extendSchedule, ← List.drop_drop, ih]
    rfl

theorem schedule_length {m : List Word32} (h : m.length = 16) : (schedule m).length = 64 := by
  rw [schedule, List.length_reverse, extendSchedule_length, List.length_reverse, h]

/-! ### The rounds and the blocks as sequences -/

/-- A sequence of the working variables that obeys the round is what the rounds compute (R104). -/
theorem shaRounds_of_sequence {n : Nat} {ks ws : List Word32} (v : Nat → Chain) (hk : ks.length = n)
    (hw : ws.length = n) (hv : ∀ t < n, v (t + 1) = shaRound (v t) (ks.getD t 0) (ws.getD t 0)) :
    shaRounds ks ws (v 0) = v n := by
  induction n generalizing ks ws v with
  | zero =>
    obtain rfl := List.length_eq_zero_iff.1 hk
    rfl
  | succ n ih =>
    obtain ⟨k, ks, rfl⟩ := List.exists_cons_of_length_eq_add_one hk
    obtain ⟨w, ws, rfl⟩ := List.exists_cons_of_length_eq_add_one hw
    have h0 : v 1 = shaRound (v 0) k w := hv 0 (by omega)
    rw [shaRounds, ← h0]
    exact ih (fun t => v (t + 1)) (by simpa using hk) (by simpa using hw) fun t ht => hv (t + 1) (by omega)

/-- A sequence of chaining values that obeys the compression is what the fold computes (R104). -/
theorem foldBlocks_of_sequence {n : Nat} {p : List Byte} (h : Nat → Chain)
    (hh : ∀ b < n, h (b + 1) = compress (h b) (blockWords (p.drop (64 * b)))) : foldBlocks n p (h 0) = h n := by
  induction n generalizing p h with
  | zero => rfl
  | succ n ih =>
    have h0 : h 1 = compress (h 0) (blockWords p) := hh 0 (by omega)
    rw [foldBlocks, ← h0]
    refine ih (fun b => h (b + 1)) fun b hb => ?_
    rw [List.drop_drop, show 64 + 64 * b = 64 * (b + 1) by omega]
    exact hh (b + 1) (by omega)

end Sys2Proof.Machine
end

