-- ==== Sys2Proof/Tests/Slice0.lean ====
section
/-!
SUPPORT. The model's own tests. Expected values come from spec/95_test_vectors.md (the vector is named) and
spec/30_encoding.md; the witnesses at the end show, for each obligation with hypotheses, a state that meets them.
-/

/-- A state with one move of the host to make. -/
def Sys2Proof.Machine.State.move (s : Sys2Proof.Machine.State) (m : Sys2Proof.Machine.HostMove) :
    Sys2Proof.Machine.State := { s with host := [m] }

namespace Sys2Proof.Tests

open Sys2Proof.Machine

set_option maxRecDepth 20000
-- One evaluation after another: side by side they need more memory than the check allows.
set_option Elab.async false

/-! ### Encoding -/

/-- R60, R62: `ZERO` 24 zero bits, `OPCODE` in 7:0. -/
theorem test_decode_control : decode 0b000000000000000000000000_00000001#32 = .command .init := by decide
theorem test_decode_keyseeder : decode 0b000000000000000000000000_00000010#32 = .command .kseed := by decide
theorem test_decode_positionstream :
    decode 0b000000000000000000000000_00000011#32 = .command .psopen ∧
    decode 0b000000000000000000000000_00000100#32 = .command .draw ∧
    decode 0b000000000000000000000000_00000101#32 = .command .nextpos := by decide
theorem test_decode_embedding_engine :
    decode 0b000000000000000000000000_00000110#32 = .command .embed ∧
    decode 0b000000000000000000000000_00000111#32 = .command .extract := by decide

/-- The opcode table's own numbers, and a word longer than a row. -/
theorem test_decode_table_word :
    decodeTableWord 32 6 = some .embed ∧ decodeTableWord 32 0x106 = none ∧ decodeTableWord 64 (2 ^ 32 + 6) = none := by
  decide

/-- Smoke of WellFormed: an ill-formed word for each check. -/
theorem test_wf_zero_field_set : (Cmd32.ofWord 0x00000106#32).zeroFieldClear = false ∧
    (Cmd32.ofWord 0x00000106#32).wf = false := by decide
theorem test_wf_opcode_reserved : (Cmd32.ofWord 0x00000000#32).opcodeAssigned = false ∧
    (Cmd32.ofWord 0x00000000#32).wf = false ∧ (Cmd32.ofWord 0x00000008#32).wf = false ∧
    (Cmd32.ofWord 0x00000007#32).wf = true := by decide

/-! ### States the tests start from -/

/-- What a check says of an answer: it is a next state, and the check holds of it. -/
def holds (o : Out) (f : State → Bool) : Bool :=
  match o with
  | .next t => f t
  | .fault _ => false
  | .refused _ => false

/-- The seed of the key "k" (V8). -/
def seedK : Quad := ⟨0xf65028a929c35482#64, 0xee16486f37dd39d5#64, 0x5523e0a57d516427#64, 0x7a0d48643143af14#64⟩

/-- The configuration and the loads of P2, in `Idle`. -/
def p2 : State :=
  { State.reset with
    keyLen := 1#32, msgLen := 2#32, pixelCount := 16#32, usableCh := 3#8, pad := 1#8, keymem := [(0, 0x6b#8)],
    msgmem := [(0, 0x68#8), (1, 0x69#8)], imgmem := (List.range 64).map fun a => (a, BitVec.ofNat 8 (0x40 + a)) }

/-- A state of `Idle` after `KSEED` and `PSOPEN` with the seed `q`. -/
def opened (q : Quad) (s : State) : State := { s with phase := .positionStreamReady, seed := q, prng := q }

/-- P2 ready to embed. -/
def p2Ready : State := opened seedK p2

/-- The seed of the empty key (V1). -/
def seedEmpty : Quad := ⟨0x141cfc9842c4b0e3#64, 0x24b96f99c8f4fb9a#64, 0x4c939b64e441ae27#64, 0x55b852781b9995a4#64⟩

/-- P9, second variant, ready to extract. -/
def p9Ready : State :=
  opened seedEmpty
    { State.reset with
      pixelCount := 64#32, usableCh := 1#8, msgmem := [(0, 0xaa#8), (1, 0xbb#8), (2, 0xcc#8)],
      imgmem := [(6, 1#8), (12, 1#8), (23, 1#8), (30, 1#8), (53, 1#8)] }

/-- P5 ready to extract: 31 positions. -/
def p5Ready : State := opened seedK { State.reset with pixelCount := 31#32, usableCh := 1#8 }

/-- P6 ready to extract: an image of ones. -/
def p6Ready : State :=
  opened seedEmpty
    { State.reset with
      pixelCount := 64#32, usableCh := 1#8, imgmem := (List.range 64).map fun a => (a, 0xff#8) }

/-! ### Instructions -/

/-- V85: everything but the configuration is cleared. -/
theorem test_init_in_failed :
    holds (exec .init { p2Ready with phase := .failed, fault := .capacityExceeded, ill := true, issued := 7#40 })
      (fun t => t.phase == .idle && t.fault == .noFault && !t.ill && t.seed == Quad.zero && t.prng == Quad.zero &&
        t.issued == 0#40 && t.keyLen == 1#32 && t.msgLen == 2#32 && t.pixelCount == 16#32 && t.pad == 1#8) = true := by
  decide +kernel

/-- V2: the seed of "abc"; `s` stays zero. -/
theorem test_kseed_abc :
    holds (exec .kseed { State.reset with keyLen := 3#32, keymem := [(0, 0x61#8), (1, 0x62#8), (2, 0x63#8)] })
      (fun t => t.phase == .seedDerived && t.prng == Quad.zero &&
        t.seed == ⟨0xeacf018fbf1678ba#64, 0x2322ae5dde404141#64, 0x9c7a1796a36103b0#64, 0xad1500f261ff10b4#64⟩) =
      true := by decide +kernel

/-- V1 and V6: no block of key, and the shortest key of two blocks. -/
theorem test_key_seed_padding :
    keySeed [] = seedEmpty ∧
    keySeed (List.replicate 56 0x61#8) =
      ⟨0x48096faca43954b3#64, 0x5f0fafc6e3f9d6b6#64, 0x9070de1b0fe20c59#64, 0x8a73c66e687079ef#64⟩ := by decide +kernel

/-- P1: `S = SEED`, nothing issued, no draw made. -/
theorem test_psopen :
    holds (exec .psopen { p2 with phase := .seedDerived, seed := seedK })
      (fun t => t.phase == .positionStreamReady && t.prng == seedK && t.issued == 0#40 && t.draw == 0#64) = true := by
  decide +kernel

/-- V20, draw 0. -/
theorem test_draw :
    holds (exec .draw (opened ⟨1#64, 2#64, 3#64, 4#64⟩ State.reset))
      (fun t => t.draw == 0x0000000002800001#64 &&
        t.prng == ⟨0x7#64, 0x0#64, 0x0000000000040002#64, 0x0000c00000000000#64⟩) = true := by decide +kernel

/-- V82. -/
theorem test_draw_in_idle :
    holds (exec .draw State.reset) (fun t => t == { State.reset with ill := true }) = true := by decide +kernel

/-- V40: the first eleven positions; the eleventh costs two draws. -/
theorem test_nextpos_collision :
    (State.positions 11 p2Ready).map (fun r => (r.1, r.2.draw)) =
      some ([⟨10#32, 2#8⟩, ⟨0#32, 1#8⟩, ⟨7#32, 0#8⟩, ⟨15#32, 2#8⟩, ⟨8#32, 0#8⟩, ⟨1#32, 2#8⟩, ⟨13#32, 0#8⟩,
        ⟨8#32, 1#8⟩, ⟨8#32, 2#8⟩, ⟨3#32, 0#8⟩, ⟨2#32, 1#8⟩], 0x9e97141d2b74a472#64) := by decide +kernel

/-- V43: Capacity 0 faults at once. -/
theorem test_nextpos_without_capacity :
    holds (exec .nextpos { p2Ready with pixelCount := 0#32 })
      (fun t => t.phase == .failed && t.fault == .capacityExceeded && t.prng == seedK) = true := by decide +kernel

/-- P2. -/
theorem test_embed_exact_fit :
    holds (exec .embed p2Ready)
      (fun t => t.phase == .done && t.issued == 48#40 && t.draw == 0xb255c83aaa1bae73#64 && t.pos == ⟨3#32, 2#8⟩ &&
        t.prng == ⟨0x8254bb6876b6d5b5#64, 0x7b391d06b7fab23e#64, 0x7b56f0f4646d295a#64, 0xa56a0be56d716d72#64⟩ &&
        (List.range 16).map (fun a => t.imgmem.read a) ==
          [0x40#8, 0x40#8, 0x43#8, 0x43#8, 0x44#8, 0x44#8, 0x46#8, 0x47#8, 0x48#8, 0x48#8, 0x4a#8, 0x4b#8, 0x4c#8,
            0x4c#8, 0x4f#8, 0x4f#8]) = true := by decide +kernel

/-- P4: one byte too many. -/
theorem test_embed_without_room :
    holds (exec .embed { p2Ready with msgLen := 3#32 })
      (fun t => t == { p2Ready with msgLen := 3#32, phase := .failed, fault := .capacityExceeded }) = true := by
  decide +kernel

/-- P9, second variant. -/
theorem test_extract_garbage :
    holds (exec .extract p9Ready)
      (fun t => t.phase == .done && t.rlen == 1#32 && t.msgmem == [(0, 0x5a#8), (1, 0xbb#8), (2, 0xcc#8)] &&
        t.issued == 40#40 && t.draw == 0xf80d8baebd0349ea#64 && t.pos == ⟨42#32, 0#8⟩) = true := by decide +kernel

/-- P5: the prefix runs out (F3). -/
theorem test_extract_prefix_fault :
    holds (exec .extract p5Ready)
      (fun t => t.phase == .failed && t.issued == 31#40 && t.rlen == 0#32 && t.draw == 0xef609eada6dbac37#64 &&
        t.pos == ⟨18#32, 0#8⟩) = true := by decide +kernel

/-! ### The host's side -/

/-- V81. -/
theorem test_illegal_word :
    holds (step (State.reset.move (.write32 0x00 0x00000102#32))) (fun t => t == { State.reset with ill := true }) = true := by
  decide +kernel

/-- V83, V84, P2 and P4: what `STATUS` and `FAULT` read after a command. -/
theorem test_status_codes :
    holds (exec .kseed p2) (fun t => t.statusWord == 0x001#32) = true ∧
    holds (exec .psopen { p2 with phase := .seedDerived }) (fun t => t.statusWord == 0x002#32) = true ∧
    holds (exec .embed p2Ready) (fun t => t.statusWord == 0x005#32 && t.faultWord == 0#32) = true ∧
    holds (exec .embed { p2Ready with msgLen := 3#32, ill := true })
      (fun t => t.statusWord == 0x106#32 && t.faultWord == 1#32) = true := by decide +kernel

/-- V88: the reserved bits of `CHANCFG` are dropped. -/
theorem test_chancfg :
    holds (step (State.reset.move (.write32 0x18 0xFFFF0103#32))) (fun t => t.readReg (regAt 0x18) == 0x00000103#32) = true := by
  decide +kernel

/-- V86: a write outside `Idle` is dropped. -/
theorem test_configuration_lock :
    holds (step { p2 with phase := .seedDerived, host := [.write32 0x14 99#32] })
      (fun t => t == { p2 with phase := .seedDerived }) = true := by decide +kernel

/-! ### Witnesses: states and operands that meet the hypotheses of the obligations -/

/-- Ready in a small geometry: no key to hash, 64 pixels of one channel, an empty message. -/
def small : State := opened seedEmpty { State.reset with pixelCount := 64#32, usableCh := 1#8 }

/-- P2's message in a larger image: 1000 pixels, still with a pad byte each. -/
def roomy : State := { p2Ready with pixelCount := 1000#32 }

/-- One position, and it is issued. -/
def full : State := { small with pixelCount := 1#32, used := [⟨0#32, 0#8⟩], issued := 1#40 }

/-- The all-zero generator with the one position it can give already issued (R212). -/
def stuck : State := { small with prng := ⟨0#64, 0#64, 0#64, 0#64⟩, used := [⟨0#32, 0#8⟩], issued := 1#40 }

/-- What a check says of a walk over positions. -/
def walks (n : Nat) (s : State) (f : List Position → State → Bool) : Bool :=
  match State.positions n s with
  | some (ps, t) => f ps t
  | none => false

theorem exists_of_walks {n : Nat} {s : State} {f : List Position → State → Bool} (h : walks n s f = true) :
    ∃ ps t, State.positions n s = some (ps, t) ∧ f ps t = true := by
  rw [walks] at h
  split at h
  · rename_i ps t hp
    exact ⟨ps, t, hp, h⟩
  · cases h

theorem exists_of_holds {o : Out} {f : State → Bool} (h : holds o f = true) : ∃ t, o = .next t ∧ f t = true := by
  cases o with
  | next t => exact ⟨t, rfl, h⟩
  | fault x => cases h
  | refused x => cases h

theorem small_usedOk : small.UsedOk := ⟨by decide, by decide, by decide, by decide⟩
theorem full_usedOk : full.UsedOk := ⟨by decide, by decide, by decide, by decide⟩

theorem witness_DecodeIsTheMatchingRow :
    (∃ r ∈ opcodeTable, 0x00000007#32 = r.pattern) ∧ (∀ r ∈ opcodeTable, 0x00000008#32 ≠ r.pattern) := by decide

theorem witness_IllegalWordsAreRefusedByName :
    (0x00000106#32).extractLsb' 8 24 ≠ 0#24 ∧ (0x80000001#32).extractLsb' 8 24 ≠ 0#24 ∧
    ((0x00000000#32).extractLsb' 8 24 = 0#24 ∧ (0x00000000#32).extractLsb' 0 8 = 0#8) ∧
    ((0x00000008#32).extractLsb' 8 24 = 0#24 ∧ 8 ≤ ((0x00000008#32).extractLsb' 0 8).toNat) ∧
    (∀ i, 0x00000008#32 ≠ encode i) := by
  refine ⟨by decide, by decide, by decide, by decide, fun i => ?_⟩
  cases i <;> decide

theorem witness_DecodeAndEncodeAgree : Instr.wf .extract = true ∧ decode 0x00000007#32 = .command .extract := by decide

theorem witness_StepRunsTheCommandWritten :
    (small.move (.write32 0x00 5#32)).hung = false ∧ (small.move (.write32 0x00 5#32)).host = [.write32 0x00 5#32] ∧
    decode 5#32 = .command .nextpos ∧ decode 8#32 = .illegal (.reservedOpcode 8#8) ∧
    (small.move (.read32 0x00)).hung = false := by decide

theorem witness_RefusedCommandOnlySetsIll :
    decode 0#32 = .illegal (.reservedOpcode 0#8) ∧ accepts .draw State.reset.phase = false ∧
    holds (step (({ small with ill := true }).move (.write32 0x00 1#32))) (fun t => !t.ill) = true ∧
    holds (step (({ small with ill := true }).move .reset)) (fun t => !t.ill) = true ∧
    ((0x00000101#32).extractLsb' 0 8 = 0x01#8 ∧ (0x00000101#32).extractLsb' 8 24 ≠ 0#24) := by decide +kernel

/-- A command that is accepted, for each of the seven, and one that hangs. -/
theorem witness_PhaseTableOfTheCommands :
    holds (exec .init full) (fun _ => true) = true ∧
    holds (exec .kseed State.reset) (fun t => t.phase == .seedDerived) = true ∧
    holds (exec .psopen { State.reset with phase := .seedDerived }) (fun t => t.phase == .positionStreamReady) = true ∧
    holds (exec .draw small) (fun t => t.phase == .positionStreamReady) = true ∧
    holds (exec .nextpos full) (fun t => t.phase == .failed) = true ∧
    holds (exec .embed small) (fun t => t.phase == .done) = true ∧
    holds (exec .extract small) (fun t => t.phase == .done) = true := by decide +kernel

theorem witness_PhaseNeverGoesBack :
    holds (step (State.reset.move (.write32 0x00 2#32))) (fun t => t.phase != .idle) = true ∧
    holds (step (full.move (.write32 0x00 1#32))) (fun t => t.phase != full.phase) = true ∧
    ({ full with phase := .failed }).phase = .failed ∧ Instr.draw ≠ .init := by decide +kernel

theorem witness_CommandsNeverStopTheMachine : small.backing = ⟨2 ^ 32, 2 ^ 32, 2 ^ 41⟩ := by decide

theorem witness_InitAndResetDifferInConfiguration :
    (small.move .reset).hung = false ∧ (small.move .reset).host = [.reset] := by decide

theorem witness_KseedLoadsTheSeedOfTheKey :
    (p2.phase = .idle ∧ p2.keyLen.toNat ≤ p2.backing.key) ∧
    (({ p2 with backing := ⟨1, 0, 0⟩ }).keyLen.toNat ≤ ({ p2 with backing := ⟨1, 0, 0⟩ }).backing.key) ∧
    small.phase ≠ .idle ∧
    (let s : State := { State.reset with keyLen := 3#32, keymem := [(0, 0x61#8), (1, 0x62#8), (2, 0x63#8)] }
     s.phase = .idle ∧ 3 ≤ s.backing.key ∧ s.keymem.read 0 = 0x61#8 ∧ s.keymem.read 1 = 0x62#8 ∧
       s.keymem.read 2 = 0x63#8) := by decide

/-- Two keys that agree where `KEY_LEN` reaches and differ behind it. -/
theorem witness_SeedDependsOnTheKeyOnly :
    ∃ s t s' t' : State, s.phase = .idle ∧ t.phase = .idle ∧ s.keyLen = t.keyLen ∧ s.keymem ≠ t.keymem ∧
      (∀ k < s.keyLen.toNat, s.keymem.read k = t.keymem.read k) ∧
      exec .kseed s = .next s' ∧ exec .kseed t = .next t' :=
  ⟨p2, { p2 with keymem := [(0, 0x6b#8), (1, 0x6b#8)], pixelCount := 0#32 }, _, _, rfl, rfl, rfl, by decide, by decide,
    rfl, rfl⟩

theorem witness_ShaPaddingFillsWholeBlocks :
    (List.replicate 55 (0x61#8 : Byte)).length < 2 ^ 61 ∧ (List.replicate 56 (0x61#8 : Byte)).length < 2 ^ 61 := by
  decide

theorem witness_ShaScheduleObeysTheRecurrence :
    (List.replicate 16 (0#32 : Word32)).length = 16 ∧ 15 < 16 ∧ (16 ≤ 16 ∧ 16 < 64) ∧ (16 ≤ 63 ∧ 63 < 64) := by decide

/-- A block with its end at the end of the bytes; the rounds and the blocks as sequences. -/
theorem witness_ShaCompressesTheBlocksInOrder :
    64 * 1 + 64 ≤ (List.replicate 128 (0x61#8 : Byte)).length ∧
    (∀ (h : Chain) (f : Nat → Chain → Chain), ∃ v : Nat → Chain, v 0 = h ∧ ∀ t < 64, v (t + 1) = f t (v t)) :=
  ⟨by decide, fun h f => ⟨fun t => Nat.rec h f t, rfl, fun _ _ => rfl⟩⟩

theorem witness_PsopenLoadsTheGenerator :
    ({ p2 with phase := .seedDerived }).phase = .seedDerived ∧ p2.phase ≠ .seedDerived := by decide

theorem witness_DrawAdvancesTheGenerator :
    small.phase = .positionStreamReady ∧ p2.phase ≠ .positionStreamReady := by decide

theorem witness_ZeroGeneratorStaysZero :
    ∃ s t s' t' : State, s.phase = .positionStreamReady ∧ t.phase = .positionStreamReady ∧ s.prng = t.prng ∧ s ≠ t ∧
      exec .draw s = .next s' ∧ exec .draw t = .next t' :=
  ⟨small, full, _, _, rfl, rfl, rfl, by decide, rfl, rfl⟩

theorem witness_ReductionOfADraw :
    (0 < (1#32 : Word32).toNat ∧ 0 < (1#8 : BitVec 8).toNat) ∧
    (0 < (0xFFFFFFFF#32 : Word32).toNat ∧ 0 < (255#8 : BitVec 8).toNat) := by decide

theorem witness_ReductionNeverDividesByZero : small.nextPos ≠ .exhausted := by decide +kernel

/-- The first draw that lands is number 0 here; the eleventh position of V40 takes two draws. -/
theorem witness_NextposIssuesTheFirstFreeDraw :
    small.phase = .positionStreamReady ∧ small.issued.toNat < small.pixelCount.toNat * small.usableCh.toNat ∧
    (∀ j < 0, reducePos small.pixelCount small.usableCh (drawAt j small.prng) ∈ small.used) ∧
    reducePos small.pixelCount small.usableCh (drawAt 0 small.prng) ∉ small.used ∧
    walks 10 p2Ready (fun _ t =>
      t.phase == .positionStreamReady && decide (t.issued.toNat < t.pixelCount.toNat * t.usableCh.toNat) &&
      decide (reducePos t.pixelCount t.usableCh (drawAt 0 t.prng) ∈ t.used) &&
      decide (reducePos t.pixelCount t.usableCh (drawAt 1 t.prng) ∉ t.used)) = true := by decide +kernel

theorem witness_NextposFaultsWhenNothingIsFree :
    full.phase = .positionStreamReady ∧ full.pixelCount.toNat * full.usableCh.toNat ≤ full.issued.toNat ∧
    (({ small with pixelCount := 0#32 }).pixelCount.toNat * small.usableCh.toNat ≤ small.issued.toNat) ∧
    p2.phase ≠ .positionStreamReady := by decide

theorem prngAfter_zero_quad (k : Nat) : prngAfter k ⟨0#64, 0#64, 0#64, 0#64⟩ = ⟨0#64, 0#64, 0#64, 0#64⟩ := by
  induction k with
  | zero => rfl
  | succ k ih => exact ih

/-- A state of each kind: one whose draws never land, and one whose first draw lands. -/
theorem witness_NextposHangsExactlyWhenNoDrawLands :
    (stuck.phase = .positionStreamReady ∧ stuck.hung = false ∧ stuck.issued.toNat < stuck.capacity ∧
      ∀ k, reducePos stuck.pixelCount stuck.usableCh (drawAt k stuck.prng) ∈ stuck.used) ∧
    (small.phase = .positionStreamReady ∧ small.hung = false ∧ small.issued.toNat < small.capacity ∧
      ∃ k, reducePos small.pixelCount small.usableCh (drawAt k small.prng) ∉ small.used) := by
  refine ⟨⟨rfl, rfl, by decide, fun k => ?_⟩, rfl, rfl, by decide, 0, by decide⟩
  rw [drawAt, show stuck.prng = ⟨0#64, 0#64, 0#64, 0#64⟩ from rfl, prngAfter_zero_quad]
  decide

theorem witness_PositionsNeverRepeat :
    small.UsedOk ∧ ∃ ps t, State.positions 3 small = some (ps, t) := by
  obtain ⟨ps, t, h, -⟩ := exists_of_walks (n := 3) (s := small) (f := fun _ _ => true) (by decide +kernel)
  exact ⟨small_usedOk, ps, t, h⟩

theorem witness_PositionsFollowGeneratorAndGeometry :
    ∃ s t s' : State, s.phase = .positionStreamReady ∧ t.phase = .positionStreamReady ∧ s.prng = t.prng ∧
      s.used = t.used ∧ s.issued = t.issued ∧ s.pixelCount = t.pixelCount ∧ s.usableCh = t.usableCh ∧
      s.pad ≠ t.pad ∧ s.hung = false ∧ t.hung = false ∧ exec .nextpos s = .next s' ∧ s'.issued ≠ s.issued := by
  obtain ⟨u, h, hu⟩ := exists_of_holds (o := exec .nextpos small) (f := fun t => decide (t.issued ≠ small.issued))
    (by decide +kernel)
  exact ⟨small, { small with pad := 1#8 }, u, rfl, rfl, rfl, rfl, rfl, rfl, rfl, by decide, rfl, rfl, h, by simpa using hu⟩

theorem witness_ZeroGeneratorHangs :
    (let s : State := { stuck with used := [], issued := 0#40 }
     s.phase = .positionStreamReady ∧ s.prng = ⟨0#64, 0#64, 0#64, 0#64⟩ ∧ s.issued.toNat + 1 < s.capacity ∧
       (⟨0#32, 0#8⟩ : Position) ∉ s.used) ∧
    (stuck.phase = .positionStreamReady ∧ stuck.prng = ⟨0#64, 0#64, 0#64, 0#64⟩ ∧
      stuck.issued.toNat < stuck.capacity ∧ (⟨0#32, 0#8⟩ : Position) ∈ stuck.used) ∧
    (let s : State := { State.reset with phase := .seedDerived, pixelCount := 2#32, usableCh := 1#8 }
     s.phase = .seedDerived ∧ s.seed = ⟨0#64, 0#64, 0#64, 0#64⟩ ∧ 2 ≤ s.capacity) := by decide

theorem witness_BitStreamIsMostSignificantFirst : (0 ≤ 31 ∧ 31 ≤ 31) ∧ (0 ≤ 7 ∧ 7 ≤ 7) := by decide

theorem witness_BitsAssembleMostSignificantFirst :
    (List.replicate 32 true).length = 32 ∧ (List.replicate 8 true).length = 8 := by decide

theorem witness_PackThenUnpack : 0 < p2.msgLen.toNat ∧ 1 < p2.msgLen.toNat := by decide

/-- The largest geometry and its last position. -/
theorem witness_AddressesOfPositionsAreDistinct :
    let s : State := { State.reset with pixelCount := 0xFFFFFFFF#32, usableCh := 255#8, pad := 255#8 }
    let p : Position := ⟨0xFFFFFFFE#32, 254#8⟩
    p.pix.toNat < s.pixelCount.toNat ∧ p.ch.toNat < s.usableCh.toNat ∧
      s.lsbAddr p = (2 ^ 32 - 2) * 510 + 254 := by decide

/-- A backing that just reaches: no message byte, 64 image bytes. -/
theorem witness_EmbedWritesTheBitStream :
    let s : State := { small with backing := ⟨0, 0, 64⟩ }
    s.phase = .positionStreamReady ∧ s.UsedOk ∧ s.imgmem.wf ∧ s.streamLen + s.issued.toNat ≤ s.capacity ∧
      s.msgLen.toNat ≤ s.backing.msg ∧ s.pixelCount.toNat * s.stride ≤ s.backing.img ∧
      ∃ ps t, State.positions s.streamLen s = some (ps, t) := by
  obtain ⟨ps, t, h, -⟩ := exists_of_walks (n := 32) (s := { small with backing := ⟨0, 0, 64⟩ }) (f := fun _ _ => true)
    (by decide +kernel)
  exact ⟨rfl, ⟨by decide, by decide, by decide, by decide⟩, by decide, by decide, by decide, by decide, ps, t, h⟩

theorem witness_EmbedWithoutRoomFaults :
    (({ p2Ready with issued := 1#40 }).phase = .positionStreamReady ∧
      p2Ready.pixelCount.toNat * p2Ready.usableCh.toNat <
        32 + 8 * p2Ready.msgLen.toNat + ({ p2Ready with issued := 1#40 }).issued.toNat) ∧
    p2.phase ≠ .positionStreamReady := by decide

theorem witness_EmbedNeverFaultsHalfWay :
    full.UsedOk ∧ full.phase = .positionStreamReady ∧ ∃ t, exec .embed full = .next t ∧ t.phase = .failed := by
  obtain ⟨t, h, ht⟩ := exists_of_holds (o := exec .embed full) (f := fun t => decide (t.phase = .failed))
    (by decide +kernel)
  exact ⟨full_usedOk, rfl, t, h, by simpa using ht⟩

/-- Pixel 0 has a pad byte, byte 3, and the first byte behind the image is 4000. -/
theorem witness_EmbedTouchesOnlyLsbs :
    roomy.imgmem.wf ∧ (∃ t, exec .embed roomy = .next t) ∧
    (0 < roomy.pixelCount.toNat ∧ roomy.usableCh.toNat ≤ 3 ∧ 3 < roomy.usableCh.toNat + roomy.pad.toNat) ∧
    roomy.pixelCount.toNat * (roomy.usableCh.toNat + roomy.pad.toNat) ≤ 4000 := by
  obtain ⟨t, h, -⟩ := exists_of_holds (o := exec .embed roomy) (f := fun _ => true) (by decide +kernel)
  exact ⟨by decide, ⟨t, h⟩, by decide, by decide⟩

/-- P9: the length is 1, and eight more positions are read. -/
theorem witness_ExtractReadsTheMessage :
    p9Ready.phase = .positionStreamReady ∧ p9Ready.msgmem.wf ∧ p9Ready.launchBacked .extract = true ∧
    ∃ ps t qs u, State.positions 32 p9Ready = some (ps, t) ∧ (lenFromBits (p9Ready.lsbs ps)).toNat = 1 ∧
      8 * (lenFromBits (p9Ready.lsbs ps)).toNat + t.issued.toNat ≤ p9Ready.capacity ∧
      State.positions (8 * (lenFromBits (p9Ready.lsbs ps)).toNat) t = some (qs, u) := by
  obtain ⟨ps, t, h, ht⟩ := exists_of_walks (n := 32) (s := p9Ready)
    (f := fun ps t => decide ((lenFromBits (p9Ready.lsbs ps)).toNat = 1) && decide (8 + t.issued.toNat ≤ p9Ready.capacity) &&
      (State.positions 8 t).isSome) (by decide +kernel)
  simp only [Bool.and_eq_true, decide_eq_true_eq] at ht
  obtain ⟨⟨h1, h2⟩, h3⟩ := ht
  obtain ⟨⟨qs, u⟩, hq⟩ := Option.isSome_iff_exists.1 h3
  refine ⟨rfl, by decide, by decide, ps, t, qs, u, h, h1, ?_, ?_⟩ <;> rw [h1]
  · exact h2
  · exact hq

/-- P5, and no position free at all. -/
theorem witness_ExtractPrefixFaults :
    (p5Ready.phase = .positionStreamReady ∧ p5Ready.launchBacked .extract = true ∧
      p5Ready.capacity - p5Ready.issued.toNat < 32 ∧
      ∃ ps t, State.positions (p5Ready.capacity - p5Ready.issued.toNat) p5Ready = some (ps, t)) ∧
    (full.launchBacked .extract = true ∧ full.capacity - full.issued.toNat < 32 ∧
      State.positions (full.capacity - full.issued.toNat) full = some ([], full)) ∧
    p2.phase ≠ .positionStreamReady := by
  obtain ⟨ps, t, h, -⟩ := exists_of_walks (n := 31) (s := p5Ready) (f := fun _ _ => true) (by decide +kernel)
  exact ⟨⟨rfl, by decide, by decide, ps, t, h⟩, by decide +kernel, by decide⟩

/-- P6: an image of ones gives the length `2^32 - 1`. -/
theorem witness_ExtractLengthFaults :
    p6Ready.phase = .positionStreamReady ∧ p6Ready.launchBacked .extract = true ∧
    ∃ ps t, State.positions 32 p6Ready = some (ps, t) ∧
      p6Ready.capacity < 8 * (lenFromBits (p6Ready.lsbs ps)).toNat + t.issued.toNat := by
  obtain ⟨ps, t, h, ht⟩ := exists_of_walks (n := 32) (s := p6Ready)
    (f := fun ps t => decide (p6Ready.capacity < 8 * (lenFromBits (p6Ready.lsbs ps)).toNat + t.issued.toNat))
    (by decide +kernel)
  exact ⟨rfl, by decide, ps, t, h, of_decide_eq_true ht⟩

theorem witness_ExtractNeverWritesTheImage :
    (full.UsedOk ∧ full.phase = .positionStreamReady ∧ ∃ t, exec .extract full = .next t ∧ t.phase = .failed) ∧
    (∃ t, exec .extract p9Ready = .next t ∧ t.phase = .done ∧ t.rlen.toNat ≤ 1) := by
  obtain ⟨t, h, ht⟩ := exists_of_holds (o := exec .extract full) (f := fun t => decide (t.phase = .failed))
    (by decide +kernel)
  obtain ⟨u, h', hu⟩ := exists_of_holds (o := exec .extract p9Ready)
    (f := fun t => decide (t.phase = .done ∧ t.rlen.toNat ≤ 1)) (by decide +kernel)
  exact ⟨⟨full_usedOk, rfl, t, h, of_decide_eq_true ht⟩, u, h', of_decide_eq_true hu⟩

/-- P2's message embedded, then the fresh invocation over its image. -/
theorem witness_EmbedThenExtractReturnsTheMessage :
    ∃ s t u : State, s.phase = .idle ∧ s.imgmem.wf ∧ runCommands [.kseed, .psopen, .embed] s = some t ∧
      t.phase = .done ∧ u.phase = .idle ∧ u.msgmem.wf ∧ u.keyLen = s.keyLen ∧
      (∀ k < s.keyLen.toNat, u.keymem.read k = s.keymem.read k) ∧ u.pixelCount = s.pixelCount ∧
      u.usableCh = s.usableCh ∧ u.pad = s.pad ∧
      (∀ a < s.pixelCount.toNat * s.stride, u.imgmem.read a = t.imgmem.read a) ∧
      u.keyLen.toNat ≤ u.backing.key ∧ u.pixelCount.toNat * u.stride ≤ u.backing.img ∧
      u.longestExtract ≤ u.backing.msg ∧ s.msgLen.toNat = 2 := by
  have h : (match runCommands [.kseed, .psopen, .embed] { p2 with pixelCount := 1000#32 } with
    | some t => decide (t.phase = .done)
    | none => false) = true := by decide +kernel
  split at h
  · rename_i t ht
    exact ⟨{ p2 with pixelCount := 1000#32 }, t, { p2 with pixelCount := 1000#32, imgmem := t.imgmem, msgmem := [] }, rfl, by decide, ht, of_decide_eq_true h, rfl,
      (by decide : Memory.wf []), rfl, fun _ _ => rfl, rfl, rfl, rfl, fun _ _ => rfl,
      (by decide : p2.keyLen.toNat ≤ p2.backing.key), (by decide : 1000 * p2.stride ≤ p2.backing.img),
      (by decide : ({ p2 with pixelCount := 1000#32 } : State).longestExtract ≤ p2.backing.msg), rfl⟩
  · cases h

/-- A fault at each of the four points. -/
theorem witness_FaultIsRaisedAtFourPoints :
    full.UsedOk ∧ small.UsedOk ∧ full.fault = .noFault ∧ small.fault = .noFault ∧
    holds (exec .nextpos full) (fun t => t.fault == .capacityExceeded) = true ∧
    holds (exec .embed full) (fun t => t.fault == .capacityExceeded) = true ∧
    holds (exec .extract full) (fun t => t.fault == .capacityExceeded) = true ∧
    holds (exec .extract p6Ready)
      (fun t => t.fault == .capacityExceeded && t.rlen == 0xFFFFFFFF#32) = true := by
  exact ⟨full_usedOk, small_usedOk, by decide +kernel⟩

theorem witness_CapacityZeroFaultsAtOnce :
    ({ small with pixelCount := 0#32 }).phase = .positionStreamReady ∧
    (({ small with pixelCount := 0#32 }).pixelCount = 0#32 ∧ ({ small with usableCh := 0#8 }).usableCh = 0#8) := by
  decide

theorem witness_CommandsLeaveOtherMemoryAndConfiguration :
    holds (exec .embed roomy) (fun t => t.imgmem != roomy.imgmem) = true ∧
    holds (exec .extract p9Ready) (fun t => t.msgmem != p9Ready.msgmem) = true := by decide +kernel

theorem witness_RegistersAreWrittenByTheirCommandsOnly :
    holds (exec .nextpos small) (fun t => t.prng != small.prng && t.used != small.used && t.draw != small.draw &&
      t.pos != small.pos) = true ∧
    holds (exec .kseed p2) (fun t => t.seed != p2.seed) = true ∧
    holds (exec .extract p9Ready) (fun t => t.rlen != p9Ready.rlen) = true ∧
    holds (exec .draw p2) (fun t => t.ill != p2.ill) = true ∧
    holds (exec .nextpos full) (fun t => t.fault != full.fault) = true := by decide +kernel

theorem witness_UnbackedLaunchIsRefused :
    (p2.phase = .idle ∧ ({ p2 with backing := ⟨0, 0, 0⟩ }).backing.key < p2.keyLen.toNat) ∧
    (p2Ready.phase = .positionStreamReady ∧ p2Ready.streamLen + p2Ready.issued.toNat ≤ p2Ready.capacity ∧
      (({ p2Ready with backing := ⟨1, 1, 64⟩ }).backing.msg < p2Ready.msgLen.toNat ∧
        ({ p2Ready with backing := ⟨1, 2, 63⟩ }).backing.img < p2Ready.pixelCount.toNat * p2Ready.stride)) ∧
    (p2Ready.issued.toNat < p2Ready.capacity ∧
      ({ p2Ready with backing := ⟨1, 1, 64⟩ }).backing.msg < min ((p2Ready.capacity - 32) / 8) (2 ^ 32 - 1)) := by decide

theorem witness_ConfigurationLock :
    (small.move (.write32 0x0C 1#32)).hung = false ∧ small.phase ≠ .idle ∧ p2.phase = .idle ∧
    (p2.move (.write32 0x18 1#32)).host = [.write32 0x18 1#32] := by decide

theorem witness_ReadsAndIgnoredWritesChangeNothing :
    (small.move (.read32 0xFC)).hung = false ∧ (0xFC % 4 = 0 ∧ 0xFC < 0x100 ∧ 0x80 ≤ 0xFC) ∧
    (0x38 % 4 = 0 ∧ 0x38 < 0x100) ∧ (0x80 % 4 = 0 ∧ 0x80 < 0x100) ∧
    ((0x04 % 4 = 0 ∧ 0x04 < 0x100) ∧ 0x04 ≠ 0x00 ∧ 0x04 ≠ 0x0C ∧ 0x04 ≠ 0x18) := by decide

theorem witness_OtherRegisterAccessesAreRefused :
    (small.move (.read32 0x01)).hung = false ∧ 0x01 % 4 ≠ 0 ∧ (0x100 % 4 = 0 ∧ 0x100 ≤ 0x100) := by decide

theorem witness_HostReachesTheMemories :
    (small.move (.readByte .keymem 0xFFFFFFFF)).hung = false ∧
    (0xFFFFFFFF < Space.keymem.size ∧ 0xFFFFFFFF < small.backing.bytes .keymem) ∧
    (2 ^ 41 - 1 < Space.imgmem.size ∧ 2 ^ 41 - 1 < small.backing.bytes .imgmem) ∧
    (∀ c ∈ p2.keymem, c.1 < Config.keySpace) := by decide

theorem p2_memoryOk : p2.MemoryOk := ⟨by decide, by decide, by decide, by decide, by decide, by decide⟩

theorem witness_ResetValues : (stuck.move .reset).host = [.reset] := by decide

theorem roomy_usedOk : roomy.UsedOk := ⟨by decide, by decide, by decide, by decide⟩

/-- A cut before the first write, one in the middle, and one of a word that is no command. -/
theorem witness_ResetCutsARunningCommand :
    roomy.imgmem.wf ∧ holds (step (roomy.move (.resetDuring 6#32 0))) (fun t => t.imgmem == p2.imgmem) = true ∧
    holds (step (roomy.move (.resetDuring 6#32 33)))
      (fun t => t.phase == .idle && t.imgmem != roomy.imgmem) = true ∧
    holds (step (p9Ready.move (.resetDuring 7#32 1))) (fun t => t.msgmem != p9Ready.msgmem) = true ∧
    holds (step (roomy.move (.resetDuring 8#32 1))) (fun t => t.imgmem == p2.imgmem) = true := by decide +kernel

/-- The clause about `EMBED`: cut after 33 of 48 bits; and a walk that gets no further than its first position, since
every draw falls on it. -/
theorem witness_ResetCutsARunningCommand_embed :
    (decode 6#32 = .command .embed ∧ roomy.phase = .positionStreamReady ∧ roomy.UsedOk ∧
      roomy.streamLen + roomy.issued.toNat ≤ roomy.capacity ∧ 33 ≤ min 33 roomy.streamLen ∧
      ∃ ps u, State.positions 33 roomy = some (ps, u)) ∧
    (let s : State := { stuck with used := [], issued := 0#40 }
     s.phase = .positionStreamReady ∧ s.imgmem.wf ∧ s.streamLen + s.issued.toNat ≤ s.capacity ∧
       1 ≤ min 33 s.streamLen ∧ ∃ ps u, State.positions 1 s = some (ps, u) ∧ State.positions 2 s = none) := by
  obtain ⟨ps, u, h, -⟩ := exists_of_walks (n := 33) (s := roomy) (f := fun _ _ => true) (by decide +kernel)
  have h1 : ({ stuck with used := [], issued := 0#40 } : State).nextPos = .issued ⟨0#32, 0#8⟩ stuck := by decide +kernel
  have h2 : stuck.nextPos = .endless := by
    refine stuck.nextPos_eq_endless_iff.2 ⟨by decide, fun k => ?_⟩
    rw [State.rejects, drawAt, show stuck.prng = ⟨0#64, 0#64, 0#64, 0#64⟩ from rfl, prngAfter_zero_quad]
    decide
  refine ⟨⟨by decide, rfl, roomy_usedOk, by decide, by decide, ps, u, h⟩, rfl, by decide, by decide, by decide,
    [⟨0#32, 0#8⟩], stuck, ?_, ?_⟩
  · exact State.positions_succ_eq_some_iff.2 ⟨_, [], stuck, h1, rfl, rfl⟩
  · refine Option.eq_none_iff_forall_ne_some.2 fun r hr => ?_
    obtain ⟨p, qs, t, hn, hq, -⟩ := State.positions_succ_eq_some_iff.1 hr
    obtain ⟨-, rfl⟩ := NextPos.issued.inj (h1.symm.trans hn)
    obtain ⟨q, rs, v, hn', -⟩ := State.positions_succ_eq_some_iff.1 hq
    cases h2.symm.trans hn'

/-- The clauses about `EXTRACT`: a cut at and before the one message byte; a prefix that cannot be read (P5); a length
that does not fit (P6). -/
theorem witness_ResetCutsARunningCommand_extract :
    (decode 7#32 = .command .extract ∧ p9Ready.phase = .positionStreamReady ∧ p9Ready.msgmem.wf ∧
      ∃ ps u, State.positions 32 p9Ready = some (ps, u) ∧
        8 * (lenFromBits (p9Ready.lsbs ps)).toNat + u.issued.toNat ≤ p9Ready.capacity ∧
        1 ≤ min 1 (lenFromBits (p9Ready.lsbs ps)).toNat ∧ ∃ qs v, State.positions (8 * 1) u = some (qs, v)) ∧
    State.positions 32 p5Ready = none ∧
    ∃ ps u, State.positions 32 p6Ready = some (ps, u) ∧
      p6Ready.capacity < 8 * (lenFromBits (p6Ready.lsbs ps)).toNat + u.issued.toNat := by
  obtain ⟨ps, u, h, hu⟩ := exists_of_walks (n := 32) (s := p9Ready)
    (f := fun ps u => decide (8 * (lenFromBits (p9Ready.lsbs ps)).toNat + u.issued.toNat ≤ p9Ready.capacity) &&
      decide (1 ≤ min 1 (lenFromBits (p9Ready.lsbs ps)).toNat) && (State.positions (8 * 1) u).isSome)
    (by decide +kernel)
  simp only [Bool.and_eq_true, decide_eq_true_eq] at hu
  obtain ⟨⟨h1, h2⟩, h3⟩ := hu
  obtain ⟨⟨qs, v⟩, hq⟩ := Option.isSome_iff_exists.1 h3
  exact ⟨⟨by decide, rfl, by decide, ps, u, h, h1, h2, qs, v, hq⟩, by decide +kernel,
    witness_ExtractLengthFaults.2.2⟩

theorem witness_HangBlocksTheHost :
    (({ stuck with hung := true }).move (.read32 0x04)).hung = true ∧
    (({ stuck with hung := true }).move (.read32 0x04)).host = [.read32 0x04] ∧
    (({ stuck with hung := true }).move .reset).host = [.reset] := by decide

/-- An address named twice, with another cell behind; the last address of IMGMEM; an address not named. -/
theorem witness_PowerLossGivesResetValues :
    (small.move (.powerCycle [(0, 1#8), (0, 2#8), (1, 3#8)] [] [(2 ^ 41 - 1, 3#8)])).host =
      [.powerCycle ([(0, 1#8)] ++ (0, 2#8) :: [(1, 3#8)]) [] ([] ++ (2 ^ 41 - 1, 3#8) :: [])] ∧
    (0 : Nat) < 2 ^ 32 ∧ (2 ^ 41 - 1 : Nat) < 2 ^ 41 ∧ (∀ c ∈ [((1 : Nat), (3#8 : Byte))], c.1 ≠ 0) ∧
    (∀ c ∈ [((2 ^ 41 - 1 : Nat), (3#8 : Byte))], c.1 ≠ 0) ∧
    holds (step (small.move (.powerCycle [(0, 1#8), (0, 2#8), (1, 3#8)] [] [(2 ^ 41 - 1, 3#8)])))
      (fun t => t.keymem == [(0, 2#8), (1, 3#8)] && t.imgmem == [(2 ^ 41 - 1, 3#8)]) = true := by decide

theorem witness_IdleBlockKeepsItsState : small.host = [] := by decide

/-- A state that meets the invariant and steps. -/
theorem witness_StepKeepsTheInvariant :
    (p2.move (.write32 0x00 2#32)).Inv ∧ ∃ t, step (p2.move (.write32 0x00 2#32)) = .next t := by
  obtain ⟨t, h, -⟩ := exists_of_holds (o := step (p2.move (.write32 0x00 2#32))) (f := fun _ => true)
    (by decide +kernel)
  refine ⟨⟨⟨by decide, by decide, by decide, by decide⟩, ?_, ?_⟩, t, h⟩
  · exact ⟨by decide, by decide, by decide, by decide, by decide, by decide⟩
  · exact ⟨by decide, by decide, by decide, by decide, by decide, by decide⟩

end Sys2Proof.Tests
end

section
/-!
PROOFS. The configuration lock (spec/10_state.md R33): what a register write stores, phase by phase, and the host's
move that makes it.
-/

namespace Sys2Proof.Machine

/-- R33 outside `Idle`: the write is ignored. -/
theorem State.writeReg_of_ne_idle {s : State} (hp : s.phase ≠ .idle) (r : WindowReg) (v : Word32) :
    s.writeReg r v = s := if_neg hp

section InIdle
variable {s : State} (hp : s.phase = .idle) (v : Word32)
include hp

theorem State.writeReg_keyLen_of_idle : s.writeReg .keyLen v = { s with keyLen := v } := if_pos hp

theorem State.writeReg_msgLen_of_idle : s.writeReg .msgLen v = { s with msgLen := v } := if_pos hp

theorem State.writeReg_pixelCount_of_idle : s.writeReg .pixelCount v = { s with pixelCount := v } := if_pos hp

/-- `CHANCFG` keeps bits 15:0 (R23). -/
theorem State.writeReg_chancfg_of_idle :
    s.writeReg .chancfg v = { s with usableCh := v.extractLsb' 0 8, pad := v.extractLsb' 8 8 } := if_pos hp

end InIdle

/-- The move that writes an aligned word of the window, other than `CMD`, makes that register write. -/
theorem step_write32 {s : State} {rest : List HostMove} {off : Nat} {v : Word32} (hu : s.hung = false)
    (hh : s.host = .write32 off v :: rest) (h4 : off % 4 = 0) (hw : off < 0x100) (hc : regAt off ≠ .cmd) :
    step s = .next ((s.popMove rest).writeReg (regAt off) v) := by
  rw [step_move hu hh, hostMove, registerAccess_of_aligned h4 hw, if_neg hc]

/-- The four offsets of the configuration registers (R18). -/
theorem regAt_configuration :
    regAt 0x0C = .keyLen ∧ regAt 0x10 = .msgLen ∧ regAt 0x14 = .pixelCount ∧ regAt 0x18 = .chancfg := by decide

/-- Settles O46: the move makes the register write at its offset, and that is ignored outside `Idle`. -/
theorem configurationLock : Obligations.ConfigurationLock := by
  intro s rest off v hu hh hoff
  obtain ⟨hkey, hmsg, hpix, hchan⟩ := regAt_configuration
  have hstep : step s = .next ((s.popMove rest).writeReg (regAt off) v) := by
    rcases hoff with rfl | rfl | rfl | rfl <;> exact step_write32 hu hh (by decide) (by decide) (by decide)
  refine ⟨fun hp => ?_, fun hp h => ?_, fun hp h => ?_, fun hp h => ?_, fun hp h => ?_⟩
  · rw [hstep, State.writeReg_of_ne_idle (s := s.popMove rest) hp, State.popMove]
  · rw [hstep, h, hkey, State.writeReg_keyLen_of_idle (s := s.popMove rest) hp, State.popMove]
  · rw [hstep, h, hmsg, State.writeReg_msgLen_of_idle (s := s.popMove rest) hp, State.popMove]
  · rw [hstep, h, hpix, State.writeReg_pixelCount_of_idle (s := s.popMove rest) hp, State.popMove]
  · rw [hstep, h, hchan, State.writeReg_chancfg_of_idle (s := s.popMove rest) hp, State.popMove]

end Sys2Proof.Machine
end

section
/-!
PROOFS. The address of a position in IMGMEM (spec/20_memory.md R45): the stride divides it into pixel and channel, so
it names one position of the geometry, and the register widths bound it.
-/

namespace Sys2Proof.Machine

section InGeometry
variable {s : State} {p : Position} (hp : s.inGeometry p)
include hp

/-- A channel of the geometry lies inside the stride. -/
theorem State.ch_lt_stride : p.ch.toNat < s.stride := Nat.lt_add_right _ hp.2

/-- The pixel and the channel are the quotient and the remainder of the address by the stride. -/
theorem State.lsbAddr_div_mod_stride :
    s.lsbAddr p / s.stride = p.pix.toNat ∧ s.lsbAddr p % s.stride = p.ch.toNat := by
  have hch := State.ch_lt_stride hp
  exact (Nat.div_mod_unique (Nat.zero_lt_of_lt hch)).2 ⟨by rw [State.lsbAddr, Nat.mul_comm, Nat.add_comm], hch⟩

theorem State.eq_of_lsbAddr_eq {q : Position} (hq : s.inGeometry q) (h : s.lsbAddr p = s.lsbAddr q) : p = q := by
  obtain ⟨hpPix, hpCh⟩ := State.lsbAddr_div_mod_stride hp
  obtain ⟨hqPix, hqCh⟩ := State.lsbAddr_div_mod_stride hq
  have hpix : p.pix = q.pix := BitVec.eq_of_toNat_eq (by rw [← hpPix, ← hqPix, h])
  have hch : p.ch = q.ch := BitVec.eq_of_toNat_eq (by rw [← hpCh, ← hqCh, h])
  cases p
  cases q
  exact congrArg₂ Position.mk hpix hch

/-- Pixel, stride and channel are at most those of the last position of the largest geometry. -/
theorem State.lsbAddr_le : s.lsbAddr p ≤ (2 ^ 32 - 2) * 510 + 254 := by
  obtain ⟨hpix, hch⟩ := hp
  have hP := s.pixelCount.isLt
  have hC := s.usableCh.isLt
  have hpad := s.pad.isLt
  have hstride : s.stride ≤ 510 := by rw [State.stride]; omega
  exact Nat.add_le_add (Nat.mul_le_mul (by omega) hstride) (by omega)

end InGeometry

/-- Settles O31: division by the stride gives injectivity, the register widths the bound; the largest geometry at its
last position reaches it. -/
theorem addressesOfPositionsAreDistinct : Obligations.AddressesOfPositionsAreDistinct := by
  refine ⟨fun s p hpix hch => ?_,
    { State.reset with pixelCount := 0xFFFFFFFF#32, usableCh := 255#8, pad := 255#8 }, ⟨0xFFFFFFFE#32, 254#8⟩, by decide⟩
  have hp : s.inGeometry p := ⟨hpix, hch⟩
  have hle := State.lsbAddr_le hp
  exact ⟨rfl, hle, hle.trans_lt (by decide), fun q hqPix hqCh => State.eq_of_lsbAddr_eq hp ⟨hqPix, hqCh⟩⟩

end Sys2Proof.Machine
end

section
/-!
PROOFS. The decoder by the encoder (spec/30_encoding.md R60 to R63): the rows of the opcode map are the words of the
seven commands, so a word decodes to a command exactly when it is that command's word, and the two fields of such a
word tell why any other is refused.
-/

namespace Sys2Proof

/-! ### The fields of a command word (R60) -/

theorem Cmd32.ofWord_toWord (c : Cmd32) : Cmd32.ofWord c.toWord = c :=
  congrArg₂ Cmd32.mk BitVec.extractLsb'_append_eq_left BitVec.extractLsb'_append_eq_right

theorem Cmd32.ofWord_encode (i : Instr) : Cmd32.ofWord (encode i) = ⟨0#24, opcodeOf i⟩ := Cmd32.ofWord_toWord _

theorem extractLsb'_zero_encode (i : Instr) : (encode i).extractLsb' 8 24 = 0#24 :=
  congrArg Cmd32.zero (Cmd32.ofWord_encode i)

theorem extractLsb'_opcode_encode (i : Instr) : (encode i).extractLsb' 0 8 = opcodeOf i :=
  congrArg Cmd32.opcode (Cmd32.ofWord_encode i)

theorem opcodeOf_assigned (i : Instr) : opcodeOf i ≠ 0#8 ∧ (opcodeOf i).toNat < 8 := by
  cases i <;> decide

/-! ### The rows of the opcode map (R61, R62) -/

/-- The opcode map has one row for each command: the command's word under a mask of all ones. -/
theorem mem_opcodeTable_iff {r : OpRow} : r ∈ opcodeTable ↔ r = ⟨r.instr, encode r.instr, 0xFFFFFFFF#32⟩ := by
  constructor
  · have hrows : ∀ r ∈ opcodeTable, r = ⟨r.instr, encode r.instr, 0xFFFFFFFF#32⟩ := by decide
    exact hrows r
  · intro h
    have hmem : ∀ i, ⟨i, encode i, 0xFFFFFFFF#32⟩ ∈ opcodeTable := fun i => by cases i <;> decide
    rw [h]
    exact hmem r.instr

theorem pattern_of_mem_opcodeTable {r : OpRow} (hr : r ∈ opcodeTable) : r.pattern = encode r.instr :=
  congrArg OpRow.pattern (mem_opcodeTable_iff.1 hr)

theorem exists_row_iff_eq_encode {w : Word32} {i : Instr} :
    (∃ r ∈ opcodeTable, r.instr = i ∧ w = r.pattern) ↔ w = encode i := by
  constructor
  · rintro ⟨r, hr, rfl, hw⟩
    rw [hw, pattern_of_mem_opcodeTable hr]
  · intro hw
    exact ⟨⟨i, encode i, 0xFFFFFFFF#32⟩, mem_opcodeTable_iff.2 rfl, rfl, hw⟩

/-- The mask as the opcode map spells it. -/
theorem and_ones_eq_self (w : Word32) : w &&& 0xFFFFFFFF#32 = w := BitVec.and_allOnes

theorem OpRow.accepts_iff_of_mem {r : OpRow} (hr : r ∈ opcodeTable) (w : Word32) :
    r.accepts w = true ↔ w = encode r.instr := by
  rw [mem_opcodeTable_iff.1 hr, OpRow.accepts, and_ones_eq_self, beq_iff_eq]

/-! ### Decoding (R61, R63) -/

@[simp] theorem decode_encode (i : Instr) : decode (encode i) = .command i := by
  cases i <;> rfl

theorem decode_of_ne_encode {w : Word32} (h : ∀ i, w ≠ encode i) : decode w = .illegal (illegalReason w) := by
  have hnone : opcodeTable.find? (fun r => r.accepts w) = none :=
    List.find?_eq_none.2 fun r hr hacc => h r.instr ((OpRow.accepts_iff_of_mem hr w).1 hacc)
  rw [decode, hnone]

theorem decode_eq_command_iff {w : Word32} {i : Instr} : decode w = .command i ↔ w = encode i := by
  constructor
  · intro h
    by_cases hw : ∃ j, w = encode j
    · obtain ⟨j, rfl⟩ := hw
      rw [decode_encode, Decoded.command.injEq] at h
      rw [h]
    · rw [decode_of_ne_encode (not_exists.1 hw)] at h
      cases h
  · rintro rfl
    exact decode_encode i

theorem illegalReason_of_zero_ne {w : Word32} (h : w.extractLsb' 8 24 ≠ 0#24) :
    illegalReason w = .zeroFieldSet (w.extractLsb' 8 24) := by
  simp [illegalReason, Cmd32.zeroFieldClear, Cmd32.ofWord, h]

theorem illegalReason_of_zero_eq {w : Word32} (h : w.extractLsb' 8 24 = 0#24) :
    illegalReason w = .reservedOpcode (w.extractLsb' 0 8) := by
  simp [illegalReason, Cmd32.zeroFieldClear, Cmd32.ofWord, h]

theorem ne_encode_of_zero_ne {w : Word32} (h : w.extractLsb' 8 24 ≠ 0#24) (i : Instr) : w ≠ encode i := by
  rintro rfl
  exact h (extractLsb'_zero_encode i)

theorem ne_encode_of_opcode_reserved {w : Word32} (h : w.extractLsb' 0 8 = 0#8 ∨ 8 ≤ (w.extractLsb' 0 8).toNat)
    (i : Instr) : w ≠ encode i := by
  rintro rfl
  obtain ⟨hne, hlt⟩ := opcodeOf_assigned i
  rw [extractLsb'_opcode_encode] at h
  rcases h with h | h
  · exact hne h
  · omega

/-- Settles O1: a row's match value is its command's word, and the decoder answers a command at its word only. -/
theorem decodeIsTheMatchingRow : Obligations.DecodeIsTheMatchingRow := by
  refine ⟨fun w i => ?_, fun w i => ?_, fun w r hr r' hr' h h' => ?_, fun w h => ⟨illegalReason w, ?_⟩⟩
  · rw [and_ones_eq_self, exists_row_iff_eq_encode, decode_eq_command_iff]
  · rw [exists_row_iff_eq_encode, decode_eq_command_iff]
  · have hcmd : ∀ q ∈ opcodeTable, w = q.pattern → decode w = .command q.instr := fun q hq hw =>
      decode_eq_command_iff.2 (hw.trans (pattern_of_mem_opcodeTable hq))
    have hinstr : r.instr = r'.instr := Decoded.command.inj ((hcmd r hr h).symm.trans (hcmd r' hr' h'))
    rw [mem_opcodeTable_iff.1 hr, mem_opcodeTable_iff.1 hr', hinstr]
  · refine decode_of_ne_encode fun i hi => ?_
    obtain ⟨r, hr, -, hw⟩ := exists_row_iff_eq_encode.2 hi
    exact h r hr hw

/-- Settles O2: neither kind of word is a command's word, because of its `ZERO` or its `OPCODE` field; a word that is
none decodes to a refusal, and issuing that sets `STATUS.ILL`. -/
theorem illegalWordsAreRefusedByName : Obligations.IllegalWordsAreRefusedByName := by
  refine ⟨fun w hz => ?_, fun w hz hop => ?_, fun w s hne => ?_⟩
  · rw [decode_of_ne_encode (ne_encode_of_zero_ne hz), illegalReason_of_zero_ne hz]
  · rw [decode_of_ne_encode (ne_encode_of_opcode_reserved hop), illegalReason_of_zero_eq hz]
  · rw [Machine.issueCommand, decode_of_ne_encode hne, Machine.State.refuseIllegal]

end Sys2Proof
end

section
/-!
PROOFS. `INIT` (spec/40_dispatch_and_init.md R84): its one outcome, in every phase, and the reset state as a state that
it leaves alone.
-/

namespace Sys2Proof.Machine

@[simp] theorem accepts_init (p : Phase) : accepts .init p = true := rfl

/-- R84: `INIT` is never refused and never faults. -/
theorem exec_init (s : State) : exec .init s = .next s.freshInvocation := by
  rw [exec, execInit, if_pos (accepts_init s.phase)]

/-- Every field that `INIT` clears is clear after a reset (R36), and the others it keeps. -/
@[simp] theorem State.freshInvocation_hardwareReset (s : State) :
    s.hardwareReset.freshInvocation = s.hardwareReset := rfl

/-- Settles O10: the word is `INIT`'s encoding, and `INIT` answers the fresh invocation, which is the same state where
the state is that of a reset. -/
theorem initStartsAFreshInvocation : Obligations.InitStartsAFreshInvocation := by
  have hword : 0x00000001#32 = encode .init := by decide
  refine ⟨decode_eq_command_iff.2 hword, fun s => ?_, fun s => ?_⟩
  · rw [exec_init, State.freshInvocation, Quad.zero]
  · rw [exec_init, State.freshInvocation_hardwareReset]

end Sys2Proof.Machine
end

section
/-!
PROOFS. The seed lanes (spec/41_keyseeder.md R106): a lane is two big-endian words, each over four digest bytes in
descending order; read as a number this is the little-endian sum, read on a digest the byte-swapped chaining words.
-/

namespace Sys2Proof.Machine

theorem word32_append_toNat (x y : Word32) : (x ++ y).toNat = x.toNat * 2 ^ 32 + y.toNat := by
  rw [BitVec.toNat_append, ← Nat.shiftLeft_add_eq_or_of_lt y.isLt, Nat.shiftLeft_eq]

theorem append_bytes_eq_append_bigEndian32 (x : Word32) (b0 b1 b2 b3 : Byte) :
    x ++ b0 ++ b1 ++ b2 ++ b3 = x ++ bigEndian32 b0 b1 b2 b3 := by
  simp only [bigEndian32, BitVec.append_assoc, BitVec.cast_eq]

/-- The later four bytes are the upper half. -/
theorem lane_eq_append (d : List Byte) (i : Nat) :
    lane d i =
      bigEndian32 (d.getD (8 * i + 7) 0) (d.getD (8 * i + 6) 0) (d.getD (8 * i + 5) 0) (d.getD (8 * i + 4) 0) ++
        bigEndian32 (d.getD (8 * i + 3) 0) (d.getD (8 * i + 2) 0) (d.getD (8 * i + 1) 0) (d.getD (8 * i) 0) :=
  append_bytes_eq_append_bigEndian32 _ _ _ _ _

theorem lane_toNat (d : List Byte) (i : Nat) :
    (lane d i).toNat = ((List.range 8).map fun k => (d.getD (8 * i + k) 0).toNat * 2 ^ (8 * k)).sum := by
  rw [lane_eq_append, word32_append_toNat, bigEndian32_toNat, bigEndian32_toNat]
  simp only [List.sum_range_succ, List.range_zero, List.map_nil, List.sum_nil, Nat.add_zero]
  ring

/-- `bswap32` of R106: the word with its four bytes in the opposite order. -/
def byteSwap (w : Word32) : Word32 :=
  bigEndian32 (w.extractLsb' 0 8) (w.extractLsb' 8 8) (w.extractLsb' 16 8) (w.extractLsb' 24 8)

/-- R106 on a digest: the bytes `4j` to `4j + 3` are those of word `j`, the most significant first (R105). -/
theorem lanes_digestBytes (h : Chain) :
    lanes (digestBytes h) =
      ⟨byteSwap h.b ++ byteSwap h.a, byteSwap h.d ++ byteSwap h.c, byteSwap h.f ++ byteSwap h.e,
        byteSwap h.h ++ byteSwap h.g⟩ := by
  rw [lanes, lane_eq_append, lane_eq_append, lane_eq_append, lane_eq_append]
  rfl

/-- Settles O16: both clauses come from the lane as two big-endian words. -/
theorem lanesAreLittleEndian : Obligations.LanesAreLittleEndian :=
  ⟨lane_toNat, lanes_digestBytes⟩

end Sys2Proof.Machine
end

section
/-!
PROOFS. `KSEED` (spec/41_keyseeder.md R107): its outcome in `Idle` and its refusal elsewhere, and the rule's example
run on the model.
-/

namespace Sys2Proof.Machine

theorem exec_kseed_of_idle {s : State} (hp : s.phase = .idle) (hb : s.keyLen.toNat ≤ s.backing.key) :
    exec .kseed s = .next ((s.loadSeed (keySeed s.keyBytes)).toPhase .seedDerived) := by
  have hback : s.launchBacked .kseed = true := decide_eq_true hb
  rw [exec, execKseed, if_pos (accepts_kseed.2 hp), if_pos hback]

theorem exec_kseed_of_ne_idle {s : State} (hp : s.phase ≠ .idle) : exec .kseed s = .next s.refuseIllegal := by
  rw [exec, execKseed, if_neg (mt accepts_kseed.1 hp)]

theorem State.keyBytes_eq (s : State) :
    s.keyBytes = (List.range s.keyLen.toNat).map fun k => s.keymem.read k := rfl

/-! ### The example of R107: the key "abc" -/

theorem sha256_abc :
    sha256 [0x61#8, 0x62#8, 0x63#8] =
      [0xba#8, 0x78#8, 0x16#8, 0xbf#8, 0x8f#8, 0x01#8, 0xcf#8, 0xea#8, 0x41#8, 0x41#8, 0x40#8, 0xde#8, 0x5d#8, 0xae#8,
       0x22#8, 0x23#8, 0xb0#8, 0x03#8, 0x61#8, 0xa3#8, 0x96#8, 0x17#8, 0x7a#8, 0x9c#8, 0xb4#8, 0x10#8, 0xff#8, 0x61#8,
       0xf2#8, 0x00#8, 0x15#8, 0xad#8] := by decide +kernel

theorem keySeed_abc :
    keySeed [0x61#8, 0x62#8, 0x63#8] =
      ⟨0xeacf018fbf1678ba#64, 0x2322ae5dde404141#64, 0x9c7a1796a36103b0#64, 0xad1500f261ff10b4#64⟩ := by
  rw [keySeed, sha256_abc]
  decide

theorem State.keyBytes_of_three {s : State} (hlen : s.keyLen = 3#32) :
    s.keyBytes = [s.keymem.read 0, s.keymem.read 1, s.keymem.read 2] := by
  rw [State.keyBytes_eq, hlen]
  rfl

/-- What the host reads at `SEED0_LO` (R18). -/
theorem State.readReg_seed0Lo (s : State) : s.readReg (regAt 0x40) = lo32 s.seed.w0 := rfl

/-- What the host reads at `SEED0_HI` (R18). -/
theorem State.readReg_seed0Hi (s : State) : s.readReg (regAt 0x44) = hi32 s.seed.w0 := rfl

/-- Settles O12: the outcome in `Idle` and the refusal elsewhere; the example is that outcome on the key "abc". -/
theorem kseedLoadsTheSeedOfTheKey : Obligations.KseedLoadsTheSeedOfTheKey := by
  have hword : 0x00000002#32 = encode .kseed := by decide
  refine ⟨decode_eq_command_iff.2 hword, fun s hp hb => ?_, fun s hp => ?_, sha256_abc,
    fun s hp hlen hb h0 h1 h2 => ?_⟩
  · rw [exec_kseed_of_idle hp hb, keySeed, State.keyBytes_eq, State.loadSeed, State.toPhase]
  · rw [exec_kseed_of_ne_idle hp, State.refuseIllegal]
  · have hback : s.keyLen.toNat ≤ s.backing.key := by rwa [hlen]
    have hkey : s.keyBytes = [0x61#8, 0x62#8, 0x63#8] := by rw [State.keyBytes_of_three hlen, h0, h1, h2]
    have hexec := exec_kseed_of_idle hp hback
    rw [hkey, keySeed_abc] at hexec
    refine ⟨_, hexec, by rw [State.loadSeed, State.toPhase], ?_⟩
    rw [State.readReg_seed0Lo, State.readReg_seed0Hi, State.toPhase_seed, State.loadSeed_seed]
    decide

end Sys2Proof.Machine
end

section
/-!
PROOFS. The reduction of a draw to a position (spec/42_positionstream.md R126, R127): remainder and quotient by way of
`r mod Capacity`, and the exhaustion test of R128 that keeps both divisors from 0.
-/

namespace Sys2Proof.Machine

/-- Settles O20: the two parts are remainders, so they lie in the geometry, and Mathlib's `mod_mul_right` lemmas give
the form by way of `q`. -/
theorem reductionOfADraw : Obligations.ReductionOfADraw := by
  refine ⟨fun P C r hP hC => ?_, by decide⟩
  obtain ⟨hpix, hch⟩ := reducePos_toNat r hP hC
  rw [hpix, hch]
  exact ⟨rfl, rfl, Nat.mod_lt _ hP, Nat.mod_lt _ hC, (Nat.mod_mul_right_mod _ _ _).symm,
    (Nat.mod_mul_right_div_self _ _ _).symm⟩

theorem State.not_exhausted_of_nextPos {s : State} (h : s.nextPos ≠ .exhausted) : s.exhausted = false :=
  Bool.eq_false_iff.2 (mt (State.nextPos_eq_exhausted_iff s).2 h)

/-- Settles O21: where the exhaustion test passes, `ISSUED` is below Capacity, and both its factors are positive. -/
theorem reductionNeverDividesByZero : Obligations.ReductionNeverDividesByZero := by
  intro s h
  have hfree : s.exhausted = false := State.not_exhausted_of_nextPos h
  have hlt : s.issued.toNat < s.capacity := (State.not_exhausted_iff s).1 hfree
  obtain ⟨hP, hC⟩ := State.geometry_pos hfree
  exact ⟨hlt, Nat.mul_pos hP hC, hP, hC⟩

end Sys2Proof.Machine
end

section
/-!
PROOFS. `PSOPEN` (spec/42_positionstream.md R120): its outcome in `SeedDerived` and its refusal elsewhere.
-/

namespace Sys2Proof.Machine

theorem exec_psopen_of_seedDerived {s : State} (hp : s.phase = .seedDerived) :
    exec .psopen s = .next (s.openStream.toPhase .positionStreamReady) := by
  rw [exec, execPsopen, if_pos (accepts_psopen.2 hp)]

theorem exec_psopen_of_ne_seedDerived {s : State} (hp : s.phase ≠ .seedDerived) :
    exec .psopen s = .next s.refuseIllegal := by
  rw [exec, execPsopen, if_neg (mt accepts_psopen.1 hp)]

/-- Settles O17: the word is `PSOPEN`'s encoding; the outcome in `SeedDerived` and the refusal elsewhere. -/
theorem psopenLoadsTheGenerator : Obligations.PsopenLoadsTheGenerator := by
  have hword : 0x00000003#32 = encode .psopen := by decide
  refine ⟨decode_eq_command_iff.2 hword, fun s hp => ?_, fun s hp => ?_⟩
  · rw [exec_psopen_of_seedDerived hp, State.openStream, State.toPhase]
  · rw [exec_psopen_of_ne_seedDerived hp, State.refuseIllegal]

end Sys2Proof.Machine
end

section
/-!
PROOFS. `DRAW` (spec/42_positionstream.md R122, R124): the draw step in terms of the old words, the outcome in
`PositionStreamReady` and the refusal elsewhere.
-/

namespace Sys2Proof.Machine

/-! ### The closed form of the draw step (R122) -/

theorem rotl64_eq_rotateLeft (a : Word64) {k : Nat} (h : k < 64) : rotl64 a k = a.rotateLeft k := by
  rw [BitVec.rotateLeft, Nat.mod_eq_of_lt h]
  rfl

theorem drawOutput_eq (q : Quad) : drawOutput q = (q.w0 + q.w3).rotateLeft 23 + q.w0 := by
  rw [drawOutput, rotl64_eq_rotateLeft _ (by decide), Config.rotOut]

/-- Each line sees the writes before it; over the old words this is a chain of exclusive ors. -/
theorem drawState_eq (q : Quad) :
    drawState q =
      ⟨q.w0 ^^^ q.w3 ^^^ q.w1, q.w1 ^^^ q.w2 ^^^ q.w0, q.w2 ^^^ q.w0 ^^^ (q.w1 <<< 17),
        (q.w3 ^^^ q.w1).rotateLeft 45⟩ := by
  have hrot : rotl64 (q.w3 ^^^ q.w1) Config.rotS3 = (q.w3 ^^^ q.w1).rotateLeft 45 :=
    rotl64_eq_rotateLeft _ (by decide)
  rw [drawState, hrot, BitVec.xor_assoc q.w0, BitVec.xor_assoc q.w1, Config.shiftT]

/-! ### The command (R124) -/

theorem exec_draw_of_ready {s : State} (hp : s.phase = .positionStreamReady) : exec .draw s = .next s.nextDraw := by
  rw [exec, execDraw, if_pos (accepts_draw.2 hp)]

theorem exec_draw_of_ne_ready {s : State} (hp : s.phase ≠ .positionStreamReady) :
    exec .draw s = .next s.refuseIllegal := by
  rw [exec, execDraw, if_neg (mt accepts_draw.1 hp)]

/-- Settles O18: the word is `DRAW`'s encoding; the outcome in `PositionStreamReady` is the closed form of the draw
step, and elsewhere the command is refused. -/
theorem drawAdvancesTheGenerator : Obligations.DrawAdvancesTheGenerator := by
  have hword : 0x00000004#32 = encode .draw := by decide
  refine ⟨decode_eq_command_iff.2 hword, fun s hp => ?_, fun s hp => ?_⟩
  · rw [exec_draw_of_ready hp, State.nextDraw, State.drawn, drawOutput_eq, drawState_eq]
  · rw [exec_draw_of_ne_ready hp, State.refuseIllegal]

end Sys2Proof.Machine
end

section
/-!
PROOFS. The BitPacker (spec/43_bitpacker.md R150 to R154): which bit of the length or of a message byte `BitAt` sends,
and the number the serial assembly of bits computes.
-/

namespace Sys2Proof.Machine

/-! ### The encode side (R150 to R152) -/

theorem State.bitAt_of_lt (s : State) {i : Nat} (hi : i < 32) : s.bitAt i = s.msgLen.getLsbD (31 - i) := by
  rw [State.bitAt, Config.lenWidth, if_pos hi]

/-- Quotient and remainder by 8 take the index behind the length field apart into byte and bit. -/
theorem State.bitAt_message (s : State) (j : Nat) {k : Nat} (hk : k < 8) :
    s.bitAt (32 + 8 * j + k) = (s.msgmem.read j).getLsbD (7 - k) := by
  have hi : ¬ 32 + 8 * j + k < 32 := by omega
  have hj : (32 + 8 * j + k - 32) / 8 = j := by omega
  have hb : (32 + 8 * j + k - 32) % 8 = k := by omega
  simp only [State.bitAt, Config.lenWidth, if_neg hi, hj, hb, State.readByte_msgmem]

/-- Settles O28: the two branches of `BitAt`. -/
theorem bitStreamIsMostSignificantFirst : Obligations.BitStreamIsMostSignificantFirst :=
  ⟨fun s _ hi => s.bitAt_of_lt (Nat.lt_succ_of_le hi), fun s j _ hk => s.bitAt_message j (Nat.lt_succ_of_le hk)⟩

/-! ### The decode side (R153, R154) -/

/-- The number R153 and R154 give to `n` bits `b[0..n-1]`: the sum of `b[i] * 2^(n - 1 - i)`. -/
def msbFirstValue (bits : List Bool) : Nat :=
  ((List.range bits.length).map fun i => (bits.getD i false).toNat * 2 ^ (bits.length - 1 - i)).sum

/-- One more bit doubles the weight of each bit before it. -/
theorem msbFirstValue_concat (bits : List Bool) (b : Bool) :
    msbFirstValue (bits ++ [b]) = 2 * msbFirstValue bits + b.toNat := by
  have hterm : ∀ i ∈ List.range bits.length,
      ((bits ++ [b]).getD i false).toNat * 2 ^ (bits.length - i) =
        2 * ((bits.getD i false).toNat * 2 ^ (bits.length - 1 - i)) := by
    intro i hi
    have hlt := List.mem_range.1 hi
    have hexp : bits.length - i = bits.length - 1 - i + 1 := by omega
    rw [List.getD_append _ _ _ _ hlt, hexp]
    ring
  have hlast : ((bits ++ [b]).getD bits.length false).toNat * 2 ^ (bits.length - bits.length) = b.toNat := by simp
  rw [msbFirstValue, List.length_append, List.length_singleton, Nat.add_sub_cancel, List.sum_range_succ, hlast,
    List.map_congr_left hterm, List.sum_map_mul_left, msbFirstValue]

theorem msbFirstValue_lt (bits : List Bool) : msbFirstValue bits < 2 ^ bits.length := by
  induction bits using List.reverseRecOn with
  | nil => decide
  | append_singleton bits b ih =>
    have hb := b.toNat_lt
    rw [msbFirstValue_concat, List.length_append, List.length_singleton, Nat.pow_succ]
    omega

/-- One round of the serial assembly, while the top bit is still free. -/
theorem toNat_shiftLeft_one_or_bitWord {w : Nat} {acc : BitVec w} (b : Bool) (h : 2 * acc.toNat + 1 < 2 ^ w) :
    (acc <<< 1 ||| bitWord w b).toNat = 2 * acc.toNat + b.toNat := by
  have hb : b.toNat < 2 := b.toNat_lt
  have hbit : (bitWord w b).toNat = b.toNat := by
    rw [bitWord, BitVec.toNat_setWidth, BitVec.toNat_ofBool, Nat.mod_eq_of_lt (by omega)]
  have hshift : (acc <<< 1).toNat = acc.toNat <<< 1 := by
    rw [BitVec.toNat_shiftLeft, Nat.mod_eq_of_lt (by rw [Nat.shiftLeft_eq]; omega)]
  rw [BitVec.toNat_or, hshift, hbit, ← Nat.shiftLeft_add_eq_or_of_lt hb, Nat.shiftLeft_eq]
  omega

theorem toNat_assemble {w : Nat} {bits : List Bool} (h : bits.length ≤ w) :
    (assemble w bits).toNat = msbFirstValue bits := by
  induction bits using List.reverseRecOn with
  | nil => exact BitVec.toNat_zero
  | append_singleton bits b ih =>
    rw [List.length_append, List.length_singleton] at h
    have hacc : (assemble w bits).toNat = msbFirstValue bits := ih (by omega)
    have hroom : 2 * (assemble w bits).toNat + 1 < 2 ^ w := by
      have hlt := msbFirstValue_lt bits
      have hpow : 2 ^ (bits.length + 1) ≤ 2 ^ w := Nat.pow_le_pow_right (by decide) h
      rw [Nat.pow_succ] at hpow
      omega
    have hround : assemble w (bits ++ [b]) = assemble w bits <<< 1 ||| bitWord w b := List.foldl_concat ..
    rw [hround, toNat_shiftLeft_one_or_bitWord b hroom, hacc, msbFirstValue_concat]

/-- Settles O29: the serial assembly of at most `w` bits on `w` bits loses none of them, so it computes the sum. -/
theorem bitsAssembleMostSignificantFirst : Obligations.BitsAssembleMostSignificantFirst := by
  refine ⟨fun bits h => ?_, fun bits h => ?_⟩
  · rw [lenFromBits, toNat_assemble h.le, msbFirstValue, h]
  · rw [byteFromBits, toNat_assemble h.le, msbFirstValue, h]

end Sys2Proof.Machine
end

section
/-!
PROOFS. The positions of a walk (spec/42_positionstream.md R128, R129) as `EMBED` and `EXTRACT` need them: they lie in
the geometry, none comes twice, each counts once, and so their addresses in IMGMEM (R45) are distinct.
-/

namespace Sys2Proof.Machine

/-- `ISSUED` stays below Capacity before it is raised, so it does not wrap. -/
theorem State.issued_toNat_of_nextPos {s t : State} {p : Position} (h : s.nextPos = .issued p t) :
    t.issued.toNat = s.issued.toNat + 1 := by
  obtain ⟨⟨r, q, rfl⟩, -, -, hfree⟩ := State.nextPos_issued h
  have hlt : s.issued.toNat < s.capacity := (State.not_exhausted_iff s).1 hfree
  have hcap : s.capacity < 2 ^ 40 := s.capacity_lt
  exact BitVec.toNat_add_of_lt (x := s.issued) (y := 1#40) (lt_of_le_of_lt hlt hcap)

/-- Streams that agree, `DRAW` and `POS` too, make one walk: each state takes the stream registers the walk leaves. -/
theorem State.SameStream.positions_eq {n : Nat} {s t u : State} {ps : List Position} (h : s.SameStream t)
    (hdraw : s.draw = t.draw) (hpos : s.pos = t.pos) (hs : State.positions n s = some (ps, u)) :
    State.positions n t = some (ps, t.withStream u) := by
  obtain ⟨v, hv, huv, hdp⟩ := h.positions hs
  obtain ⟨huvDraw, huvPos⟩ := hdp hdraw hpos
  have hsame : t.withStream v = t.withStream u := by
    simp only [State.withStream, huv.prng, huv.used, huv.issued, huvDraw, huvPos]
  rw [hv, ← hsame, ← State.positions_withStream hv]

section Walk
variable {n : Nat} {s t : State} {ps : List Position} (h : State.positions n s = some (ps, t))
include h

theorem State.positions_issued_toNat : t.issued.toNat = s.issued.toNat + n := by
  induction n generalizing s ps with
  | zero => cases h; rfl
  | succ n ih =>
    obtain ⟨p, qs, u, hn, hq, rfl⟩ := State.positions_succ_eq_some_iff.1 h
    have hstep := State.issued_toNat_of_nextPos hn
    have hrest := ih hq
    omega

theorem State.positions_inGeometry : ∀ p ∈ ps, s.inGeometry p := by
  induction n generalizing s ps with
  | zero => cases h; simp
  | succ n ih =>
    obtain ⟨p, qs, u, hn, hq, rfl⟩ := State.positions_succ_eq_some_iff.1 h
    obtain ⟨⟨r, q, rfl⟩, -, hgeo, -⟩ := State.nextPos_issued hn
    have hrest := ih hq
    exact List.forall_mem_cons.2 ⟨hgeo, hrest⟩

theorem State.positions_not_mem_used : ∀ p ∈ ps, p ∉ s.used := by
  induction n generalizing s ps with
  | zero => cases h; simp
  | succ n ih =>
    obtain ⟨p, qs, u, hn, hq, rfl⟩ := State.positions_succ_eq_some_iff.1 h
    obtain ⟨⟨r, q, rfl⟩, hnew, -, -⟩ := State.nextPos_issued hn
    exact List.forall_mem_cons.2 ⟨hnew, fun x hx hused => ih hq x hx (mem_usedInsert.2 (.inr hused))⟩

/-- Each position is in `USED` when the next one is drawn. -/
theorem State.positions_nodup : ps.Nodup := by
  induction n generalizing s ps with
  | zero => cases h; exact List.nodup_nil
  | succ n ih =>
    obtain ⟨p, qs, u, hn, hq, rfl⟩ := State.positions_succ_eq_some_iff.1 h
    obtain ⟨⟨r, q, rfl⟩, -⟩ := State.nextPos_issued hn
    exact List.nodup_cons.2 ⟨fun hp => State.positions_not_mem_used hq p hp (mem_usedInsert.2 (.inl rfl)), ih hq⟩

theorem State.addresses_nodup : (s.addresses ps).Nodup :=
  (State.positions_nodup h).map_on fun _ hp _ hq heq =>
    State.eq_of_lsbAddr_eq (State.positions_inGeometry h _ hp) (State.positions_inGeometry h _ hq) heq

end Walk

end Sys2Proof.Machine
end

section
/-!
PROOFS. `EMBED` where its positions can be issued (spec/44_embedding_engine.md R160, R162): the state it answers, and
the byte it leaves at each address.
-/

namespace Sys2Proof.Machine

theorem withLsb_eq (v : Byte) (b : Bool) : withLsb v b = (v &&& 0xFE#8) ||| (if b then 0x01#8 else 0x00#8) := by
  cases b <;> rfl

theorem State.launchBacked_embed {s : State} (hmsg : s.msgLen.toNat ≤ s.backing.msg)
    (himg : s.pixelCount.toNat * s.stride ≤ s.backing.img) : s.launchBacked .embed = true := by
  simp [State.launchBacked, hmsg, himg]

/-- The loop of `EMBED` over a walk that can be made: `Done`, and the bits written into the image. -/
theorem embedLoop_outcome_of_positions {n : Nat} {s t : State} {ps : List Position}
    (h : State.positions n s = some (ps, t)) :
    (embedLoop n 0 (s.toPhase .embedding)).outcome =
      .next { t with phase := .done, imgmem := s.embedImage 0 ps s.imgmem } := by
  rw [embedLoop_of_positions 0 (State.positions_toPhase .embedding h), State.embedImage_toPhase]
  rfl

theorem exec_embed_of_positions {s t : State} {ps : List Position} (hp : s.phase = .positionStreamReady)
    (hroom : s.streamLen + s.issued.toNat ≤ s.capacity) (hb : s.launchBacked .embed = true)
    (h : State.positions s.streamLen s = some (ps, t)) :
    exec .embed s = .next { t with phase := .done, imgmem := s.embedImage 0 ps s.imgmem } := by
  rw [exec, execEmbed, if_pos (accepts_embed.2 hp), if_pos ((s.hasRoom_iff _).2 hroom), if_pos hb,
    embedLoop_outcome_of_positions h]

/-- Settles O32: the loop writes the image of `State.embedImage`, and since the addresses are distinct each holds the
bit written there. -/
theorem embedWritesTheBitStream : Obligations.EmbedWritesTheBitStream := by
  intro s t ps hp _ hwf hroom hmsg himg hpos
  refine ⟨State.positions_withStream hpos, State.positions_length hpos, s.embedImage 0 ps s.imgmem,
    exec_embed_of_positions hp hroom (State.launchBacked_embed hmsg himg) hpos, fun i p hi => ?_,
    fun a ha => s.read_embedImage_other 0 ps s.imgmem ha⟩
  rw [s.read_embedImage_at 0 hwf (State.addresses_nodup hpos) hi, Nat.zero_add, withLsb_eq]

end Sys2Proof.Machine
end

section
/-!
PROOFS. The BitStream read back (spec/43_bitpacker.md R153, R154, R156): assembling the bits of a word, the most
significant first, gives the word, so the length field and each group of eight bits decode to what was packed.
-/

namespace Sys2Proof.Machine

/-- The first `k` bits of a word are the number it holds above the other bits. -/
theorem msbFirstValue_map_getLsbD {w : Nat} (x : BitVec w) {k : Nat} (hk : k ≤ w) :
    msbFirstValue ((List.range k).map fun i => x.getLsbD (w - 1 - i)) = x.toNat / 2 ^ (w - k) := by
  induction k with
  | zero => exact (Nat.div_eq_of_lt x.isLt).symm
  | succ k ih =>
    have hexp : w - k = w - 1 - k + 1 := by omega
    have hbit : (x.getLsbD (w - 1 - k)).toNat = x.toNat / 2 ^ (w - 1 - k) % 2 := Nat.toNat_testBit _ _
    have hhalf : x.toNat / 2 ^ (w - k) = x.toNat / 2 ^ (w - 1 - k) / 2 := by
      rw [hexp, Nat.pow_succ, Nat.div_div_eq_div_mul]
    rw [List.range_succ, List.map_append, List.map_singleton, msbFirstValue_concat, ih (by omega), hbit, hhalf,
      Nat.div_add_mod, Nat.sub_sub, Nat.add_comm 1 k]

theorem assemble_map_getLsbD {w : Nat} (x : BitVec w) :
    assemble w ((List.range w).map fun i => x.getLsbD (w - 1 - i)) = x := by
  apply BitVec.eq_of_toNat_eq
  rw [toNat_assemble (by simp), msbFirstValue_map_getLsbD x le_rfl, Nat.sub_self, Nat.pow_zero, Nat.div_one]

theorem State.lenFromBits_bitAt (s : State) : lenFromBits ((List.range 32).map s.bitAt) = s.msgLen := by
  have hbits : (List.range 32).map s.bitAt = (List.range 32).map fun i => s.msgLen.getLsbD (32 - 1 - i) :=
    List.map_congr_left fun i hi => s.bitAt_of_lt (List.mem_range.1 hi)
  rw [lenFromBits, hbits, assemble_map_getLsbD]

theorem State.byteFromBits_bitAt (s : State) (j : Nat) :
    byteFromBits ((List.range 8).map fun k => s.bitAt (32 + 8 * j + k)) = s.msgmem.read j := by
  have hbits : ((List.range 8).map fun k => s.bitAt (32 + 8 * j + k)) =
      (List.range 8).map fun k => (s.msgmem.read j).getLsbD (8 - 1 - k) :=
    List.map_congr_left fun k hk => s.bitAt_message j (List.mem_range.1 hk)
  rw [byteFromBits, hbits, assemble_map_getLsbD]

end Sys2Proof.Machine
end

section
/-!
PROOFS. `EXTRACT` where its positions can be issued (spec/44_embedding_engine.md R164, R167): the state it answers.
-/

namespace Sys2Proof.Machine

/-- A 32-bit length never exceeds the bound the walk is given. -/
theorem min_msgSpace_toNat (n : Word32) : min Config.msgSpace n.toNat = n.toNat :=
  Nat.min_eq_right n.isLt.le

/-- From the length bits on: `RLEN` takes the length, and the bytes of the LSBs go to MSGMEM. -/
theorem extractMessage_of_positions {s u : State} {qs : List Position} {bits : List Bool} {len : Word32}
    (hlen : lenFromBits bits = len) (hroom : 8 * len.toNat + s.issued.toNat ≤ s.capacity)
    (h : State.positions (8 * len.toNat) s = some (qs, u)) :
    extractMessage Config.msgSpace bits s =
      .finished { u with rlen := len, msgmem := writtenBytes len.toNat 0 (s.lsbs qs) s.msgmem } := by
  have hsame : s.SameStream (s.setRlen len) := ⟨rfl, rfl, rfl, rfl, rfl⟩
  have hwalk := hsame.positions_eq rfl rfl h
  have hfree : (s.setRlen len).hasRoom (8 * len.toNat) = true := (State.hasRoom_iff _ _).2 hroom
  have hu := State.positions_withStream h
  simp only [extractMessage, hlen, if_pos hfree, min_msgSpace_toNat]
  rw [extractBytes_of_positions 0 hwalk, hu]
  rfl

/-- The 32 length bits are the LSBs at the first 32 positions. -/
theorem extractWalk_of_positions {limit : Nat} {s t : State} {ps : List Position}
    (h : State.positions 32 s = some (ps, t)) : extractWalk limit s = extractMessage limit (s.lsbs ps) t := by
  rw [extractWalk, Config.lenWidth, readBits_of_positions h]

theorem State.launchBacked_extract {s : State} (hmsg : s.longestExtract ≤ s.backing.msg)
    (himg : s.pixelCount.toNat * s.stride ≤ s.backing.img) : s.launchBacked .extract = true := by
  simp [State.launchBacked, hmsg, himg]

theorem exec_extract_of_positions {s t u : State} {ps qs : List Position} {len : Word32}
    (hp : s.phase = .positionStreamReady) (hb : s.launchBacked .extract = true)
    (hpre : State.positions 32 s = some (ps, t)) (hlen : lenFromBits (s.lsbs ps) = len)
    (hroom : 8 * len.toNat + t.issued.toNat ≤ s.capacity)
    (hmsg : State.positions (8 * len.toNat) t = some (qs, u)) :
    exec .extract s =
      .next { u with phase := .done, rlen := len, msgmem := writtenBytes len.toNat 0 (s.lsbs qs) s.msgmem } := by
  have ht := State.positions_withStream hpre
  have hcap : t.capacity = s.capacity := by rw [ht]; rfl
  have hmem : t.msgmem = s.msgmem := by rw [ht]; rfl
  have hlsbs : (t.toPhase .extracting).lsbs qs = s.lsbs qs :=
    List.map_congr_left fun p _ => State.lsbAt_congr ht p
  have hbytes := extractMessage_of_positions (s := t.toPhase .extracting) hlen (by rwa [← hcap] at hroom)
    (State.positions_toPhase .extracting hmsg)
  have hbits : (s.toPhase .extracting).lsbs ps = s.lsbs ps := rfl
  rw [exec, execExtract, if_pos (accepts_extract.2 hp), if_pos hb,
    extractWalk_of_positions (State.positions_toPhase .extracting hpre), hbits, hbytes, hlsbs, State.toPhase_msgmem,
    hmem]
  rfl

end Sys2Proof.Machine
end

section
/-!
PROOFS. The round trip (spec/44_embedding_engine.md R169): `KSEED` and `PSOPEN` open the same stream for the same key,
so `EXTRACT` walks where `EMBED` did, finds the bits written there, and decodes them to the message.
-/

namespace Sys2Proof.Machine

/-! ### Commands one after another -/

theorem runCommands_cons_iff {i : Instr} {is : List Instr} {s v : State} :
    runCommands (i :: is) s = some v ↔ ∃ t, exec i s = .next t ∧ runCommands is t = some v := by
  cases h : exec i s with
  | next t => simp [runCommands, h]
  | fault r => cases r
  | refused r => simp [runCommands, h]

theorem runCommands_singleton_iff {i : Instr} {s v : State} : runCommands [i] s = some v ↔ exec i s = .next v := by
  rw [runCommands_cons_iff]
  simp [runCommands]

/-- The state `KSEED` and `PSOPEN` leave from `Idle` (R107, R120). -/
def State.opened (s : State) : State :=
  ((s.loadSeed (keySeed s.keyBytes)).toPhase .seedDerived).openStream.toPhase .positionStreamReady

/-- From `Idle`, an invocation that starts with `KSEED` and `PSOPEN` goes on from the opened stream, if the key is
backed. -/
theorem runCommands_kseed_psopen_iff {is : List Instr} {s v : State} (hp : s.phase = .idle) :
    runCommands (.kseed :: .psopen :: is) s = some v ↔
      s.keyLen.toNat ≤ s.backing.key ∧ runCommands is s.opened = some v := by
  have hopen := exec_psopen_of_seedDerived (s := (s.loadSeed (keySeed s.keyBytes)).toPhase .seedDerived) rfl
  constructor
  · intro h
    obtain ⟨t, hk, h⟩ := runCommands_cons_iff.1 h
    obtain ⟨x, ho, h⟩ := runCommands_cons_iff.1 h
    rcases execKseed_next hk with ⟨hne, -⟩ | ⟨-, hb, rfl⟩
    · exact absurd hp hne
    · rw [hopen] at ho
      cases ho
      exact ⟨of_decide_eq_true hb, h⟩
  · rintro ⟨hb, h⟩
    exact runCommands_cons_iff.2 ⟨_, exec_kseed_of_idle hp hb, runCommands_cons_iff.2 ⟨_, hopen, h⟩⟩

theorem State.keyBytes_congr {s u : State} (hlen : u.keyLen = s.keyLen)
    (h : ∀ k < s.keyLen.toNat, u.keymem.read k = s.keymem.read k) : u.keyBytes = s.keyBytes := by
  rw [State.keyBytes_eq, State.keyBytes_eq, hlen]
  exact List.map_congr_left fun k hk => h k (List.mem_range.1 hk)

/-- The same key and geometry open the same stream. -/
theorem State.opened_sameStream {s u : State} (hkey : u.keyBytes = s.keyBytes) (hP : u.pixelCount = s.pixelCount)
    (hC : u.usableCh = s.usableCh) : s.opened.SameStream u.opened :=
  ⟨congrArg keySeed hkey.symm, rfl, rfl, hP.symm, hC.symm⟩

/-! ### What an EMBED that ended in Done has done -/

/-- A loop of `EMBED` that leaves the phase `Done` has made all its rounds. -/
theorem embedLoop_finished_of_done {n i : Nat} {s t : State} (hs : s.phase = .embedding)
    (h : (embedLoop n i s).outcome = .next t) (hd : t.phase = .done) : ∃ u, embedLoop n i s = .finished u := by
  have hphase : (embedLoop n i s).state.phase = .embedding := by rw [embedLoop_frame n i s]; exact hs
  rcases Walk.outcome_next h with ⟨u, hw, -⟩ | ⟨u, hw, rfl⟩ | ⟨u, hw, rfl⟩
  · exact ⟨u, hw⟩
  · cases hd
  · rw [hw] at hphase
    rw [State.hang_phase, show u.phase = .embedding from hphase] at hd
    cases hd

/-- Its positions could be issued, and it left the image of `State.embedImage`. -/
theorem exec_embed_done {s t : State} (hp : s.phase = .positionStreamReady) (h : exec .embed s = .next t)
    (hd : t.phase = .done) :
    ∃ ps u, State.positions s.streamLen s = some (ps, u) ∧ s.streamLen + s.issued.toNat ≤ s.capacity ∧
      t = { u with phase := .done, imgmem := s.embedImage 0 ps s.imgmem } := by
  rcases execEmbed_next h with ⟨hne, -⟩ | ⟨-, -, rfl⟩ | ⟨-, hroom, -, hloop⟩
  · exact absurd hp hne
  · cases hd
  · obtain ⟨w, hw⟩ := embedLoop_finished_of_done rfl hloop hd
    obtain ⟨ps, x, hx⟩ := positions_of_embedLoop hw
    have hsame : (s.toPhase .embedding).SameStream s := ⟨rfl, rfl, rfl, rfl, rfl⟩
    have hwalk := hsame.positions_eq rfl rfl hx
    rw [embedLoop_outcome_of_positions hwalk] at hloop
    cases hloop
    exact ⟨ps, _, hwalk, (s.hasRoom_iff _).1 hroom, rfl⟩

/-! ### The bits found again -/

theorem getLsbD_zero_withLsb (v : Byte) (b : Bool) : (withLsb v b).getLsbD 0 = b := by
  rw [withLsb_eq]
  cases b <;> simp

/-- The positions of an image lie below `PIXEL_COUNT * (USABLE_CH + PAD)` (R45). -/
theorem State.lsbAddr_lt {s : State} {p : Position} (hp : s.inGeometry p) :
    s.lsbAddr p < s.pixelCount.toNat * s.stride := by
  have hpix : (p.pix.toNat + 1) * s.stride ≤ s.pixelCount.toNat * s.stride := Nat.mul_le_mul_right _ hp.1
  have hch := State.ch_lt_stride hp
  rw [Nat.succ_mul] at hpix
  rw [State.lsbAddr]
  omega

/-- Over the image that `EMBED` left at the positions of its walk, their LSBs are the BitStream. -/
theorem State.lsbs_of_embedImage {n : Nat} {s t u : State} {ps : List Position}
    (h : State.positions n s = some (ps, t)) (hwf : s.imgmem.wf) (hstride : u.stride = s.stride)
    (himg : ∀ a < s.pixelCount.toNat * s.stride, u.imgmem.read a = (s.embedImage 0 ps s.imgmem).read a) :
    u.lsbs ps = (List.range n).map s.bitAt := by
  refine List.ext_getElem (by simp [State.lsbs, State.positions_length h]) fun i hi _ => ?_
  have hlt : i < ps.length := by simpa [State.lsbs] using hi
  have haddr : u.lsbAddr ps[i] = s.lsbAddr ps[i] := by rw [State.lsbAddr, State.lsbAddr, hstride]
  have hin := State.positions_inGeometry h ps[i] (List.getElem_mem hlt)
  have hread := s.read_embedImage_at 0 hwf (State.addresses_nodup h) (List.getElem?_eq_getElem hlt)
  rw [Nat.zero_add] at hread
  simp only [State.lsbs, List.getElem_map, List.getElem_range, State.lsbAt, State.readByte_imgmem, haddr,
    himg _ (State.lsbAddr_lt hin), hread, getLsbD_zero_withLsb]

theorem State.lsbs_take (s : State) (ps : List Position) (n : Nat) : s.lsbs (ps.take n) = (s.lsbs ps).take n :=
  List.map_take

theorem State.lsbs_drop (s : State) (ps : List Position) (n : Nat) : s.lsbs (ps.drop n) = (s.lsbs ps).drop n :=
  List.map_drop

theorem take_drop_map_range {α : Type} (f : Nat → α) {a b n : Nat} (h : a + b ≤ n) :
    (((List.range n).map f).drop a).take b = (List.range b).map fun k => f (a + k) :=
  List.ext_getElem (by simp; omega) fun i _ _ => by simp

/-- `EXTRACT` over a walk whose LSBs are the BitStream of `s`: the length and the bytes of that message. -/
theorem exec_extract_of_bitStream {s u v : State} {ps : List Position} (hp : u.phase = .positionStreamReady)
    (hb : u.launchBacked .extract = true) (hwf : u.msgmem.wf)
    (hroom : s.streamLen + u.issued.toNat ≤ u.capacity) (h : State.positions s.streamLen u = some (ps, v))
    (hbits : u.lsbs ps = (List.range s.streamLen).map s.bitAt) :
    ∃ m : Memory, exec .extract u = .next { v with phase := .done, rlen := s.msgLen, msgmem := m } ∧
      ∀ j < s.msgLen.toNat, m.read j = s.msgmem.read j := by
  have hlen : s.streamLen = 32 + 8 * s.msgLen.toNat := rfl
  rw [hlen] at h hroom hbits
  obtain ⟨t, hpre, hmsg⟩ := State.positions_split h
  have hissued := State.positions_issued_toNat hpre
  have hlength : lenFromBits (u.lsbs (ps.take 32)) = s.msgLen := by
    rw [State.lsbs_take, hbits, ← List.map_take, List.take_range, Nat.min_eq_left (Nat.le_add_right 32 _),
      s.lenFromBits_bitAt]
  refine ⟨_, exec_extract_of_positions hp hb hpre hlength (by omega) hmsg, fun j hj => ?_⟩
  have hread := read_writtenBytes_at s.msgLen.toNat 0 (u.lsbs (ps.drop 32)) hwf hj
  rw [Nat.zero_add] at hread
  rw [hread, State.lsbs_drop, List.drop_drop, hbits, take_drop_map_range s.bitAt (by omega), s.byteFromBits_bitAt]

/-- Settles O40: both invocations open one stream, so `EXTRACT` walks over the positions `EMBED` wrote and reads the
BitStream back. -/
theorem embedThenExtractReturnsTheMessage : Obligations.EmbedThenExtractReturnsTheMessage := by
  intro s t u hs hwf hrun hdone hu hmwf hkeyLen hkey hP hC hpad himg hbk hbi hbm
  obtain ⟨-, hembed⟩ := (runCommands_kseed_psopen_iff hs).1 hrun
  obtain ⟨ps, w, hwalk, hroom, rfl⟩ := exec_embed_done rfl (runCommands_singleton_iff.1 hembed) hdone
  have hkeys : u.keyBytes = s.keyBytes := State.keyBytes_congr hkeyLen hkey
  have hsame : s.opened.SameStream u.opened := State.opened_sameStream hkeys hP hC
  have hstride : u.opened.stride = s.opened.stride := congrArg₂ (fun c d => c.toNat + d.toNat) hC hpad
  have hcap : u.opened.capacity = s.opened.capacity := congrArg₂ (fun p c => p.toNat * c.toNat) hP hC
  have hlen : s.opened.streamLen = 31 + 8 * s.msgLen.toNat + 1 := Nat.add_right_comm 31 1 _
  obtain ⟨v, hv, hwv, hdraw, hpos⟩ := hsame.positions_succ (hlen ▸ hwalk)
  rw [← hlen] at hv
  have hbits : u.opened.lsbs ps = (List.range s.opened.streamLen).map s.opened.bitAt :=
    State.lsbs_of_embedImage hwalk hwf hstride himg
  obtain ⟨m, hext, hread⟩ := exec_extract_of_bitStream (s := s.opened) (u := u.opened) rfl
    (State.launchBacked_extract (s := u.opened) hbm hbi) hmwf (by rwa [hcap, ← hsame.issued]) hv hbits
  exact ⟨_, (runCommands_kseed_psopen_iff hu).2 ⟨hbk, runCommands_singleton_iff.2 hext⟩, rfl, rfl, hread,
    hwv.prng.symm, hwv.used.symm, hwv.issued.symm, hdraw.symm, hpos.symm⟩

end Sys2Proof.Machine
end

section
/-!
PROOFS. The outcomes of the commands by phase (spec/40_dispatch_and_init.md R81, R83): the refusal outside the phases
that accept a command, and the phase, the fault and the hang in which an accepted one ends.
-/

namespace Sys2Proof.Machine

/-! ### Refusal -/

/-- R83: a command that the phase does not accept is refused. -/
theorem exec_of_not_accepts {i : Instr} {s : State} (ha : accepts i s.phase = false) :
    exec i s = .next s.refuseIllegal := by
  cases i with
  | init => cases ha
  | kseed => simp [exec, execKseed, ha]
  | psopen => simp [exec, execPsopen, ha]
  | draw => simp [exec, execDraw, ha]
  | nextpos => simp [exec, execNextpos, ha]
  | embed => simp [exec, execEmbed, ha]
  | extract => simp [exec, execExtract, ha]

theorem issueCommand_of_illegal {w : Word32} {why : IllegalWord} (hd : decode w = .illegal why) (s : State) :
    issueCommand w s = .next s.refuseIllegal := by
  rw [issueCommand, hd]

theorem issueCommand_of_command {w : Word32} {i : Instr} (hd : decode w = .command i) (s : State) :
    issueCommand w s = exec i s := by
  rw [issueCommand, hd]

section NotReady
variable {s : State} (hp : s.phase ≠ .positionStreamReady)
include hp

theorem exec_nextpos_of_ne_ready : exec .nextpos s = .next s.refuseIllegal :=
  exec_of_not_accepts (Bool.eq_false_iff.2 (mt accepts_nextpos.1 hp))

theorem exec_embed_of_ne_ready : exec .embed s = .next s.refuseIllegal :=
  exec_of_not_accepts (Bool.eq_false_iff.2 (mt accepts_embed.1 hp))

theorem exec_extract_of_ne_ready : exec .extract s = .next s.refuseIllegal :=
  exec_of_not_accepts (Bool.eq_false_iff.2 (mt accepts_extract.1 hp))

end NotReady

/-! ### NEXTPOS in `PositionStreamReady` (R130) -/

section Ready
variable {s : State} (hp : s.phase = .positionStreamReady)
include hp

theorem exec_nextpos_of_issued {p : Position} {t : State} (h : s.nextPos = .issued p t) :
    exec .nextpos s = .next t := by
  rw [exec, execNextpos, if_pos (accepts_nextpos.2 hp), h]

theorem exec_nextpos_of_exhausted (h : s.nextPos = .exhausted) :
    exec .nextpos s = .next s.raiseCapacityExceeded := by
  rw [exec, execNextpos, if_pos (accepts_nextpos.2 hp), h]

theorem exec_nextpos_of_endless (h : s.nextPos = .endless) : exec .nextpos s = .next s.hang := by
  rw [exec, execNextpos, if_pos (accepts_nextpos.2 hp), h]

/-! ### EMBED and EXTRACT in `PositionStreamReady` (R160, R164) -/

/-- R161: the check comes first, so nothing else has changed. -/
theorem exec_embed_of_no_room (h : s.capacity < s.streamLen + s.issued.toNat) :
    exec .embed s = .next s.raiseCapacityExceeded := by
  have hroom : ¬ s.hasRoom s.streamLen = true := by rw [State.hasRoom_iff]; omega
  rw [exec, execEmbed, if_pos (accepts_embed.2 hp), if_neg hroom]
  rfl

theorem exec_extract_of_backed (hb : s.launchBacked .extract = true) :
    exec .extract s = (extractWalk Config.msgSpace (s.toPhase .extracting)).outcome := by
  rw [exec, execExtract, if_pos (accepts_extract.2 hp), if_pos hb]

end Ready

/-! ### How a walk ends -/

/-- Every end of a walk is a next state (R180). -/
theorem Walk.outcome_isNext (w : Walk) : ∃ t, w.outcome = .next t := by
  cases w <;> exact ⟨_, rfl⟩

/-- The phase, the fault and the hang in which a command leaves its walk (R81). -/
theorem Walk.outcome_status {w : Walk} {t : State} (h : w.outcome = .next t) :
    (t.phase = .done ∧ t.fault = w.state.fault ∧ t.hung = w.state.hung) ∨
    (t.phase = .failed ∧ t.fault = .capacityExceeded ∧ t.hung = w.state.hung) ∨
    (t.phase = w.state.phase ∧ t.fault = w.state.fault ∧ t.hung = true) := by
  rcases Walk.outcome_next h with ⟨u, rfl, rfl⟩ | ⟨u, rfl, rfl⟩ | ⟨u, rfl, rfl⟩
  · exact .inl ⟨rfl, rfl, rfl⟩
  · exact .inr (.inl ⟨rfl, rfl, rfl⟩)
  · exact .inr (.inr ⟨rfl, rfl, rfl⟩)

end Sys2Proof.Machine
end

section
/-!
PROOFS. The walks keep the invariants (spec/10_state.md R34): every round of `EMBED` and `EXTRACT` keeps the set of
issued positions in order and the memories canonical and inside their address spaces, wherever the walk ends.
-/

namespace Sys2Proof.Machine

/-! ### What the two invariants look at -/

/-- `USED`, `ISSUED` and the geometry decide whether `USED` is in order. -/
theorem State.UsedOk.congr {s t : State} (h : s.UsedOk) (hused : t.used = s.used) (hissued : t.issued = s.issued)
    (hP : t.pixelCount = s.pixelCount) (hC : t.usableCh = s.usableCh) : t.UsedOk where
  sorted := by rw [hused]; exact h.sorted
  inside := by
    rw [hused]
    intro p hp
    obtain ⟨hpix, hch⟩ := h.inside p hp
    exact ⟨by rwa [hP], by rwa [hC]⟩
  bounded := by rw [hused, State.capacity, hP, hC]; exact h.bounded
  counted := by rw [hused, hissued]; exact h.counted

theorem State.usedOk_of_empty {t : State} (hused : t.used = []) (hissued : t.issued = 0#40) : t.UsedOk where
  sorted := by simp [hused]
  inside := by simp [hused]
  bounded := by simp [hused]
  counted := by simp [hused, hissued]

theorem State.MemoryOk.congr {s t : State} (h : s.MemoryOk) (hkey : t.keymem = s.keymem) (hmsg : t.msgmem = s.msgmem)
    (himg : t.imgmem = s.imgmem) : t.MemoryOk := by
  obtain ⟨h1, h2, h3, h4, h5, h6⟩ := h
  rw [← hkey] at h1 h4
  rw [← hmsg] at h2 h5
  rw [← himg] at h3 h6
  exact ⟨h1, h2, h3, h4, h5, h6⟩

/-- A byte written inside its space keeps the memories in form. -/
theorem State.writeByte_memoryOk {s : State} (h : s.MemoryOk) {sp : Space} {a : Nat} (ha : a < sp.size) (v : Byte) :
    (s.writeByte sp a v).MemoryOk := by
  obtain ⟨h1, h2, h3, h4, h5, h6⟩ := h
  cases sp with
  | keymem => exact ⟨Memory.write_wf h1 a v, h2, h3, Memory.write_within h4 ha v, h5, h6⟩
  | msgmem => exact ⟨h1, Memory.write_wf h2 a v, h3, h4, Memory.write_within h5 ha v, h6⟩
  | imgmem => exact ⟨h1, h2, Memory.write_wf h3 a v, h4, h5, Memory.write_within h6 ha v⟩

/-! ### One position -/

theorem State.nextPos_memoryOk {s t : State} {p : Position} (hs : s.MemoryOk) (h : s.nextPos = .issued p t) :
    t.MemoryOk := by
  obtain ⟨⟨r, q, rfl⟩, -⟩ := State.nextPos_issued h
  exact hs.congr rfl rfl rfl

/-- An issued position has its byte inside IMGMEM (R45). -/
theorem State.lsbAddr_lt_imgSpace_of_nextPos {s t : State} {p : Position} (h : s.nextPos = .issued p t) :
    t.lsbAddr p < Space.imgmem.size := by
  obtain ⟨⟨r, q, rfl⟩, -, hgeo, -⟩ := State.nextPos_issued h
  exact (State.lsbAddr_le hgeo).trans_lt (by decide)

/-! ### EMBED -/

theorem embedLoop_usedOk (n i : Nat) {s : State} (hs : s.UsedOk) : (embedLoop n i s).state.UsedOk := by
  induction n generalizing i s with
  | zero => exact hs
  | succ n ih =>
    rw [embedLoop]
    split
    · rename_i p t hn
      have ht := State.nextPos_usedOk hs hn
      exact ih (i + 1) (ht.congr rfl rfl rfl rfl)
    · exact hs
    · exact hs

theorem embedLoop_memoryOk (n i : Nat) {s : State} (hs : s.MemoryOk) : (embedLoop n i s).state.MemoryOk := by
  induction n generalizing i s with
  | zero => exact hs
  | succ n ih =>
    rw [embedLoop]
    split
    · rename_i p t hn
      have ht := State.nextPos_memoryOk hs hn
      exact ih (i + 1) (State.writeByte_memoryOk ht (State.lsbAddr_lt_imgSpace_of_nextPos hn) _)
    · exact hs
    · exact hs

/-! ### EXTRACT -/

theorem readBits_usedOk (n : Nat) {s : State} (hs : s.UsedOk) : (readBits n s).state.UsedOk := by
  induction n generalizing s with
  | zero => exact hs
  | succ n ih =>
    rw [readBits]
    split
    · rename_i p t hn
      have ht := ih (State.nextPos_usedOk hs hn)
      split <;> rename_i hr <;> rwa [hr] at ht
    · exact hs
    · exact hs

theorem readBits_memoryOk (n : Nat) {s : State} (hs : s.MemoryOk) : (readBits n s).state.MemoryOk := by
  obtain ⟨-, -, -, -, -, -, -, -, -, -, hkey, hmsg, himg, -⟩ := State.withStream_fields (readBits_frame n s)
  exact hs.congr hkey hmsg himg

theorem extractBytes_usedOk (n j : Nat) {s : State} (hs : s.UsedOk) : (extractBytes n j s).state.UsedOk := by
  induction n generalizing j s with
  | zero => exact hs
  | succ n ih =>
    have hbits := readBits_usedOk 8 hs
    rw [extractBytes]
    split <;> rename_i hr <;> rw [hr] at hbits
    · exact ih (j + 1) (State.UsedOk.congr hbits rfl rfl rfl rfl)
    · exact hbits
    · exact hbits

/-- The bytes `j` to `j + n - 1` lie inside MSGMEM. -/
theorem extractBytes_memoryOk {n j : Nat} (hj : j + n ≤ Space.msgmem.size) {s : State} (hs : s.MemoryOk) :
    (extractBytes n j s).state.MemoryOk := by
  induction n generalizing j s with
  | zero => exact hs
  | succ n ih =>
    have hbits := readBits_memoryOk 8 hs
    rw [extractBytes]
    split <;> rename_i hr <;> rw [hr] at hbits
    · exact ih (by omega) (State.writeByte_memoryOk hbits (by omega) _)
    · exact hbits
    · exact hbits

theorem extractWalk_usedOk (limit : Nat) {s : State} (hs : s.UsedOk) : (extractWalk limit s).state.UsedOk := by
  have hbits := readBits_usedOk 32 hs
  rcases extractWalk_cases limit s with ⟨u, hr, hw⟩ | ⟨u, hr, hw⟩ | ⟨bits, u, hr, ⟨-, hw⟩ | ⟨-, hw⟩⟩ <;>
    rw [hr] at hbits <;> rw [hw]
  · exact hbits
  · exact hbits
  · exact State.UsedOk.congr hbits rfl rfl rfl rfl
  · exact extractBytes_usedOk _ 0 (State.UsedOk.congr hbits rfl rfl rfl rfl)

/-- A 32-bit length stays inside MSGMEM. -/
theorem extractWalk_memoryOk (limit : Nat) {s : State} (hs : s.MemoryOk) : (extractWalk limit s).state.MemoryOk := by
  have hbits := readBits_memoryOk 32 hs
  rcases extractWalk_cases limit s with ⟨u, hr, hw⟩ | ⟨u, hr, hw⟩ | ⟨bits, u, hr, ⟨-, hw⟩ | ⟨-, hw⟩⟩ <;>
    rw [hr] at hbits <;> rw [hw]
  · exact hbits
  · exact hbits
  · exact State.MemoryOk.congr hbits rfl rfl rfl
  · have hlen : min limit (lenFromBits bits).toNat ≤ Space.msgmem.size :=
      (Nat.min_le_right _ _).trans (lenFromBits bits).isLt.le
    exact extractBytes_memoryOk (by omega) (State.MemoryOk.congr hbits rfl rfl rfl)

end Sys2Proof.Machine
end

section
/-!
PROOFS. Every step keeps the invariant (spec/10_state.md R34): phase by phase what phase and registers owe each other,
then the commands, the cut by reset, and the moves of the host.
-/

namespace Sys2Proof.Machine

/-! ### Phase and registers from the phase a command leaves -/

section OfPhase
variable {t : State}

theorem State.phaseOk_of_ready (hp : t.phase = .positionStreamReady) (hr : t.rlen = 0#32) (hf : t.fault = .noFault) :
    t.PhaseOk := by
  constructor <;> simp [hp, hr, hf]

theorem State.phaseOk_of_embedding (hp : t.phase = .embedding) (hr : t.rlen = 0#32) (hf : t.fault = .noFault)
    (hh : t.hung = true) : t.PhaseOk := by
  constructor <;> simp [hp, hr, hf, hh]

theorem State.phaseOk_of_extracting (hp : t.phase = .extracting) (hf : t.fault = .noFault) (hh : t.hung = true) :
    t.PhaseOk := by
  constructor <;> simp [hp, hf, hh]

theorem State.phaseOk_of_done (hp : t.phase = .done) (hf : t.fault = .noFault) (hh : t.hung = false) :
    t.PhaseOk := by
  constructor <;> simp [hp, hf, hh]

theorem State.phaseOk_of_failed (hp : t.phase = .failed) (hf : t.fault = .capacityExceeded) (hh : t.hung = false) :
    t.PhaseOk := by
  constructor <;> simp [hp, hf, hh]

end OfPhase

theorem State.PhaseOk.fault_eq_noFault {s : State} (h : s.PhaseOk) (hp : s.phase ≠ .failed) : s.fault = .noFault := by
  cases hf : s.fault with
  | noFault => rfl
  | capacityExceeded => exact absurd (h.failed.2 hf) hp

/-- In `PositionStreamReady` no `EXTRACT` has run and no fault was raised. -/
theorem State.PhaseOk.of_ready {s : State} (h : s.PhaseOk) (hp : s.phase = .positionStreamReady) :
    s.rlen = 0#32 ∧ s.fault = .noFault :=
  ⟨h.unread (.inr (.inr (.inl hp))), h.fault_eq_noFault (by simp [hp])⟩

/-! ### What the moves of the host keep -/

/-- The invariant does not look at `ILL`, the latest reply or the pending moves. -/
theorem State.Inv.with_ill_reply_host {s : State} (h : s.Inv) (ill : Bool) (reply : Word32) (host : List HostMove) :
    State.Inv { s with ill := ill, reply := reply, host := host } :=
  ⟨h.used.congr rfl rfl rfl rfl, h.memory.congr rfl rfl rfl, ⟨h.phase.unopened, h.phase.unseeded, h.phase.unread,
    h.phase.failed, h.phase.running, h.phase.hanging⟩⟩

theorem State.Inv.popMove {s : State} (h : s.Inv) (rest : List HostMove) : (s.popMove rest).Inv :=
  h.with_ill_reply_host s.ill s.reply rest

theorem State.Inv.answer {s : State} (h : s.Inv) (v : Word32) : (s.answer v).Inv :=
  h.with_ill_reply_host s.ill v s.host

theorem State.Inv.refuseIllegal {s : State} (h : s.Inv) : s.refuseIllegal.Inv :=
  h.with_ill_reply_host true s.reply s.host

theorem State.Inv.writeByte {s : State} (h : s.Inv) {sp : Space} {a : Nat} (ha : a < sp.size) (v : Byte) :
    (s.writeByte sp a v).Inv := by
  refine ⟨h.used.congr (by simp) (by simp) (by simp) (by simp), State.writeByte_memoryOk h.memory ha v, ?_⟩
  obtain ⟨h1, h2, h3, h4, h5, h6⟩ := h.phase
  constructor <;> simpa

/-- A configuration register changes in `Idle` only, where nothing is issued yet. -/
theorem State.Inv.writeReg {s : State} (h : s.Inv) (r : WindowReg) (v : Word32) : (s.writeReg r v).Inv := by
  obtain ⟨hphase, hfault, -, hseed, hprng, hused, hissued, hdraw, hpos, hrlen, hkey, hmsg, himg, -, hhung, -, -, hlock⟩ :=
    State.writeReg_fields s r v
  by_cases hp : s.phase = .idle
  · obtain ⟨hu, hi, -⟩ := h.phase.unopened (.inl hp)
    refine ⟨State.usedOk_of_empty (hused.trans hu) (hissued.trans hi), h.memory.congr hkey hmsg himg, ?_⟩
    obtain ⟨h1, h2, h3, h4, h5, h6⟩ := h.phase
    constructor <;> simpa only [hphase, hfault, hseed, hprng, hused, hissued, hdraw, hpos, hrlen, hhung]
  · rwa [hlock hp]

/-- A block in its reset values meets the invariant over any memories in form (R36). -/
theorem State.hardwareReset_inv {s : State} (h : s.MemoryOk) : s.hardwareReset.Inv := by
  refine ⟨State.usedOk_of_empty rfl rfl, h.congr rfl rfl rfl, ?_⟩
  constructor <;> simp

theorem State.powerCycle_memoryOk (s : State) (key msg img : List Host.Cell) :
    (s.powerCycle key msg img).MemoryOk := by
  obtain ⟨hkey, hkeyIn⟩ := Memory.ofCells_ok Config.keySpace key
  obtain ⟨hmsg, hmsgIn⟩ := Memory.ofCells_ok Config.msgSpace msg
  obtain ⟨himg, himgIn⟩ := Memory.ofCells_ok Config.imgSpace img
  exact ⟨hkey, hmsg, himg, hkeyIn, hmsgIn, himgIn⟩

theorem State.powerCycle_inv (s : State) (key msg img : List Host.Cell) : (s.powerCycle key msg img).Inv := by
  refine ⟨State.usedOk_of_empty rfl rfl, s.powerCycle_memoryOk key msg img, ?_⟩
  constructor <;> simp

/-! ### What the commands keep -/

section Commands
variable {s t : State} (hs : s.Inv) (hu : s.hung = false)
include hs hu

theorem execInit_inv (h : execInit s = .next t) : t.Inv := by
  obtain rfl := execInit_next h
  refine ⟨State.usedOk_of_empty rfl rfl, hs.memory.congr rfl rfl rfl, ?_⟩
  constructor <;> simp [hu]

theorem execKseed_inv (h : execKseed s = .next t) : t.Inv := by
  rcases execKseed_next h with ⟨-, rfl⟩ | ⟨hp, -, rfl⟩
  · exact hs.refuseIllegal
  · have hopen := hs.phase.unopened (.inl hp)
    have hread := hs.phase.unread (.inl hp)
    have hfault := hs.phase.fault_eq_noFault (by simp [hp])
    refine ⟨hs.used.congr rfl rfl rfl rfl, hs.memory.congr rfl rfl rfl, ?_⟩
    constructor <;> simp [hopen, hread, hfault, hu]

omit hu in
theorem execPsopen_inv (h : execPsopen s = .next t) : t.Inv := by
  rcases execPsopen_next h with ⟨-, rfl⟩ | ⟨hp, rfl⟩
  · exact hs.refuseIllegal
  · exact ⟨State.usedOk_of_empty rfl rfl, hs.memory.congr rfl rfl rfl,
      State.phaseOk_of_ready rfl (hs.phase.unread (.inr (.inl hp))) (hs.phase.fault_eq_noFault (by simp [hp]))⟩

omit hu in
theorem execDraw_inv (h : execDraw s = .next t) : t.Inv := by
  rcases execDraw_next h with ⟨-, rfl⟩ | ⟨hp, rfl⟩
  · exact hs.refuseIllegal
  · obtain ⟨hread, hfault⟩ := hs.phase.of_ready hp
    exact ⟨hs.used.congr rfl rfl rfl rfl, hs.memory.congr rfl rfl rfl, State.phaseOk_of_ready hp hread hfault⟩

theorem execNextpos_inv (h : execNextpos s = .next t) : t.Inv := by
  rcases execNextpos_next h with ⟨-, rfl⟩ | ⟨hp, ⟨p, hn⟩ | ⟨-, rfl⟩ | ⟨-, rfl⟩⟩
  · exact hs.refuseIllegal
  all_goals obtain ⟨hread, hfault⟩ := hs.phase.of_ready hp
  · have hframe := State.nextPos_withStream hn
    exact ⟨State.nextPos_usedOk hs.used hn, State.nextPos_memoryOk hs.memory hn,
      State.phaseOk_of_ready ((congrArg State.phase hframe).trans hp) ((congrArg State.rlen hframe).trans hread)
        ((congrArg State.fault hframe).trans hfault)⟩
  · exact ⟨hs.used.congr rfl rfl rfl rfl, hs.memory.congr rfl rfl rfl, State.phaseOk_of_failed rfl rfl hu⟩
  · exact ⟨hs.used.congr rfl rfl rfl rfl, hs.memory.congr rfl rfl rfl, State.phaseOk_of_ready hp hread hfault⟩

omit hs hu in
/-- A command leaves its walk with the set of issued positions and the memories that the walk leaves. -/
theorem Walk.outcome_usedOk_memoryOk {w : Walk} (h : w.outcome = .next t) (hused : w.state.UsedOk)
    (hmem : w.state.MemoryOk) : t.UsedOk ∧ t.MemoryOk := by
  rcases Walk.outcome_next h with ⟨u, rfl, rfl⟩ | ⟨u, rfl, rfl⟩ | ⟨u, rfl, rfl⟩ <;>
    exact ⟨hused.congr rfl rfl rfl rfl, hmem.congr rfl rfl rfl⟩

theorem execEmbed_inv (h : execEmbed s = .next t) : t.Inv := by
  rcases execEmbed_next h with ⟨-, rfl⟩ | ⟨-, -, rfl⟩ | ⟨hp, -, -, hw⟩
  · exact hs.refuseIllegal
  · exact ⟨hs.used.congr rfl rfl rfl rfl, hs.memory.congr rfl rfl rfl, State.phaseOk_of_failed rfl rfl hu⟩
  · obtain ⟨hread, hfault⟩ := hs.phase.of_ready hp
    have hframe := embedLoop_frame s.streamLen 0 (s.toPhase .embedding)
    have hphase := congrArg State.phase hframe
    have hwfault := (congrArg State.fault hframe).trans hfault
    have hwhung := (congrArg State.hung hframe).trans hu
    have hwread := (congrArg State.rlen hframe).trans hread
    obtain ⟨hused, hmem⟩ := Walk.outcome_usedOk_memoryOk hw
      (embedLoop_usedOk _ _ (hs.used.congr rfl rfl rfl rfl)) (embedLoop_memoryOk _ _ (hs.memory.congr rfl rfl rfl))
    refine ⟨hused, hmem, ?_⟩
    obtain ⟨-, -, -, -, -, -, -, hrlen, -⟩ := Walk.outcome_fields hw
    rcases Walk.outcome_status hw with ⟨hd, hf, hh⟩ | ⟨hd, hf, hh⟩ | ⟨hd, hf, hh⟩
    · exact State.phaseOk_of_done hd (hf.trans hwfault) (hh.trans hwhung)
    · exact State.phaseOk_of_failed hd hf (hh.trans hwhung)
    · exact State.phaseOk_of_embedding (hd.trans hphase) (hrlen.trans hwread) (hf.trans hwfault) hh

theorem execExtract_inv (h : execExtract s = .next t) : t.Inv := by
  rcases execExtract_next h with ⟨-, rfl⟩ | ⟨hp, -, hw⟩
  · exact hs.refuseIllegal
  · obtain ⟨-, hfault⟩ := hs.phase.of_ready hp
    obtain ⟨hphase, hwfault, -, -, -, -, -, -, -, -, -, -, hwhung, -⟩ :=
      extractWalk_fields Config.msgSpace (s.toPhase .extracting)
    obtain ⟨hused, hmem⟩ := Walk.outcome_usedOk_memoryOk hw
      (extractWalk_usedOk _ (hs.used.congr rfl rfl rfl rfl)) (extractWalk_memoryOk _ (hs.memory.congr rfl rfl rfl))
    refine ⟨hused, hmem, ?_⟩
    rcases Walk.outcome_status hw with ⟨hd, hf, hh⟩ | ⟨hd, hf, hh⟩ | ⟨hd, hf, hh⟩
    · exact State.phaseOk_of_done hd (hf.trans (hwfault.trans hfault)) (hh.trans (hwhung.trans hu))
    · exact State.phaseOk_of_failed hd hf (hh.trans (hwhung.trans hu))
    · exact State.phaseOk_of_extracting (hd.trans hphase) (hf.trans (hwfault.trans hfault)) hh

theorem exec_inv {i : Instr} (h : exec i s = .next t) : t.Inv := by
  cases i with
  | init => exact execInit_inv hs hu h
  | kseed => exact execKseed_inv hs hu h
  | psopen => exact execPsopen_inv hs h
  | draw => exact execDraw_inv hs h
  | nextpos => exact execNextpos_inv hs hu h
  | embed => exact execEmbed_inv hs hu h
  | extract => exact execExtract_inv hs hu h

theorem issueCommand_inv {w : Word32} (h : issueCommand w s = .next t) : t.Inv := by
  rcases issueCommand_next h with ⟨why, -, rfl⟩ | ⟨i, -, h⟩
  · exact hs.refuseIllegal
  · exact exec_inv hs hu h

end Commands

/-! ### The cut by reset, and the step -/

/-- What a cut command leaves: the state before it, or its walk made as far as the cut (R200). -/
theorem cutCommand_cases (i : Instr) (cut : Nat) (s : State) :
    cutCommand i cut s = s ∨
    (i = .embed ∧ s.phase = .positionStreamReady ∧ s.hasRoom s.streamLen = true ∧
      cutCommand i cut s = (embedLoop (min cut s.streamLen) 0 (s.toPhase .embedding)).state) ∨
    (i = .extract ∧ s.phase = .positionStreamReady ∧
      cutCommand i cut s = (extractWalk cut (s.toPhase .extracting)).state) := by
  cases i with
  | embed =>
    simp only [cutCommand]
    split
    · rename_i ha
      split
      · rename_i hr
        exact .inr (.inl ⟨trivial, accepts_embed.1 ha, hr, rfl⟩)
      · exact .inl rfl
    · exact .inl rfl
  | extract =>
    simp only [cutCommand]
    split
    · rename_i ha
      exact .inr (.inr ⟨trivial, accepts_extract.1 ha, rfl⟩)
    · exact .inl rfl
  | init | kseed | psopen | draw | nextpos => exact .inl (by simp only [cutCommand, ite_self])

theorem cutCommand_memoryOk (i : Instr) (cut : Nat) {s : State} (hs : s.MemoryOk) : (cutCommand i cut s).MemoryOk := by
  rcases cutCommand_cases i cut s with h | ⟨-, -, -, h⟩ | ⟨-, -, h⟩ <;> rw [h]
  · exact hs
  · exact embedLoop_memoryOk _ _ (hs.congr rfl rfl rfl)
  · exact extractWalk_memoryOk _ (hs.congr rfl rfl rfl)

theorem hostMove_inv {m : HostMove} {s t : State} (hs : s.Inv) (hu : s.hung = false) (h : hostMove m s = .next t) :
    t.Inv := by
  rcases hostMove_next_cases h with ⟨v, -, hc⟩ | ⟨off, v, -, -, rfl⟩ | ⟨off, -, rfl⟩ | ⟨sp, a, v, -, ha, rfl⟩ |
    ⟨sp, a, -, rfl⟩ | ⟨-, rfl⟩ | ⟨w, cut, -, hc⟩ | ⟨key, msg, img, -, rfl⟩
  · exact issueCommand_inv hs hu hc
  · exact hs.writeReg _ _
  · exact hs.answer _
  · exact hs.writeByte ha v
  · exact hs.answer _
  · exact State.hardwareReset_inv hs.memory
  · rcases resetDuring_next hc with ⟨why, -, rfl⟩ | ⟨i, -, rfl⟩
    · exact State.hardwareReset_inv hs.memory
    · exact State.hardwareReset_inv (cutCommand_memoryOk i cut hs.memory)
  · exact s.powerCycle_inv key msg img

theorem blockedMove_inv (m : HostMove) (rest : List HostMove) {s : State} (hs : s.Inv) : (blockedMove m rest s).Inv := by
  cases m with
  | reset => exact State.hardwareReset_inv (hs.popMove rest).memory
  | powerCycle key msg img => exact State.powerCycle_inv _ key msg img
  | write32 | read32 | writeByte | readByte | resetDuring => exact hs

/-- Settles O56: an idle step and a blocked move keep the invariant, and so does each move of the host, a whole command
among them. -/
theorem stepKeepsTheInvariant : Obligations.StepKeepsTheInvariant := by
  intro s t hs h
  rcases step_next_cases h with ⟨-, rfl⟩ | ⟨m, rest, -, ⟨-, rfl⟩ | ⟨hu, hm⟩⟩
  · exact hs
  · exact blockedMove_inv m rest hs
  · exact hostMove_inv (hs.popMove rest) hu hm

/-- Settles O57: the reset state is what a reset makes of itself, and its memories list nothing. -/
theorem resetMeetsTheInvariant : Obligations.ResetMeetsTheInvariant := by
  have hmem : State.reset.MemoryOk := by constructor <;> simp [State.reset, Memory.wf]
  exact State.hardwareReset_inv (s := State.reset) hmem

end Sys2Proof.Machine
end

section
/-!
PROOFS. What the commands leave alone (spec/20_memory.md R55, spec/30_encoding.md R67): one frame for each command that
walks over positions, and from the frames who may write each memory and register.
-/

namespace Sys2Proof.Machine

/-! ### The frames -/

/-- `s` with the status of `t`: the phase, the two flags and the hang, in which commands end (R14, R15, R211). -/
def State.withStatus (s t : State) : State :=
  { s with phase := t.phase, fault := t.fault, ill := t.ill, hung := t.hung }

/-- `s` with the position stream, `RLEN` and MSGMEM of `t`: what the walk of `EXTRACT` writes (R67). -/
def State.withExtracted (s t : State) : State := { s.withStreamAndMessage t with rlen := t.rlen }

theorem State.withExtracted_trans {s t u : State} (h1 : t = s.withExtracted t) (h2 : u = t.withExtracted u) :
    u = s.withExtracted u := by
  calc u = t.withExtracted u := h2
    _ = (s.withExtracted t).withExtracted u := by rw [← h1]
    _ = s.withExtracted u := rfl

theorem State.withExtracted_of_withStreamAndMessage {s t : State} (h : t = s.withStreamAndMessage t) :
    t = s.withExtracted t := by
  obtain ⟨-, -, -, -, hrlen, -⟩ := State.withStreamAndMessage_fields h
  rw [State.withExtracted, hrlen]
  exact h

theorem extractWalk_frame (limit : Nat) (s : State) :
    (extractWalk limit s).state = s.withExtracted (extractWalk limit s).state := by
  have hbits := readBits_frame 32 s
  have hlength : (readBits 32 s).state = s.withExtracted (readBits 32 s).state :=
    State.withExtracted_of_withStreamAndMessage (State.withStreamAndMessage_of_withStream hbits)
  have hlen : ∀ (t : State) (n : Word32), t.setRlen n = t.withExtracted (t.setRlen n) := fun _ _ => rfl
  rcases extractWalk_cases limit s with ⟨u, hr, hw⟩ | ⟨u, hr, hw⟩ | ⟨bits, u, hr, ⟨-, hw⟩ | ⟨-, hw⟩⟩ <;>
    rw [hr] at hlength <;> rw [hw]
  · exact hlength
  · exact hlength
  · exact State.withExtracted_trans hlength (hlen _ _)
  · exact State.withExtracted_trans (State.withExtracted_trans hlength (hlen _ _))
      (State.withExtracted_of_withStreamAndMessage (extractBytes_frame _ _ _))

/-- A command ends its walk by writing its status only. -/
theorem Walk.outcome_frame {w : Walk} {t : State} (h : w.outcome = .next t) : t = w.state.withStatus t := by
  rcases Walk.outcome_next h with ⟨u, rfl, rfl⟩ | ⟨u, rfl, rfl⟩ | ⟨u, rfl, rfl⟩ <;> rfl

theorem execNextpos_frame {s t : State} (h : execNextpos s = .next t) : t = (s.withStream t).withStatus t := by
  rcases execNextpos_next h with ⟨-, rfl⟩ | ⟨-, ⟨p, hn⟩ | ⟨-, rfl⟩ | ⟨-, rfl⟩⟩
  · rfl
  · have hframe := State.nextPos_withStream hn
    calc t = t.withStatus t := rfl
      _ = (s.withStream t).withStatus t := by rw [← hframe]
  · rfl
  · rfl

theorem execEmbed_frame {s t : State} (h : execEmbed s = .next t) : t = (s.withStreamAndImage t).withStatus t := by
  rcases execEmbed_next h with ⟨-, rfl⟩ | ⟨-, -, rfl⟩ | ⟨-, -, -, hw⟩
  · rfl
  · rfl
  · have hout := Walk.outcome_frame hw
    have hframe := embedLoop_frame s.streamLen 0 (s.toPhase .embedding)
    calc t = (embedLoop s.streamLen 0 (s.toPhase .embedding)).state.withStatus t := hout
      _ = ((s.toPhase .embedding).withStreamAndImage
            (embedLoop s.streamLen 0 (s.toPhase .embedding)).state).withStatus t := by rw [← hframe]
      _ = (s.withStreamAndImage
            ((embedLoop s.streamLen 0 (s.toPhase .embedding)).state.withStatus t)).withStatus t := rfl
      _ = (s.withStreamAndImage t).withStatus t := by rw [← hout]

theorem execExtract_frame {s t : State} (h : execExtract s = .next t) : t = (s.withExtracted t).withStatus t := by
  rcases execExtract_next h with ⟨-, rfl⟩ | ⟨-, -, hw⟩
  · rfl
  · have hout := Walk.outcome_frame hw
    have hframe := extractWalk_frame Config.msgSpace (s.toPhase .extracting)
    calc t = (extractWalk Config.msgSpace (s.toPhase .extracting)).state.withStatus t := hout
      _ = ((s.toPhase .extracting).withExtracted
            (extractWalk Config.msgSpace (s.toPhase .extracting)).state).withStatus t := by rw [← hframe]
      _ = (s.withExtracted
            ((extractWalk Config.msgSpace (s.toPhase .extracting)).state.withStatus t)).withStatus t := rfl
      _ = (s.withExtracted t).withStatus t := by rw [← hout]

/-! ### Memories and configuration -/

/-- Settles O43: no frame has KEYMEM, a configuration register or a field of the host; IMGMEM is in that of `EMBED`
only, MSGMEM in that of `EXTRACT` only. -/
theorem commandsLeaveOtherMemoryAndConfiguration : Obligations.CommandsLeaveOtherMemoryAndConfiguration := by
  intro i s t h
  cases i with
  | init =>
    obtain rfl := execInit_next h
    simp
  | kseed => rcases execKseed_next h with ⟨-, rfl⟩ | ⟨-, -, rfl⟩ <;> simp
  | psopen => rcases execPsopen_next h with ⟨-, rfl⟩ | ⟨-, rfl⟩ <;> simp
  | draw => rcases execDraw_next h with ⟨-, rfl⟩ | ⟨-, rfl⟩ <;> simp
  | nextpos =>
    rw [execNextpos_frame h]
    simp [State.withStatus, State.withStream]
  | embed =>
    rw [execEmbed_frame h]
    simp [State.withStatus, State.withStreamAndImage, State.withStream]
  | extract =>
    rw [execExtract_frame h]
    simp [State.withStatus, State.withExtracted, State.withStreamAndMessage, State.withStream]

/-! ### Registers -/

/-- No accepted command but `INIT` changes `STATUS.ILL` (R15). -/
theorem exec_ill_of_accepts {i : Instr} {s t : State} (hi : i ≠ .init) (ha : accepts i s.phase = true)
    (h : exec i s = .next t) : t.ill = s.ill := by
  cases i with
  | init => exact absurd rfl hi
  | kseed =>
    rcases execKseed_next h with ⟨hp, -⟩ | ⟨-, -, rfl⟩
    · exact absurd (accepts_kseed.1 ha) hp
    · rfl
  | psopen =>
    rcases execPsopen_next h with ⟨hp, -⟩ | ⟨-, rfl⟩
    · exact absurd (accepts_psopen.1 ha) hp
    · rfl
  | draw =>
    rcases execDraw_next h with ⟨hp, -⟩ | ⟨-, rfl⟩
    · exact absurd (accepts_draw.1 ha) hp
    · rfl
  | nextpos =>
    rcases execNextpos_next h with ⟨hp, -⟩ | ⟨-, ⟨p, hn⟩ | ⟨-, rfl⟩ | ⟨-, rfl⟩⟩
    · exact absurd (accepts_nextpos.1 ha) hp
    · obtain ⟨-, -, hill, -⟩ := State.withStream_fields (State.nextPos_withStream hn)
      exact hill
    · rfl
    · rfl
  | embed =>
    rcases execEmbed_next h with ⟨hp, -⟩ | ⟨-, -, rfl⟩ | ⟨-, -, -, hw⟩
    · exact absurd (accepts_embed.1 ha) hp
    · rfl
    · obtain ⟨-, -, hill, -⟩ :=
        State.withStreamAndImage_fields (embedLoop_frame s.streamLen 0 (s.toPhase .embedding))
      obtain ⟨hout, -⟩ := Walk.outcome_fields hw
      exact hout.trans hill
  | extract =>
    rcases execExtract_next h with ⟨hp, -⟩ | ⟨-, -, hw⟩
    · exact absurd (accepts_extract.1 ha) hp
    · obtain ⟨-, -, hill, -⟩ := extractWalk_fields Config.msgSpace (s.toPhase .extracting)
      obtain ⟨hout, -⟩ := Walk.outcome_fields hw
      exact hout.trans hill

/-- `KSEED`, `PSOPEN` and `DRAW` raise no fault (R181). -/
theorem exec_fault_of_no_walk {i : Instr} {s t : State} (hi : i = .kseed ∨ i = .psopen ∨ i = .draw)
    (h : exec i s = .next t) : t.fault = s.fault := by
  rcases hi with rfl | rfl | rfl
  · rcases execKseed_next h with ⟨-, rfl⟩ | ⟨-, -, rfl⟩ <;> rfl
  · rcases execPsopen_next h with ⟨-, rfl⟩ | ⟨-, rfl⟩ <;> rfl
  · rcases execDraw_next h with ⟨-, rfl⟩ | ⟨-, rfl⟩ <;> rfl

/-- The registers that are neither flag nor phase, command by command. -/
theorem exec_registers {i : Instr} {s t : State} (h : exec i s = .next t) :
    (i ≠ .init → i ≠ .kseed → t.seed = s.seed) ∧ (i = .kseed → t.prng = s.prng) ∧
    (i = .kseed ∨ i = .draw → t.used = s.used ∧ t.issued = s.issued) ∧
    (i = .kseed ∨ i = .psopen → t.draw = s.draw) ∧ (i = .kseed ∨ i = .psopen ∨ i = .draw → t.pos = s.pos) ∧
    (i ≠ .init → i ≠ .extract → t.rlen = s.rlen) := by
  cases i with
  | init => simp
  | kseed => rcases execKseed_next h with ⟨-, rfl⟩ | ⟨-, -, rfl⟩ <;> simp
  | psopen => rcases execPsopen_next h with ⟨-, rfl⟩ | ⟨-, rfl⟩ <;> simp
  | draw => rcases execDraw_next h with ⟨-, rfl⟩ | ⟨-, rfl⟩ <;> simp
  | nextpos =>
    rw [execNextpos_frame h]
    simp [State.withStatus, State.withStream]
  | embed =>
    rw [execEmbed_frame h]
    simp [State.withStatus, State.withStreamAndImage, State.withStream]
  | extract =>
    rw [execExtract_frame h]
    simp [State.withStatus, State.withExtracted, State.withStreamAndMessage, State.withStream]

/-- Settles O44: the contrapositive of each clause is an equation of `exec_registers`, or says who leaves a flag. -/
theorem registersAreWrittenByTheirCommandsOnly : Obligations.RegistersAreWrittenByTheirCommandsOnly := by
  intro i s t h
  obtain ⟨hseed, hprng, hused, hdraw, hpos, hrlen⟩ := exec_registers h
  refine ⟨fun hne => ?_, fun hne hi => hne (hprng hi), fun hne => ?_, fun hne => ?_, fun hne => ?_, fun hne => ?_,
    fun hne => ?_, fun hne => ?_⟩
  · by_contra hi
    exact hne (hseed (fun h => hi (.inl h)) (fun h => hi (.inr h)))
  · have hi : ¬ (i = .kseed ∨ i = .draw) := fun hi => by
      obtain ⟨hu, hc⟩ := hused hi
      exact hne.elim (absurd hu) (absurd hc)
    exact not_or.1 hi
  · exact not_or.1 (mt hdraw hne)
  · have hi := mt hpos hne
    rwa [not_or, not_or] at hi
  · by_contra hi
    exact hne (hrlen (fun h => hi (.inl h)) (fun h => hi (.inr h)))
  · by_contra hi
    obtain ⟨hinit, ha⟩ := not_or.1 hi
    exact hne (exec_ill_of_accepts hinit (Bool.eq_true_of_not_eq_false ha) h)
  · have hi := mt (fun hi => exec_fault_of_no_walk hi h) hne
    cases i with
    | kseed | psopen | draw => simp at hi
    | init | nextpos | embed | extract => simp

end Sys2Proof.Machine
end

section
/-!
PROOFS. The phase machine (spec/40_dispatch_and_init.md R81 to R83) and the stops of the machine (spec/60_exceptions.md
R180): where each command leads, and what a step does to `PHASE` and `STATUS.ILL`.
-/

namespace Sys2Proof.Machine

/-! ### The phase after a command (R81) -/

section Accepted
variable {s t : State} (hp : s.phase = .positionStreamReady)
include hp

theorem execNextpos_phase (h : execNextpos s = .next t) :
    t.phase = .positionStreamReady ∨ (t.phase = .failed ∧ t.fault = .capacityExceeded ∧ t.hung = s.hung) := by
  rcases execNextpos_next h with ⟨hne, -⟩ | ⟨-, ⟨p, hn⟩ | ⟨-, rfl⟩ | ⟨-, rfl⟩⟩
  · exact absurd hp hne
  · obtain ⟨hphase, -⟩ := State.withStream_fields (State.nextPos_withStream hn)
    exact .inl (hphase.trans hp)
  · exact .inr ⟨rfl, rfl, rfl⟩
  · exact .inl hp

theorem execEmbed_phase (h : execEmbed s = .next t) :
    (t.hung = s.hung ∧ t.phase = .done) ∨ (t.hung = s.hung ∧ t.phase = .failed ∧ t.fault = .capacityExceeded) ∨
      (t.hung = true ∧ t.phase = .embedding) := by
  rcases execEmbed_next h with ⟨hne, -⟩ | ⟨-, -, rfl⟩ | ⟨-, -, -, hw⟩
  · exact absurd hp hne
  · exact .inr (.inl ⟨rfl, rfl, rfl⟩)
  · have hframe := embedLoop_frame s.streamLen 0 (s.toPhase .embedding)
    have hhung : (embedLoop s.streamLen 0 (s.toPhase .embedding)).state.hung = s.hung := by
      rw [hframe]; rfl
    rcases Walk.outcome_status hw with ⟨hd, -, hh⟩ | ⟨hd, hf, hh⟩ | ⟨hd, -, hh⟩
    · exact .inl ⟨hh.trans hhung, hd⟩
    · exact .inr (.inl ⟨hh.trans hhung, hd, hf⟩)
    · exact .inr (.inr ⟨hh, hd.trans (congrArg State.phase hframe)⟩)

theorem execExtract_phase (h : execExtract s = .next t) :
    (t.hung = s.hung ∧ t.phase = .done) ∨ (t.hung = s.hung ∧ t.phase = .failed ∧ t.fault = .capacityExceeded) ∨
      (t.hung = true ∧ t.phase = .extracting) := by
  rcases execExtract_next h with ⟨hne, -⟩ | ⟨-, -, hw⟩
  · exact absurd hp hne
  · have hframe := extractWalk_frame Config.msgSpace (s.toPhase .extracting)
    have hhung : (extractWalk Config.msgSpace (s.toPhase .extracting)).state.hung = s.hung := by
      rw [hframe]; rfl
    rcases Walk.outcome_status hw with ⟨hd, -, hh⟩ | ⟨hd, hf, hh⟩ | ⟨hd, -, hh⟩
    · exact .inl ⟨hh.trans hhung, hd⟩
    · exact .inr (.inl ⟨hh.trans hhung, hd, hf⟩)
    · exact .inr (.inr ⟨hh, hd.trans (congrArg State.phase hframe)⟩)

end Accepted

/-- Settles O7: the table of `accepts`, and the phase each outcome writes. -/
theorem phaseTableOfTheCommands : Obligations.PhaseTableOfTheCommands := by
  refine ⟨fun p => ⟨rfl, accepts_kseed, accepts_psopen, accepts_draw, accepts_nextpos, accepts_embed, accepts_extract⟩,
    fun i s t hu ha h => ?_⟩
  cases i with
  | init =>
    obtain rfl := execInit_next h
    simp
  | kseed =>
    rcases execKseed_next h with ⟨hp, -⟩ | ⟨-, -, rfl⟩
    · exact absurd (accepts_kseed.1 ha) hp
    · simp
  | psopen =>
    rcases execPsopen_next h with ⟨hp, -⟩ | ⟨-, rfl⟩
    · exact absurd (accepts_psopen.1 ha) hp
    · simp
  | draw =>
    rcases execDraw_next h with ⟨hp, -⟩ | ⟨hp, rfl⟩
    · exact absurd (accepts_draw.1 ha) hp
    · simp [hp]
  | nextpos =>
    have hphase := execNextpos_phase (accepts_nextpos.1 ha) h
    rw [hu] at hphase
    simpa using hphase
  | embed =>
    have hphase := execEmbed_phase (accepts_embed.1 ha) h
    rw [hu] at hphase
    simpa using hphase
  | extract =>
    have hphase := execExtract_phase (accepts_extract.1 ha) h
    rw [hu] at hphase
    simpa using hphase

/-- One move forward along the phase machine (R82). -/
def Phase.Follows (p q : Phase) : Prop :=
  (p = .idle ∧ q = .seedDerived) ∨ (p = .seedDerived ∧ q = .positionStreamReady) ∨
    (p = .positionStreamReady ∧ (q = .embedding ∨ q = .extracting ∨ q = .done ∨ q = .failed))

/-- A command other than `INIT` leaves the phase or moves it forward. -/
theorem exec_phase_follows {i : Instr} {s t : State} (hi : i ≠ .init) (h : exec i s = .next t)
    (hne : t.phase ≠ s.phase) : s.phase.Follows t.phase := by
  have ha : accepts i s.phase = true := by
    by_contra hna
    rw [exec_of_not_accepts (Bool.eq_false_iff.2 hna)] at h
    cases h
    exact hne rfl
  cases i with
  | init => exact absurd rfl hi
  | kseed =>
    rcases execKseed_next h with ⟨-, rfl⟩ | ⟨hp, -, rfl⟩
    · exact absurd rfl hne
    · exact .inl ⟨hp, rfl⟩
  | psopen =>
    rcases execPsopen_next h with ⟨-, rfl⟩ | ⟨hp, rfl⟩
    · exact absurd rfl hne
    · exact .inr (.inl ⟨hp, rfl⟩)
  | draw => rcases execDraw_next h with ⟨-, rfl⟩ | ⟨-, rfl⟩ <;> exact absurd rfl hne
  | nextpos =>
    have hp := accepts_nextpos.1 ha
    rcases execNextpos_phase hp h with hq | ⟨hq, -⟩
    · exact absurd (hq.trans hp.symm) hne
    · exact .inr (.inr ⟨hp, .inr (.inr (.inr hq))⟩)
  | embed =>
    have hp := accepts_embed.1 ha
    rcases execEmbed_phase hp h with ⟨-, hq⟩ | ⟨-, hq, -⟩ | ⟨-, hq⟩ <;> exact .inr (.inr ⟨hp, by simp [hq]⟩)
  | extract =>
    have hp := accepts_extract.1 ha
    rcases execExtract_phase hp h with ⟨-, hq⟩ | ⟨-, hq, -⟩ | ⟨-, hq⟩ <;> exact .inr (.inr ⟨hp, by simp [hq]⟩)

/-! ### What a step does to `PHASE` and `ILL` -/

/-- The moves that start a fresh invocation: the write of `INIT`'s word, a reset, a loss of power. -/
def HostMove.Restarts (m : HostMove) : Prop :=
  m = .write32 0x00 (encode .init) ∨ m = .reset ∨ (∃ w cut, m = .resetDuring w cut) ∨
    ∃ key msg img, m = .powerCycle key msg img

/-- A step into a fresh invocation is made by one of those moves; any other step leaves the phase and does not clear
`ILL`, or runs a command other than `INIT`. -/
theorem step_next_restarts {s t : State} (h : step s = .next t) :
    (t.phase = .idle ∧ ∃ m rest, s.host = m :: rest ∧ m.Restarts) ∨
    (t.phase = s.phase ∧ (s.ill = true → t.ill = true)) ∨
    ∃ i rest, i ≠ .init ∧ exec i (s.popMove rest) = .next t := by
  rcases step_next_cases h with ⟨-, rfl⟩ | ⟨m, rest, hh, ⟨-, rfl⟩ | ⟨-, hm⟩⟩
  · exact .inr (.inl ⟨rfl, id⟩)
  · cases m with
    | reset => exact .inl ⟨rfl, _, rest, hh, .inr (.inl rfl)⟩
    | powerCycle key msg img => exact .inl ⟨rfl, _, rest, hh, .inr (.inr (.inr ⟨key, msg, img, rfl⟩))⟩
    | write32 | read32 | writeByte | readByte | resetDuring => exact .inr (.inl ⟨rfl, id⟩)
  · rcases hostMove_next_cases hm with ⟨v, rfl, hc⟩ | ⟨off, v, -, -, rfl⟩ | ⟨off, -, rfl⟩ | ⟨sp, a, v, -, -, rfl⟩ |
      ⟨sp, a, -, rfl⟩ | ⟨rfl, rfl⟩ | ⟨w, cut, rfl, hc⟩ | ⟨key, msg, img, rfl, rfl⟩
    · rcases issueCommand_next hc with ⟨why, -, rfl⟩ | ⟨i, hd, he⟩
      · exact .inr (.inl ⟨rfl, fun _ => rfl⟩)
      · by_cases hi : i = .init
        · subst hi
          obtain rfl := execInit_next he
          rw [decode_eq_command_iff.1 hd] at hh
          exact .inl ⟨rfl, _, rest, hh, .inl rfl⟩
        · exact .inr (.inr ⟨i, rest, hi, he⟩)
    · obtain ⟨hphase, -, hill, -⟩ := State.writeReg_fields (s.popMove rest) (regAt off) v
      exact .inr (.inl ⟨hphase, fun hs => hill.trans hs⟩)
    · exact .inr (.inl ⟨rfl, id⟩)
    · exact .inr (.inl ⟨by simp, by simp⟩)
    · exact .inr (.inl ⟨rfl, id⟩)
    · exact .inl ⟨rfl, _, rest, hh, .inr (.inl rfl)⟩
    · refine .inl ⟨?_, _, rest, hh, .inr (.inr (.inl ⟨w, cut, rfl⟩))⟩
      rcases resetDuring_next hc with ⟨why, -, rfl⟩ | ⟨i, -, rfl⟩ <;> rfl
    · exact .inl ⟨rfl, _, rest, hh, .inr (.inr (.inr ⟨key, msg, img, rfl⟩))⟩

/-- `ILL` is sticky under every command but `INIT` (R83). -/
theorem exec_keeps_ill {i : Instr} {s t : State} (hi : i ≠ .init) (h : exec i s = .next t) (hs : s.ill = true) :
    t.ill = true := by
  cases ha : accepts i s.phase with
  | true => rw [exec_ill_of_accepts hi ha h, hs]
  | false =>
    rw [exec_of_not_accepts ha] at h
    cases h
    rfl

/-- Settles O6: the refusals, the moves that clear `ILL`, the outcome of `INIT`, and that a word with its opcode and a
bit of 31:8 set is no command. -/
theorem refusedCommandOnlySetsIll : Obligations.RefusedCommandOnlySetsIll := by
  refine ⟨fun s w why hd => issueCommand_of_illegal hd s, fun s i ha => exec_of_not_accepts ha,
    fun s t h hs ht => ?_, fun s => ⟨_, exec_init s, rfl, rfl⟩, fun s w _ hz => ?_⟩
  · rcases step_next_restarts h with ⟨-, hm⟩ | ⟨-, hkeep⟩ | ⟨i, rest, hi, he⟩
    · exact hm
    · rw [hkeep hs] at ht
      cases ht
    · rw [exec_keeps_ill hi he hs] at ht
      cases ht
  · exact issueCommand_of_illegal (decode_of_ne_encode (ne_encode_of_zero_ne hz)) s

/-- `Done` and `Failed` accept `INIT` only (R81). -/
theorem accepts_of_ended {p : Phase} (hp : p = .done ∨ p = .failed) {i : Instr} (hi : i ≠ .init) :
    accepts i p = false := by
  cases i with
  | init => exact absurd rfl hi
  | kseed | psopen | draw | nextpos | embed | extract => rcases hp with rfl | rfl <;> rfl

/-- Settles O8: a step that changes the phase starts a fresh invocation or runs a command, and a command moves the phase
forward; `Done` and `Failed` accept `INIT` only. -/
theorem phaseNeverGoesBack : Obligations.PhaseNeverGoesBack := by
  refine ⟨fun s t h hne => ?_, fun s i hp hi => exec_of_not_accepts ?_⟩
  · rcases step_next_restarts h with hfresh | ⟨heq, -⟩ | ⟨i, rest, hi, he⟩
    · exact .inr (.inr (.inr hfresh))
    · exact absurd heq hne
    · rcases exec_phase_follows hi he hne with hf | hf | hf
      · exact .inl hf
      · exact .inr (.inl hf)
      · exact .inr (.inr (.inl hf))
  · exact accepts_of_ended hp hi

/-! ### The stops (R57, R180) -/

/-- A command is answered, or it is a launch that is not backed. -/
theorem exec_next_or_unbacked (i : Instr) (s : State) :
    (∃ t, exec i s = .next t) ∨
      (exec i s = .refused (.unbackedLaunch i) ∧ s.launchBacked i = false ∧ accepts i s.phase = true) := by
  cases ha : accepts i s.phase with
  | false => exact .inl ⟨_, exec_of_not_accepts ha⟩
  | true =>
    cases i with
    | init => exact .inl ⟨_, exec_init s⟩
    | kseed =>
      cases hb : s.launchBacked .kseed with
      | true => exact .inl ⟨_, exec_kseed_of_idle (accepts_kseed.1 ha) (of_decide_eq_true hb)⟩
      | false => exact .inr ⟨by simp [exec, execKseed, ha, hb], rfl, rfl⟩
    | psopen => exact .inl ⟨_, exec_psopen_of_seedDerived (accepts_psopen.1 ha)⟩
    | draw => exact .inl ⟨_, exec_draw_of_ready (accepts_draw.1 ha)⟩
    | nextpos =>
      have hp := accepts_nextpos.1 ha
      cases hn : s.nextPos with
      | issued p t => exact .inl ⟨_, exec_nextpos_of_issued hp hn⟩
      | exhausted => exact .inl ⟨_, exec_nextpos_of_exhausted hp hn⟩
      | endless => exact .inl ⟨_, exec_nextpos_of_endless hp hn⟩
    | embed =>
      cases hr : s.hasRoom s.streamLen with
      | false => exact .inl ⟨_, by simp [exec, execEmbed, ha, hr]; rfl⟩
      | true =>
        cases hb : s.launchBacked .embed with
        | true =>
          obtain ⟨t, ht⟩ := (embedLoop s.streamLen 0 (s.toPhase .embedding)).outcome_isNext
          exact .inl ⟨t, by simp [exec, execEmbed, ha, hr, hb, ht]⟩
        | false => exact .inr ⟨by simp [exec, execEmbed, ha, hr, hb], rfl, rfl⟩
    | extract =>
      cases hb : s.launchBacked .extract with
      | true =>
        obtain ⟨t, ht⟩ := (extractWalk Config.msgSpace (s.toPhase .extracting)).outcome_isNext
        exact .inl ⟨t, by rw [exec_extract_of_backed (accepts_extract.1 ha) hb, ht]⟩
      | false => exact .inr ⟨by simp [exec, execExtract, ha, hb], rfl, rfl⟩

/-- With all of each address space backed, every launch is: the ranges of R57 lie inside the spaces. -/
theorem State.launchBacked_of_full {s : State} (h : s.backing = Backing.full) (i : Instr) :
    s.launchBacked i = true := by
  have hkey : s.keyLen.toNat ≤ s.backing.key := by rw [h]; exact s.keyLen.isLt.le
  have hmsg : s.msgLen.toNat ≤ s.backing.msg := by rw [h]; exact s.msgLen.isLt.le
  have hlong : s.longestExtract ≤ s.backing.msg := by
    rw [h]
    exact (Nat.min_le_right _ _).trans (Nat.sub_le _ _)
  have himg : s.pixelCount.toNat * s.stride ≤ s.backing.img := by
    have hC := s.usableCh.isLt
    have hpad := s.pad.isLt
    have hstride : s.stride ≤ 510 := by rw [State.stride]; omega
    rw [h]
    exact (Nat.mul_le_mul s.pixelCount.isLt.le hstride).trans (by decide)
  cases i with
  | kseed => exact decide_eq_true hkey
  | embed => exact State.launchBacked_embed hmsg himg
  | extract => exact State.launchBacked_extract hlong himg
  | init | psopen | draw | nextpos => rfl

/-- Settles O9: the one refusal is that of an unbacked launch, and full backing excludes it. -/
theorem commandsNeverStopTheMachine : Obligations.CommandsNeverStopTheMachine := by
  refine ⟨exec_next_or_unbacked, fun i s hfull => ?_⟩
  rcases exec_next_or_unbacked i s with hnext | ⟨-, hb, -⟩
  · exact hnext
  · rw [State.launchBacked_of_full hfull i] at hb
    cases hb

end Sys2Proof.Machine
end

section
/-!
PROOFS. `NEXTPOS` (spec/42_positionstream.md R128 to R130, spec/70_reset_and_hazards.md R211, R212): which of its three
ends it takes, what a walk does to the set of issued positions, what it depends on, and the all-zero generator.
-/

namespace Sys2Proof.Machine

/-! ### The three ends (R128, R211) -/

section Ends
variable {s : State} (hfree : s.issued.toNat < s.capacity)
include hfree

theorem State.nextPos_of_landsAt {k : Nat} (hl : s.landsAt k) :
    s.nextPos = .issued (s.candidate (drawAt k s.prng))
      ((s.drawn (drawAt k s.prng) (prngAfter (k + 1) s.prng)).issue (s.candidate (drawAt k s.prng))) :=
  (State.nextPos_eq_issued_iff s _ _).2 ⟨(State.not_exhausted_iff s).2 hfree, k, hl, rfl, rfl⟩

theorem State.nextPos_of_rejects (hrej : ∀ k, s.rejects k) : s.nextPos = .endless :=
  (State.nextPos_eq_endless_iff s).2 ⟨(State.not_exhausted_iff s).2 hfree, hrej⟩

/-- A loop in which some draw lands issues a position. -/
theorem State.nextPos_issued_of_exists (h : ∃ k, ¬ s.rejects k) : ∃ p t, s.nextPos = .issued p t := by
  cases hn : s.nextPos with
  | issued p t => exact ⟨p, t, rfl⟩
  | exhausted =>
    have hfull := (State.exhausted_iff s).1 ((State.nextPos_eq_exhausted_iff s).1 hn)
    omega
  | endless =>
    obtain ⟨-, hrej⟩ := (State.nextPos_eq_endless_iff s).1 hn
    obtain ⟨k, hk⟩ := h
    exact absurd (hrej k) hk

end Ends

theorem State.nextPos_of_full {s : State} (h : s.capacity ≤ s.issued.toNat) : s.nextPos = .exhausted :=
  (State.nextPos_eq_exhausted_iff s).2 ((State.exhausted_iff s).2 h)

theorem State.capacity_le_of_exhausted {s : State} (h : s.nextPos = .exhausted) : s.capacity ≤ s.issued.toNat :=
  (State.exhausted_iff s).1 ((State.nextPos_eq_exhausted_iff s).1 h)

/-- Settles O22: the first `k` draws are rejected and draw `k` lands, so `NextPos` ends with it. -/
theorem nextposIssuesTheFirstFreeDraw : Obligations.NextposIssuesTheFirstFreeDraw := by
  intro s k hp hfree hrej hland
  have hn := State.nextPos_of_landsAt (s := s) hfree ⟨hrej, hland⟩
  exact ⟨exec_nextpos_of_issued hp hn, fun x => mem_usedInsert⟩

/-- Settles O23: the exhaustion test comes first, and in another phase the command is refused. -/
theorem nextposFaultsWhenNothingIsFree : Obligations.NextposFaultsWhenNothingIsFree :=
  ⟨fun _ hp hfull => exec_nextpos_of_exhausted hp (State.nextPos_of_full hfull),
    fun _ hp => exec_nextpos_of_ne_ready hp⟩

/-- Settles O24: with a position free, `NextPos` is endless when all draws are rejected and issues a position when one is
not; a hang and an end are told apart by `hung`. -/
theorem nextposHangsExactlyWhenNoDrawLands : Obligations.NextposHangsExactlyWhenNoDrawLands := by
  intro s hp hu hfree
  have hhang : (∀ k, s.rejects k) → exec .nextpos s = .next s.hang := fun hrej =>
    exec_nextpos_of_endless hp (State.nextPos_of_rejects hfree hrej)
  have hends : (∃ k, ¬ s.rejects k) → ∃ t, exec .nextpos s = .next t ∧ t.hung = false ∧
      t.phase = .positionStreamReady ∧ t.issued = s.issued + 1#40 := fun hex => by
    obtain ⟨p, t, hn⟩ := State.nextPos_issued_of_exists hfree hex
    obtain ⟨⟨r, q, rfl⟩, -⟩ := State.nextPos_issued hn
    exact ⟨_, exec_nextpos_of_issued hp hn, hu, hp, rfl⟩
  have hdiffer : ∀ t, exec .nextpos s = .next t → t.hung = false → exec .nextpos s ≠ .next s.hang :=
    fun t ht hf heq => by
      rw [ht] at heq
      cases heq
      cases hf
  refine ⟨⟨hhang, fun h => ?_⟩, ⟨hends, fun ⟨t, ht, hf, _⟩ => ?_⟩⟩
  · by_contra hex
    obtain ⟨t, ht, hf, -⟩ := hends (not_forall.1 hex)
    exact hdiffer t ht hf h
  · by_contra hex
    exact hdiffer t ht hf (hhang fun k => by_contra fun hk => hex ⟨k, hk⟩)

/-! ### Walks and the set of issued positions (R129) -/

section Walk
variable {n : Nat} {s t : State} {ps : List Position} (h : State.positions n s = some (ps, t))
include h

/-- `USED` grows by exactly the positions of the walk. -/
theorem State.positions_mem_used_iff (p : Position) : p ∈ t.used ↔ p ∈ ps ∨ p ∈ s.used := by
  induction n generalizing s ps with
  | zero => cases h; simp
  | succ n ih =>
    obtain ⟨q, qs, u, hn, hq, rfl⟩ := State.positions_succ_eq_some_iff.1 h
    obtain ⟨⟨r, x, rfl⟩, -⟩ := State.nextPos_issued hn
    rw [ih hq, State.issue_used, State.drawn_used, mem_usedInsert, List.mem_cons]
    tauto

theorem State.positions_usedOk (hs : s.UsedOk) : t.UsedOk := by
  induction n generalizing s ps with
  | zero => cases h; exact hs
  | succ n ih =>
    obtain ⟨q, qs, u, hn, hq, rfl⟩ := State.positions_succ_eq_some_iff.1 h
    exact ih hq (State.nextPos_usedOk hs hn)

theorem State.positions_capacity : t.capacity = s.capacity := by
  rw [State.positions_withStream h]
  rfl

end Walk

theorem State.UsedOk.issued_le {s : State} (h : s.UsedOk) : s.issued.toNat ≤ s.capacity := by
  rw [h.counted]
  exact h.bounded

/-- Settles O25: each clause is a fact about walks, and `ISSUED` counts a set that fits the geometry. -/
theorem positionsNeverRepeat : Obligations.PositionsNeverRepeat := by
  intro n s t ps hs h
  have ht : t.UsedOk := State.positions_usedOk h hs
  have hcount := State.positions_issued_toNat h
  have hbound := ht.issued_le
  rw [State.positions_capacity h, hcount] at hbound
  exact ⟨State.positions_length h, State.positions_nodup h,
    fun p hp => ⟨State.positions_not_mem_used h p hp, State.positions_inGeometry h p hp⟩,
    State.positions_mem_used_iff h, hcount, hbound, ht⟩

/-! ### What `NEXTPOS` depends on (R129) -/

theorem State.SameStream.capacity_eq {s t : State} (h : s.SameStream t) : t.capacity = s.capacity := by
  rw [State.capacity, State.capacity, h.pixelCount, h.usableCh]

theorem State.SameStream.nextPos_exhausted {s t : State} (h : s.SameStream t) (hs : s.nextPos = .exhausted) :
    t.nextPos = .exhausted := by
  refine State.nextPos_of_full ?_
  rw [h.capacity_eq, ← h.issued]
  exact State.capacity_le_of_exhausted hs

/-- The other stream would issue the same position or be exhausted too. -/
theorem State.SameStream.nextPos_endless {s t : State} (h : s.SameStream t) (hs : s.nextPos = .endless) :
    t.nextPos = .endless := by
  cases ht : t.nextPos with
  | endless => rfl
  | issued p u =>
    obtain ⟨v, hv, -⟩ := h.symm.nextPos ht
    cases hs.symm.trans hv
  | exhausted => cases hs.symm.trans (h.symm.nextPos_exhausted ht)

/-- Settles O26: streams that agree end alike; a position is issued exactly where `ISSUED` moves on. -/
theorem positionsFollowGeneratorAndGeometry : Obligations.PositionsFollowGeneratorAndGeometry := by
  intro s t s' hp hq hprng hused hissued hP hC hu hv h
  have hsame : s.SameStream t := ⟨hprng, hused, hissued, hP, hC⟩
  rcases execNextpos_next h with ⟨hne, -⟩ | ⟨-, ⟨p, hn⟩ | ⟨hn, rfl⟩ | ⟨hn, rfl⟩⟩
  · exact absurd hp hne
  · obtain ⟨t', hn', hstream, hdraw, hpos⟩ := hsame.nextPos hn
    have hs' := State.withStream_fields (State.nextPos_withStream hn)
    have ht' := State.withStream_fields (State.nextPos_withStream hn')
    exact ⟨t', exec_nextpos_of_issued hq hn', hstream.prng.symm, hstream.used.symm, hstream.issued.symm,
      by simp [hs', ht', hp, hq], by simp [hs', ht', hu, hv], fun _ => ⟨hpos, hdraw⟩⟩
  · exact ⟨_, exec_nextpos_of_exhausted hq (hsame.nextPos_exhausted hn), hprng.symm, hused.symm, hissued.symm, rfl,
      hv.trans hu.symm, fun hne => absurd rfl hne⟩
  · exact ⟨_, exec_nextpos_of_endless hq (hsame.nextPos_endless hn), hprng.symm, hused.symm, hissued.symm,
      hq.trans hp.symm, rfl, fun hne => absurd rfl hne⟩

/-! ### The all-zero generator (R123, R212) -/

theorem prngAfter_quadZero (k : Nat) : prngAfter k Quad.zero = Quad.zero := by
  rw [prngAfter_eq_iterate]
  exact Function.iterate_fixed drawState_zero k

theorem drawAt_quadZero (k : Nat) : drawAt k Quad.zero = 0#64 := by
  rw [drawAt, prngAfter_quadZero]
  decide

/-- Settles O19: a draw writes functions of `s`, and the all-zero state is a fixed point of the draw step. -/
theorem zeroGeneratorStaysZero : Obligations.ZeroGeneratorStaysZero := by
  refine ⟨fun s t s' t' hp hq heq hs ht => ?_, fun k => ⟨prngAfter_quadZero k, drawAt_quadZero k⟩⟩
  rw [exec_draw_of_ready hp] at hs
  rw [exec_draw_of_ready hq] at ht
  cases hs
  cases ht
  exact ⟨congrArg drawState heq, congrArg drawOutput heq⟩

/-- A draw of 0 stands for the first channel of the first pixel. -/
theorem reducePos_zero (P : Word32) (C : BitVec 8) : reducePos P C 0#64 = ⟨0#32, 0#8⟩ := by
  simp [reducePos]

section ZeroGenerator
variable {s : State} (hp : s.phase = .positionStreamReady) (hz : s.prng = Quad.zero)
  (hfree : s.issued.toNat < s.capacity)

theorem State.candidate_drawAt_of_zero (hz : s.prng = Quad.zero) (k : Nat) :
    s.candidate (drawAt k s.prng) = ⟨0#32, 0#8⟩ := by
  rw [hz, drawAt_quadZero, State.candidate, reducePos_zero]

include hp hz hfree

theorem exec_nextpos_of_zero_of_unused (hnew : (⟨0#32, 0#8⟩ : Position) ∉ s.used) :
    exec .nextpos s = .next ((s.drawn 0#64 Quad.zero).issue ⟨0#32, 0#8⟩) := by
  have hl : s.landsAt 0 := by
    refine ⟨fun j hj => absurd hj (Nat.not_lt_zero j), ?_⟩
    rwa [State.rejects, State.candidate_drawAt_of_zero hz]
  have hn := State.nextPos_of_landsAt hfree hl
  rw [State.candidate_drawAt_of_zero hz, hz, drawAt_quadZero, prngAfter_quadZero] at hn
  exact exec_nextpos_of_issued hp hn

theorem exec_nextpos_of_zero_of_used (hused : (⟨0#32, 0#8⟩ : Position) ∈ s.used) :
    exec .nextpos s = .next s.hang := by
  refine exec_nextpos_of_endless hp (State.nextPos_of_rejects hfree fun k => ?_)
  rwa [State.rejects, State.candidate_drawAt_of_zero hz]

end ZeroGenerator

/-- Settles O27: from the all-zero generator the one candidate is `(0, 0)`, issued where it is unused and rejected for
ever where it is used; `PSOPEN` on an all-zero seed gives such a generator and an empty set. -/
theorem zeroGeneratorHangs : Obligations.ZeroGeneratorHangs := by
  refine ⟨fun s hp hz hfree hnew => ?_, fun s hp hz hfree hused => exec_nextpos_of_zero_of_used hp hz hfree hused,
    fun s hp hz hcap => ?_⟩
  · have hissued : ((s.drawn 0#64 Quad.zero).issue ⟨0#32, 0#8⟩).issued.toNat = s.issued.toNat + 1 :=
      BitVec.toNat_add_of_lt (x := s.issued) (y := 1#40) (lt_of_le_of_lt hfree s.capacity_lt)
    have hstate : (s.drawn 0#64 Quad.zero).issue ⟨0#32, 0#8⟩ = { s with
        draw := 0#64, used := usedInsert ⟨0#32, 0#8⟩ s.used, issued := s.issued + 1#40, pos := ⟨0#32, 0#8⟩ } := by
      rw [State.issue, State.drawn, ← show s.prng = Quad.zero from hz]
    have hfirst := exec_nextpos_of_zero_of_unused hp hz hfree hnew
    rw [hstate] at hfirst hissued
    exact ⟨hfirst, fun x => mem_usedInsert, hissued, fun hmore =>
      exec_nextpos_of_zero_of_used hp hz (lt_of_eq_of_lt hissued hmore) (mem_usedInsert.2 (.inl rfl))⟩
  · have hopen := exec_psopen_of_seedDerived hp
    have hfirst := exec_nextpos_of_zero_of_unused (s := s.openStream.toPhase .positionStreamReady) rfl hz
      (lt_of_lt_of_le Nat.two_pos hcap) List.not_mem_nil
    exact ⟨_, runCommands_cons_iff.2 ⟨_, hopen, runCommands_singleton_iff.2 hfirst⟩, rfl, rfl, rfl, rfl, rfl, rfl, rfl,
      exec_nextpos_of_zero_of_used rfl rfl (lt_of_lt_of_le Nat.one_lt_two hcap) (mem_usedInsert.2 (.inl rfl))⟩

end Sys2Proof.Machine
end

section
/-!
PROOFS. How the loops of `EMBED` and `EXTRACT` stop (spec/44_embedding_engine.md R161 to R168): each makes some walk
and goes no further, it is never exhausted while enough positions are free, and where it is exhausted all are issued.
-/

namespace Sys2Proof.Machine

/-! ### How far a walk gets -/

theorem State.positions_zero (s : State) : State.positions 0 s = some ([], s) := rfl

theorem State.positions_one_of_issued {s t : State} {p : Position} (h : s.nextPos = .issued p t) :
    State.positions 1 s = some ([p], t) :=
  State.positions_succ_eq_some_iff.2 ⟨p, [], t, h, rfl, rfl⟩

/-- A walk that ends does not go on from its last state. -/
theorem State.nextPos_of_positions_none {m : Nat} {s t u : State} {ps : List Position} {p : Position}
    (h : State.positions m s = some (ps, t)) (hnone : State.positions (m + 1) s = none) :
    t.nextPos ≠ .issued p u := fun hn => by
  rw [State.positions_append h (State.positions_one_of_issued hn)] at hnone
  cases hnone

/-- Of `n` rounds, all can be made or there is a last one. -/
theorem State.exists_longest_walk (n : Nat) (s : State) :
    ∃ m ps t, m ≤ n ∧ State.positions m s = some (ps, t) ∧ (m = n ∨ State.positions (m + 1) s = none) := by
  induction n with
  | zero => exact ⟨0, [], s, le_rfl, rfl, .inl rfl⟩
  | succ n ih =>
    obtain ⟨m, ps, t, hm, hpos, rfl | hnone⟩ := ih
    · cases hnext : State.positions (m + 1) s with
      | none => exact ⟨m, ps, t, Nat.le_succ m, hpos, .inr hnext⟩
      | some r => exact ⟨m + 1, r.1, r.2, le_rfl, hnext, .inl rfl⟩
    · exact ⟨m, ps, t, by omega, hpos, .inr hnone⟩

/-- The loop of `EMBED` stops where its walk does, with the bits of that walk written. -/
theorem embedLoop_state_of_positions {n m : Nat} (i : Nat) {s t : State} {ps : List Position} (hnm : n ≤ m)
    (h : State.positions n s = some (ps, t)) (hstop : n = m ∨ State.positions (n + 1) s = none) :
    (embedLoop m i s).state = { t with imgmem := s.embedImage i ps s.imgmem } := by
  obtain ⟨k, rfl⟩ := Nat.exists_eq_add_of_le hnm
  rw [embedLoop_append k i h]
  cases k with
  | zero => rfl
  | succ k =>
    have hnone : State.positions (n + 1) s = none := hstop.resolve_left (by omega)
    rw [embedLoop]
    split
    · rename_i p u hn
      have hsame : State.SameStream { t with imgmem := s.embedImage i ps s.imgmem } t := ⟨rfl, rfl, rfl, rfl, rfl⟩
      obtain ⟨v, hv, -⟩ := hsame.nextPos hn
      exact absurd hv (State.nextPos_of_positions_none h hnone)
    · rfl
    · rfl

/-! ### Enough positions free (R163, R168) -/

/-- A round takes one of the positions that are free. -/
theorem State.room_of_nextPos {s t : State} {p : Position} {n : Nat} (h : s.nextPos = .issued p t)
    (hroom : n + 1 + s.issued.toNat ≤ s.capacity) : n + t.issued.toNat ≤ t.capacity := by
  have hissued := State.issued_toNat_of_nextPos h
  have hcap : t.capacity = s.capacity := by rw [State.nextPos_withStream h]; rfl
  omega

theorem State.not_exhausted_of_room {s : State} {n : Nat} (hroom : n + 1 + s.issued.toNat ≤ s.capacity) :
    s.nextPos ≠ .exhausted := fun hn => by
  have hfull := State.capacity_le_of_exhausted hn
  omega

theorem embedLoop_not_exhausted {n : Nat} (i : Nat) {s u : State} (hroom : n + s.issued.toNat ≤ s.capacity) :
    embedLoop n i s ≠ .exhausted u := by
  induction n generalizing i s with
  | zero => exact nofun
  | succ n ih =>
    rw [embedLoop]
    split
    · rename_i p t hn
      have hrest := State.room_of_nextPos hn hroom
      exact ih (i + 1) hrest
    · rename_i hn
      exact absurd hn (State.not_exhausted_of_room hroom)
    · exact nofun

theorem readBits_not_exhausted {n : Nat} {s u : State} (hroom : n + s.issued.toNat ≤ s.capacity) :
    readBits n s ≠ .exhausted u := by
  induction n generalizing s u with
  | zero => exact nofun
  | succ n ih =>
    rw [readBits]
    split
    · rename_i p t hn
      split
      · exact nofun
      · rename_i v hr
        exact absurd hr (ih (State.room_of_nextPos hn hroom))
      · exact nofun
    · rename_i hn
      exact absurd hn (State.not_exhausted_of_room hroom)
    · exact nofun

theorem extractBytes_not_exhausted {n : Nat} (j : Nat) {s u : State} (hroom : 8 * n + s.issued.toNat ≤ s.capacity) :
    extractBytes n j s ≠ .exhausted u := by
  induction n generalizing j s with
  | zero => exact nofun
  | succ n ih =>
    rw [extractBytes]
    split
    · rename_i bits t hr
      obtain ⟨ps, hpos, -⟩ := positions_of_readBits hr
      have hissued := State.positions_issued_toNat hpos
      have hcap := State.positions_capacity hpos
      refine ih (j + 1) ?_
      show 8 * n + t.issued.toNat ≤ t.capacity
      omega
    · rename_i v hr
      exact absurd hr (readBits_not_exhausted (by omega))
    · exact nofun

/-! ### The points at which `EXTRACT` is exhausted (R165, R166) -/

/-- Reading bits is exhausted at the end of a walk, where nothing is free. -/
theorem positions_of_readBits_exhausted {n : Nat} {s u : State} (h : readBits n s = .exhausted u) :
    ∃ m ps, m < n ∧ State.positions m s = some (ps, u) ∧ u.nextPos = .exhausted := by
  induction n generalizing s with
  | zero => cases h
  | succ n ih =>
    rw [readBits] at h
    split at h
    · rename_i p t hn
      split at h
      · cases h
      · rename_i v hr
        cases h
        obtain ⟨m, ps, hm, hpos, hx⟩ := ih hr
        exact ⟨m + 1, p :: ps, by omega, State.positions_succ_eq_some_iff.2 ⟨p, ps, t, hn, hpos, rfl⟩, hx⟩
      · cases h
    · rename_i hn
      cases h
      exact ⟨0, [], Nat.succ_pos n, rfl, hn⟩
    · cases h

theorem readBits_of_positions_exhausted {m n : Nat} {s t : State} {ps : List Position} (hmn : m < n)
    (h : State.positions m s = some (ps, t)) (hx : t.nextPos = .exhausted) : readBits n s = .exhausted t := by
  induction m generalizing n s ps with
  | zero =>
    cases h
    obtain ⟨k, rfl⟩ := Nat.exists_eq_succ_of_ne_zero (Nat.ne_of_gt hmn)
    rw [readBits, hx]
  | succ m ih =>
    obtain ⟨p, qs, u, hn, hq, rfl⟩ := State.positions_succ_eq_some_iff.1 h
    obtain ⟨k, rfl⟩ := Nat.exists_eq_succ_of_ne_zero (Nat.ne_of_gt (Nat.zero_lt_of_lt hmn))
    rw [readBits, hn]
    dsimp only
    rw [ih (by omega) hq]

/-- The walk of `EXTRACT` is exhausted among the 32 length bits, or its length does not fit; the byte loop never is. -/
theorem extractWalk_exhausted {limit : Nat} {s u : State} (h : extractWalk limit s = .exhausted u) :
    (∃ m ps, m < 32 ∧ State.positions m s = some (ps, u) ∧ u.nextPos = .exhausted) ∨
    ∃ ps t, State.positions 32 s = some (ps, t) ∧ u = t.setRlen (lenFromBits (s.lsbs ps)) ∧
      s.capacity < 8 * (lenFromBits (s.lsbs ps)).toNat + t.issued.toNat := by
  rcases extractWalk_cases limit s with ⟨t, hr, hw⟩ | ⟨t, hr, hw⟩ | ⟨bits, t, hr, ⟨hroom, hw⟩ | ⟨hroom, hw⟩⟩ <;>
    rw [h] at hw
  · cases hw
    exact .inl (positions_of_readBits_exhausted hr)
  · cases hw
  · obtain ⟨ps, hpos, rfl⟩ := positions_of_readBits hr
    cases hw
    have hfits : ¬ 8 * (lenFromBits (s.lsbs ps)).toNat + t.issued.toNat ≤ t.capacity :=
      mt (State.hasRoom_iff _ _).2 (Bool.not_eq_true _ ▸ hroom)
    rw [State.positions_capacity hpos] at hfits
    exact .inr ⟨ps, t, hpos, rfl, by omega⟩
  · have hfits := (State.hasRoom_iff _ _).1 hroom
    have hbytes : 8 * min limit (lenFromBits bits).toNat + (t.setRlen (lenFromBits bits)).issued.toNat ≤
        (t.setRlen (lenFromBits bits)).capacity := by omega
    exact absurd hw.symm (extractBytes_not_exhausted 0 hbytes)

end Sys2Proof.Machine
end

section
/-!
PROOFS. `EMBED` (spec/44_embedding_engine.md R161 to R163): the fault before the loop and none inside it, and what the
image keeps however the command ends.
-/

namespace Sys2Proof.Machine

/-- Settles O33: the check of R161 fails, and in another phase the command is refused. -/
theorem embedWithoutRoomFaults : Obligations.EmbedWithoutRoomFaults :=
  ⟨fun _ hp h => exec_embed_of_no_room hp h, fun _ hp => exec_embed_of_ne_ready hp⟩

/-- An `EMBED` that ends in `Failed` had no room (R163). -/
theorem execEmbed_failed {s t : State} (hp : s.phase = .positionStreamReady) (h : execEmbed s = .next t)
    (hf : t.phase = .failed) : t = s.raiseCapacityExceeded ∧ s.capacity < s.streamLen + s.issued.toNat := by
  rcases execEmbed_next h with ⟨hne, -⟩ | ⟨-, hroom, rfl⟩ | ⟨-, hroom, -, hw⟩
  · exact absurd hp hne
  · have hfits := mt (s.hasRoom_iff s.streamLen).2 (Bool.eq_false_iff.1 hroom)
    exact ⟨rfl, by omega⟩
  · have hfits := (s.hasRoom_iff s.streamLen).1 hroom
    have hphase := congrArg State.phase (embedLoop_frame s.streamLen 0 (s.toPhase .embedding))
    rcases Walk.outcome_next hw with ⟨u, hu, rfl⟩ | ⟨u, hu, rfl⟩ | ⟨u, hu, rfl⟩
    · cases hf
    · exact absurd hu (embedLoop_not_exhausted 0 hfits)
    · rw [hu] at hphase
      cases hphase.symm.trans hf

/-- Settles O34: the loop of `EMBED` is entered with room for all its bits, so the one fault is that before it. -/
theorem embedNeverFaultsHalfWay : Obligations.EmbedNeverFaultsHalfWay :=
  fun _ _ _ hp h hf => execEmbed_failed hp h hf

/-! ### What the image keeps (R162, R163) -/

theorem withLsb_and_fe (v : Byte) (b : Bool) : withLsb v b &&& 0xFE#8 = v &&& 0xFE#8 := by
  have hbit : bitWord 8 b &&& 0xFE#8 = 0#8 := by cases b <;> rfl
  rw [withLsb, BitVec.and_or_distrib_right, hbit, BitVec.or_zero, BitVec.and_assoc, BitVec.and_self]

/-- Bits 7 to 1 are kept at every address, also one written twice. -/
theorem State.read_embedImage_and_fe (s : State) (i : Nat) (ps : List Position) {m : Memory} (hm : m.wf) (a : Nat) :
    (s.embedImage i ps m).read a &&& 0xFE#8 = m.read a &&& 0xFE#8 := by
  induction ps generalizing i m with
  | nil => rfl
  | cons p ps ih =>
    rw [State.embedImage, ih (i + 1) (Memory.write_wf hm _ _)]
    by_cases ha : a = s.lsbAddr p
    · rw [ha, Memory.read_write_same hm, withLsb_and_fe]
    · rw [Memory.read_write_other _ _ ha]

/-- The bytes of a pixel behind its channels stand for no position (R44). -/
theorem State.pad_ne_lsbAddr {s : State} {p : Position} (hp : s.inGeometry p) {pix c : Nat}
    (hc : s.usableCh.toNat ≤ c) (hstride : c < s.stride) : pix * s.stride + c ≠ s.lsbAddr p := fun heq => by
  obtain ⟨-, hmod⟩ := State.lsbAddr_div_mod_stride hp
  obtain ⟨-, hch⟩ := hp
  rw [← heq, Nat.add_comm, Nat.add_mul_mod_self_right, Nat.mod_eq_of_lt hstride] at hmod
  omega

/-- Whatever state `EMBED` answers, its image is that of some walk, and the positions of the walk are in `USED`. -/
theorem execEmbed_image {s t : State} (h : execEmbed s = .next t) :
    ∃ n ps u, State.positions n s = some (ps, u) ∧ t.imgmem = s.embedImage 0 ps s.imgmem ∧ t.used = u.used := by
  rcases execEmbed_next h with ⟨-, rfl⟩ | ⟨-, -, rfl⟩ | ⟨-, -, -, hw⟩
  · exact ⟨0, [], s, rfl, rfl, rfl⟩
  · exact ⟨0, [], s, rfl, rfl, rfl⟩
  · obtain ⟨n, ps, u, hn, hpos, hstop⟩ := State.exists_longest_walk s.streamLen (s.toPhase .embedding)
    have hstate := embedLoop_state_of_positions 0 hn hpos hstop
    have hsame : (s.toPhase .embedding).SameStream s := ⟨rfl, rfl, rfl, rfl, rfl⟩
    have hwalk := hsame.positions_eq rfl rfl hpos
    rw [Walk.outcome_frame hw, hstate, State.embedImage_toPhase]
    exact ⟨n, ps, _, hwalk, rfl, rfl⟩

/-- Settles O35: the walk's positions are new and in the geometry, each write keeps bits 7 to 1 of its byte, and no
other byte is written. -/
theorem embedTouchesOnlyLsbs : Obligations.EmbedTouchesOnlyLsbs := by
  intro s t hwf h
  obtain ⟨n, ps, u, hpos, himg, hused⟩ := execEmbed_image h
  have hgeo := State.positions_inGeometry hpos
  obtain ⟨hkey, hmsg, -⟩ := commandsLeaveOtherMemoryAndConfiguration .embed s t h
  have hother : ∀ a, (∀ p ∈ ps, a ≠ s.lsbAddr p) → t.imgmem.read a = s.imgmem.read a := fun a ha => by
    rw [himg, s.read_embedImage_other 0 ps s.imgmem ha]
  refine ⟨fun a => ?_, fun a ha => hother a fun p hp => ?_, fun pix c _ hc hlt => hother _ fun p hp => ?_,
    fun a ha => hother a fun p hp => ?_, hkey, hmsg nofun⟩
  · rw [himg, s.read_embedImage_and_fe 0 ps hwf]
  · have hmem : p ∈ t.used := by
      rw [hused, State.positions_mem_used_iff hpos]
      exact .inl hp
    exact ha p hmem (State.positions_not_mem_used hpos p hp)
  · exact State.pad_ne_lsbAddr (hgeo p hp) hc hlt
  · exact Nat.ne_of_gt (lt_of_lt_of_le (State.lsbAddr_lt (hgeo p hp)) ha)

end Sys2Proof.Machine
end

section
/-!
PROOFS. `EXTRACT` (spec/44_embedding_engine.md R164 to R168): its normal end, its two faults, and what it keeps however
it ends.
-/

namespace Sys2Proof.Machine

/-- The memory that `n` message bytes leave, read at every address. -/
theorem writtenBytes_read (n : Nat) (bits : List Bool) {m : Memory} (hwf : m.wf) :
    (∀ j < n, (writtenBytes n 0 bits m).read j = byteFromBits ((bits.drop (8 * j)).take 8)) ∧
    ∀ a, n ≤ a → (writtenBytes n 0 bits m).read a = m.read a := by
  refine ⟨fun j hj => ?_, fun a ha => read_writtenBytes_other n 0 bits m (.inr (by omega))⟩
  have hread := read_writtenBytes_at n 0 bits hwf hj
  rwa [Nat.zero_add] at hread

/-- Settles O36: over walks that can be made the command answers the state of `exec_extract_of_positions`; its bytes
are those of `writtenBytes`. -/
theorem extractReadsTheMessage : Obligations.ExtractReadsTheMessage := by
  intro s t u ps qs hp hwf hb hpre hroom hmsg
  exact ⟨State.withStream_trans (State.positions_withStream hpre) (State.positions_withStream hmsg), _,
    exec_extract_of_positions hp hb hpre rfl hroom hmsg, writtenBytes_read _ (s.lsbs qs) hwf⟩

/-- A walk of all the free positions leaves none. -/
theorem State.nextPos_exhausted_of_positions {s t : State} {ps : List Position}
    (h : State.positions (s.capacity - s.issued.toNat) s = some (ps, t)) : t.nextPos = .exhausted := by
  refine State.nextPos_of_full ?_
  rw [State.positions_capacity h, State.positions_issued_toNat h]
  omega

/-- Settles O37: the walk takes all the free positions and the next `NextPos` raises; in another phase the command is
refused. -/
theorem extractPrefixFaults : Obligations.ExtractPrefixFaults := by
  refine ⟨fun s t ps hp hb hfew hpos => ⟨State.positions_withStream hpos, ?_⟩, fun _ hp => exec_extract_of_ne_ready hp⟩
  have hsame : t.SameStream (t.toPhase .extracting) := ⟨rfl, rfl, rfl, rfl, rfl⟩
  have hx := hsame.nextPos_exhausted (State.nextPos_exhausted_of_positions hpos)
  rw [exec_extract_of_backed hp hb, extractWalk, Config.lenWidth,
    readBits_of_positions_exhausted hfew (State.positions_toPhase .extracting hpos) hx]
  rfl

/-- R166: a length that does not fit faults before any byte. -/
theorem extractMessage_of_no_room {limit : Nat} {bits : List Bool} {s : State}
    (h : s.capacity < 8 * (lenFromBits bits).toNat + s.issued.toNat) :
    extractMessage limit bits s = .exhausted (s.setRlen (lenFromBits bits)) := by
  have hroom : ¬ (s.setRlen (lenFromBits bits)).hasRoom (8 * (lenFromBits bits).toNat) = true := by
    rw [State.hasRoom_iff]
    exact Nat.not_le_of_lt h
  simp only [extractMessage, if_neg hroom]

/-- Settles O38: the 32 length bits are read, the length is written, and its validation fails. -/
theorem extractLengthFaults : Obligations.ExtractLengthFaults := by
  intro s t ps hp hb hpos hlong
  refine ⟨State.positions_withStream hpos, ?_⟩
  have hno : (t.toPhase .extracting).capacity <
      8 * (lenFromBits ((s.toPhase .extracting).lsbs ps)).toNat + (t.toPhase .extracting).issued.toNat := by
    rw [← State.positions_capacity hpos] at hlong
    exact hlong
  rw [exec_extract_of_backed hp hb, extractWalk_of_positions (State.positions_toPhase .extracting hpos),
    extractMessage_of_no_room hno]
  rfl

/-! ### What MSGMEM keeps (R167, R168) -/

/-- However the byte loop ends, it has written at most the bytes it was to write. -/
theorem extractBytes_read_other {n j a : Nat} (ha : j + n ≤ a) (s : State) :
    (extractBytes n j s).state.msgmem.read a = s.msgmem.read a := by
  induction n generalizing j s with
  | zero => rfl
  | succ n ih =>
    have hframe := readBits_frame 8 s
    rw [extractBytes]
    split <;> rename_i hr <;> rw [hr] at hframe <;>
      obtain ⟨-, -, -, -, -, -, -, -, -, -, -, hmsg, -⟩ := State.withStream_fields hframe <;> rw [← hmsg]
    · rw [ih (by omega), State.writeByte_msgmem_msgmem, Memory.read_write_other _ _ (by omega)]
      rfl
    · rfl
    · rfl

/-- However the walk of `EXTRACT` ends, MSGMEM keeps what stands at and above the length read, or all of it. -/
theorem extractWalk_read_other (limit : Nat) (s : State) {a : Nat}
    (ha : min limit (extractWalk limit s).state.rlen.toNat ≤ a) :
    (extractWalk limit s).state.msgmem.read a = s.msgmem.read a := by
  have hbits := readBits_frame 32 s
  rcases extractWalk_cases limit s with ⟨u, hr, hw⟩ | ⟨u, hr, hw⟩ | ⟨bits, u, hr, ⟨-, hw⟩ | ⟨-, hw⟩⟩ <;>
    rw [hr] at hbits <;>
    obtain ⟨-, -, -, -, -, -, -, -, -, -, -, hmsg, -⟩ := State.withStream_fields (show u = s.withStream u from hbits) <;>
    rw [hw] at ha ⊢
  · rw [← hmsg]; rfl
  · rw [← hmsg]; rfl
  · rw [← hmsg]; rfl
  · obtain ⟨-, -, -, -, hrlen, -⟩ := State.withStreamAndMessage_fields
      (extractBytes_frame (min limit (lenFromBits bits).toNat) 0 (u.setRlen (lenFromBits bits)))
    rw [hrlen] at ha
    rw [extractBytes_read_other (by rwa [Nat.zero_add]), ← hmsg]
    rfl

/-- A walk of `EXTRACT` that is exhausted has written no message byte (R168). -/
theorem extractWalk_exhausted_msgmem {limit : Nat} {s u : State} (h : extractWalk limit s = .exhausted u) :
    u.msgmem = s.msgmem := by
  rcases extractWalk_exhausted h with ⟨m, ps, -, hpos, -⟩ | ⟨ps, t, hpos, rfl, -⟩ <;>
    obtain ⟨-, -, -, -, -, -, -, -, -, -, -, hmsg, -⟩ := State.withStream_fields (State.positions_withStream hpos) <;>
    exact hmsg

/-- An `EXTRACT` that ends in `Failed` ended so with its walk exhausted. -/
theorem execExtract_failed {s t : State} (hp : s.phase = .positionStreamReady) (h : execExtract s = .next t)
    (hf : t.phase = .failed) :
    ∃ u, extractWalk Config.msgSpace (s.toPhase .extracting) = .exhausted u ∧ t = u.raiseCapacityExceeded := by
  rcases execExtract_next h with ⟨hne, -⟩ | ⟨-, -, hw⟩
  · exact absurd hp hne
  · have hphase : (extractWalk Config.msgSpace (s.toPhase .extracting)).state.phase = .extracting := by
      rw [extractWalk_frame]; rfl
    rcases Walk.outcome_next hw with ⟨u, -, rfl⟩ | ⟨u, hu, rfl⟩ | ⟨u, hu, rfl⟩
    · cases hf
    · exact ⟨u, hu, rfl⟩
    · rw [hu] at hphase
      cases hphase.symm.trans hf

/-- Settles O39: IMGMEM and KEYMEM are in no frame of `EXTRACT`; an exhausted walk has written no byte; the byte loop
writes below `RLEN`. -/
theorem extractNeverWritesTheImage : Obligations.ExtractNeverWritesTheImage := by
  intro s t h
  obtain ⟨hkey, -, himg, -⟩ := commandsLeaveOtherMemoryAndConfiguration .extract s t h
  refine ⟨himg nofun, hkey, fun _ hp hf => ?_, fun _ a ha => ?_⟩
  · obtain ⟨u, hu, rfl⟩ := execExtract_failed hp h hf
    have hmsg := extractWalk_exhausted_msgmem hu
    exact hmsg
  · rcases execExtract_next h with ⟨-, rfl⟩ | ⟨-, -, hw⟩
    · rfl
    · rw [Walk.outcome_frame hw] at ha ⊢
      exact extractWalk_read_other Config.msgSpace (s.toPhase .extracting) ((Nat.min_le_right _ _).trans ha)

end Sys2Proof.Machine
end

section
/-!
PROOFS. The one fault and the unbacked launches (spec/60_exceptions.md R181, spec/20_memory.md R57).
-/

namespace Sys2Proof.Machine

/-- Without capacity nothing fits. -/
theorem State.capacity_eq_zero {s : State} (h : s.pixelCount = 0#32 ∨ s.usableCh = 0#8) : s.capacity = 0 := by
  rcases h with h | h <;> simp [State.capacity, h]

/-- An `EXTRACT` with nothing free faults before its first read, whatever is backed (R165). -/
theorem exec_extract_of_exhausted {s : State} (hp : s.phase = .positionStreamReady) (hx : s.nextPos = .exhausted) :
    exec .extract s = .next s.raiseCapacityExceeded := by
  have hb : s.launchBacked .extract = true := by
    rw [State.launchBacked, (State.nextPos_eq_exhausted_iff s).1 hx, Bool.true_or]
  have hsame : s.SameStream (s.toPhase .extracting) := ⟨rfl, rfl, rfl, rfl, rfl⟩
  rw [exec_extract_of_backed hp hb, extractWalk, Config.lenWidth,
    readBits_of_positions_exhausted (by decide) (State.positions_zero _) (hsame.nextPos_exhausted hx)]
  rfl

/-- Settles O42: nothing is free, and the BitStream has 32 bits at least. -/
theorem capacityZeroFaultsAtOnce : Obligations.CapacityZeroFaultsAtOnce := by
  intro s i hp h0 hi
  have hcap := State.capacity_eq_zero h0
  have hx : s.nextPos = .exhausted := State.nextPos_of_full (by omega)
  have hlen : s.streamLen = 32 + 8 * s.msgLen.toNat := rfl
  rcases hi with rfl | rfl | rfl
  · exact exec_nextpos_of_exhausted hp hx
  · exact exec_embed_of_no_room hp (by omega)
  · exact exec_extract_of_exhausted hp hx

/-- A command that faults was run in `PositionStreamReady` and ended in `Failed`. -/
theorem exec_fault_phase {i : Instr} {s t : State} (hs : s.fault = .noFault) (h : exec i s = .next t)
    (ht : t.fault = .capacityExceeded) :
    s.phase = .positionStreamReady ∧ t.phase = .failed ∧ (i = .nextpos ∨ i = .embed ∨ i = .extract) := by
  have hsame : t.fault ≠ s.fault := by simp [hs, ht]
  have ha : accepts i s.phase = true := by
    by_contra hna
    rw [exec_of_not_accepts (Bool.eq_false_iff.2 hna)] at h
    cases h
    exact hsame rfl
  cases i with
  | init =>
    obtain rfl := execInit_next h
    cases ht
  | kseed => exact absurd (exec_fault_of_no_walk (.inl rfl) h) hsame
  | psopen => exact absurd (exec_fault_of_no_walk (.inr (.inl rfl)) h) hsame
  | draw => exact absurd (exec_fault_of_no_walk (.inr (.inr rfl)) h) hsame
  | nextpos =>
    refine ⟨accepts_nextpos.1 ha, ?_, .inl rfl⟩
    rcases execNextpos_next h with ⟨-, rfl⟩ | ⟨-, ⟨p, hn⟩ | ⟨-, rfl⟩ | ⟨-, rfl⟩⟩
    · exact absurd rfl hsame
    · obtain ⟨-, hf, -⟩ := State.withStream_fields (State.nextPos_withStream hn)
      exact absurd hf hsame
    · rfl
    · exact absurd rfl hsame
  | embed =>
    refine ⟨accepts_embed.1 ha, ?_, .inr (.inl rfl)⟩
    rcases execEmbed_next h with ⟨-, rfl⟩ | ⟨-, -, rfl⟩ | ⟨-, -, -, hw⟩
    · exact absurd rfl hsame
    · rfl
    · have hf : (embedLoop s.streamLen 0 (s.toPhase .embedding)).state.fault = s.fault := by
        rw [embedLoop_frame]; rfl
      rcases Walk.outcome_status hw with ⟨-, ho, -⟩ | ⟨hd, -⟩ | ⟨-, ho, -⟩
      · exact absurd (ho.trans hf) hsame
      · exact hd
      · exact absurd (ho.trans hf) hsame
  | extract =>
    refine ⟨accepts_extract.1 ha, ?_, .inr (.inr rfl)⟩
    rcases execExtract_next h with ⟨-, rfl⟩ | ⟨-, -, hw⟩
    · exact absurd rfl hsame
    · have hf : (extractWalk Config.msgSpace (s.toPhase .extracting)).state.fault = s.fault := by
        rw [extractWalk_frame]; rfl
      rcases Walk.outcome_status hw with ⟨-, ho, -⟩ | ⟨hd, -⟩ | ⟨-, ho, -⟩
      · exact absurd (ho.trans hf) hsame
      · exact hd
      · exact absurd (ho.trans hf) hsame

/-- Points F3 and F4 of R181: what an `EXTRACT` that faults leaves in `RLEN` and `ISSUED`. -/
theorem execExtract_fault_points {s t : State} (hs : s.UsedOk) (hp : s.phase = .positionStreamReady)
    (h : execExtract s = .next t) (hf : t.phase = .failed) :
    (t.rlen = s.rlen ∧ t.issued.toNat = s.capacity ∧ t.issued.toNat < s.issued.toNat + 32) ∨
    (s.capacity < 8 * t.rlen.toNat + t.issued.toNat ∧ t.issued.toNat = s.issued.toNat + 32) := by
  obtain ⟨u, hu, rfl⟩ := execExtract_failed hp h hf
  rcases extractWalk_exhausted hu with ⟨m, ps, hm, hpos, hx⟩ | ⟨ps, v, hpos, rfl, hlong⟩
  · left
    have hissued := State.positions_issued_toNat hpos
    have hcap : u.capacity = s.capacity := by rw [State.positions_capacity hpos]; rfl
    have hle := (State.positions_usedOk hpos (hs.congr rfl rfl rfl rfl)).issued_le
    have hge := State.capacity_le_of_exhausted hx
    have hrlen : u.rlen = s.rlen := by rw [State.positions_withStream hpos]; rfl
    rw [State.toPhase_issued] at hissued
    refine ⟨hrlen, ?_, ?_⟩ <;> rw [State.raiseCapacityExceeded_issued] <;> omega
  · have hissued := State.positions_issued_toNat hpos
    exact .inr ⟨hlong, hissued⟩

/-- Settles O41: only the three commands that walk raise it, `NEXTPOS` with nothing free, `EMBED` before its loop, and
`EXTRACT` where its walk is exhausted. -/
theorem faultIsRaisedAtFourPoints : Obligations.FaultIsRaisedAtFourPoints := by
  intro i s t hs hnone h ht
  obtain ⟨hp, hf, hi⟩ := exec_fault_phase hnone h ht
  obtain ⟨hkey, hmsg, himg, -⟩ := commandsLeaveOtherMemoryAndConfiguration i s t h
  rcases hi with rfl | rfl | rfl
  · rcases execNextpos_next h with ⟨hne, -⟩ | ⟨-, ⟨p, hn⟩ | ⟨hn, rfl⟩ | ⟨-, rfl⟩⟩
    · exact absurd hp hne
    · obtain ⟨hphase, -⟩ := State.withStream_fields (State.nextPos_withStream hn)
      cases (hphase.trans hp).symm.trans hf
    · exact ⟨hf, hp, hkey, hmsg nofun, himg nofun, .inl ⟨rfl, State.capacity_le_of_exhausted hn, rfl⟩⟩
    · cases hp.symm.trans hf
  · obtain ⟨rfl, hlong⟩ := execEmbed_failed hp h hf
    exact ⟨hf, hp, hkey, hmsg nofun, rfl, .inr (.inl ⟨rfl, hlong, rfl⟩)⟩
  · obtain ⟨u, hu, rfl⟩ := execExtract_failed hp h hf
    have hmem := extractWalk_exhausted_msgmem hu
    refine ⟨hf, hp, hkey, hmem, himg nofun, ?_⟩
    rcases execExtract_fault_points hs hp h hf with hF3 | hF4
    · exact .inr (.inr (.inl ⟨rfl, hF3⟩))
    · exact .inr (.inr (.inr ⟨rfl, hF4⟩))

/-! ### Launches that are not backed (R57) -/

/-- Settles O45: past the phase check and, for `EMBED`, past R161, the check of the launch fails. -/
theorem unbackedLaunchIsRefused : Obligations.UnbackedLaunchIsRefused := by
  refine ⟨fun s hp hb => ?_, fun s hp hroom hb => ?_, fun s hp hfree hb => ?_⟩
  · have hlaunch : ¬ s.launchBacked .kseed = true := fun h => absurd (of_decide_eq_true h) (Nat.not_le_of_lt hb)
    rw [exec, execKseed, if_pos (accepts_kseed.2 hp), if_neg hlaunch]
  · have hlaunch : ¬ s.launchBacked .embed = true := by
      simp only [State.launchBacked, Bool.and_eq_true, decide_eq_true_eq]
      omega
    rw [exec, execEmbed, if_pos (accepts_embed.2 hp), if_pos ((s.hasRoom_iff _).2 hroom), if_neg hlaunch]
  · have hlaunch : ¬ s.launchBacked .extract = true := by
      rw [State.launchBacked, (State.not_exhausted_iff s).2 hfree, Bool.false_or, Bool.and_eq_true, decide_eq_true_eq,
        decide_eq_true_eq, State.longestExtract, Config.lenWidth]
      omega
    rw [exec, execExtract, if_pos (accepts_extract.2 hp), if_neg hlaunch]

end Sys2Proof.Machine
end

section
/-!
PROOFS. SHA-256 by index (spec/41_keyseeder.md R101 to R105): the padded message, the message schedule, the blocks and
rounds as sequences, and the bytes of the digest; and `KSEED` as a function of the key (R108).
-/

namespace Sys2Proof.Machine

/-! ### Padding (R101) -/

/-- The first `k` of the `m` bytes of `n` are the number it holds above the other bytes. -/
theorem foldl_bytes_mostSignificantFirst {n m k : Nat} (hn : n < 2 ^ (8 * m)) (hk : k ≤ m) :
    ((List.range k).map fun i => (BitVec.ofNat 8 (n / 2 ^ (8 * (m - 1 - i))) : Byte)).foldl
      (fun x b => x * 256 + b.toNat) 0 = n / 2 ^ (8 * (m - k)) := by
  induction k with
  | zero => exact (Nat.div_eq_of_lt hn).symm
  | succ k ih =>
    have hexp : 8 * (m - k) = 8 * (m - 1 - k) + 8 := by omega
    have hlow : m - (k + 1) = m - 1 - k := by omega
    rw [List.range_succ, List.map_append, List.map_singleton, List.foldl_concat, ih (by omega), BitVec.toNat_ofNat,
      hexp, hlow, Nat.pow_add, ← Nat.div_div_eq_div_mul]
    exact Nat.div_add_mod' _ _

theorem foldl_bigEndianBytes64 {n : Nat} (hn : n < 2 ^ 64) :
    (bigEndianBytes64 n).foldl (fun x b => x * 256 + b.toNat) 0 = n := by
  have h := foldl_bytes_mostSignificantFirst (m := 8) (k := 8) hn le_rfl
  rwa [Nat.sub_self, Nat.mul_zero, Nat.pow_zero, Nat.div_one] at h

theorem shaPadded_length (m : List Byte) : (shaPadded m).length = 64 * ((m.length + 8) / 64 + 1) := by
  simp only [shaPadded, padZeros, bigEndianBytes64, List.length_append, List.length_cons, List.length_replicate,
    List.length_map, List.length_range]
  omega

/-- Settles O14: `padZeros` is the least number of zero bytes, and the last 8 bytes hold the bit length. -/
theorem shaPaddingFillsWholeBlocks : Obligations.ShaPaddingFillsWholeBlocks := by
  intro m hm
  refine ⟨⟨padZeros m.length, bigEndianBytes64 (8 * m.length), ?_, rfl, ?_, fun y hy => ?_,
    foldl_bigEndianBytes64 (by omega)⟩, shaPadded_length m, rfl⟩
  · simp [shaPadded]
  · rw [padZeros]
    omega
  · rw [padZeros]
    omega

/-! ### The message schedule (R104) -/

/-- `W[t]` from the words before it, the newest first. -/
def scheduleWord (ws : List Word32) : Word32 :=
  ssig1 (ws.getD 1 0) + ws.getD 6 0 + ssig0 (ws.getD 14 0) + ws.getD 15 0

theorem extendSchedule_succ (n : Nat) (ws : List Word32) :
    extendSchedule (n + 1) ws = extendSchedule n (scheduleWord ws :: ws) := rfl

theorem getD_drop {α : Type} (l : List α) (i j : Nat) (d : α) : (l.drop i).getD j d = l.getD (i + j) d := by
  simp only [List.getD, List.getElem?_drop]

/-- Each new word is made of those behind it. -/
theorem extendSchedule_getD {n j : Nat} (hj : j < n) (ws : List Word32) :
    (extendSchedule n ws).getD j 0 = scheduleWord ((extendSchedule n ws).drop (j + 1)) := by
  induction n generalizing ws with
  | zero => omega
  | succ n ih =>
    rw [extendSchedule_succ]
    rcases Nat.lt_succ_iff_lt_or_eq.1 hj with hlt | rfl
    · exact ih hlt _
    · have hdrop := extendSchedule_drop j (scheduleWord ws :: ws)
      rw [← Nat.add_zero j, ← getD_drop, Nat.add_zero, ← List.drop_drop, hdrop]
      rfl

theorem schedule_getD {m : List Word32} (hm : m.length = 16) {t : Nat} (ht : t < 64) :
    (schedule m).getD t 0 = (extendSchedule 48 m.reverse).getD (63 - t) 0 := by
  have hlen : (extendSchedule 48 m.reverse).length = 64 := by
    rw [extendSchedule_length, List.length_reverse, hm]
  rw [schedule, List.getD_reverse _ (by omega), hlen]

/-- The block stands at the front of its schedule. -/
theorem schedule_eq_append (m : List Word32) : ∃ new, schedule m = m ++ new := by
  have hdrop := extendSchedule_drop 48 m.reverse
  refine ⟨((extendSchedule 48 m.reverse).take 48).reverse, ?_⟩
  rw [schedule]
  conv_lhs => rw [← List.take_append_drop 48 (extendSchedule 48 m.reverse), hdrop]
  rw [List.reverse_append, List.reverse_reverse]

/-- Settles O15: the block is the front of the schedule, and each later word is the recurrence on those before it. -/
theorem shaScheduleObeysTheRecurrence : Obligations.ShaScheduleObeysTheRecurrence := by
  intro m hm
  refine ⟨schedule_length hm, fun t ht => ?_, fun t _ h64 => ?_⟩
  · obtain ⟨new, hnew⟩ := schedule_eq_append m
    rw [hnew, List.getElem?_append_left (by omega)]
  · have h2 : 63 - t + 1 + 1 = 63 - (t - 2) := by omega
    have h7 : 63 - t + 1 + 6 = 63 - (t - 7) := by omega
    have h15 : 63 - t + 1 + 14 = 63 - (t - 15) := by omega
    have h16 : 63 - t + 1 + 15 = 63 - (t - 16) := by omega
    rw [schedule_getD hm h64, schedule_getD hm (by omega), schedule_getD hm (by omega), schedule_getD hm (by omega),
      schedule_getD hm (by omega), extendSchedule_getD (by omega), scheduleWord, getD_drop, getD_drop, getD_drop,
      getD_drop, h2, h7, h15, h16]

/-! ### Blocks, rounds and the digest (R102, R104, R105) -/

theorem blockWords_drop_toNat {p : List Byte} {b t : Nat} (hb : 64 * b + 64 ≤ p.length) (ht : t < 16) :
    ((blockWords (p.drop (64 * b))).getD t 0).toNat =
      (p.getD (64 * b + 4 * t) 0).toNat * 2 ^ 24 + (p.getD (64 * b + 4 * t + 1) 0).toNat * 2 ^ 16 +
        (p.getD (64 * b + 4 * t + 2) 0).toNat * 2 ^ 8 + (p.getD (64 * b + 4 * t + 3) 0).toNat := by
  rw [blockWords_getD (by rw [List.length_drop]; omega) ht, bigEndian32_toNat]
  simp only [getD_drop, Nat.add_assoc]

/-- Byte `k` of word `j`, the words one after another. -/
theorem getD_flatMap_wordBytes {ws : List Word32} {j k : Nat} (hj : j < ws.length) (hk : k < 4) :
    (ws.flatMap wordBytes).getD (4 * j + k) 0 = (wordBytes (ws.getD j 0)).getD k 0 := by
  induction ws generalizing j with
  | nil => simp at hj
  | cons w ws ih =>
    rw [List.flatMap_cons]
    cases j with
    | zero => rw [Nat.mul_zero, Nat.zero_add, List.getD_append _ _ _ _ hk, List.getD_cons_zero]
    | succ j =>
      have hlen : (wordBytes w).length = 4 := rfl
      rw [List.getD_append_right _ _ _ _ (by omega), hlen, show 4 * (j + 1) + k - 4 = 4 * j + k by omega,
        ih (by simpa using hj), List.getD_cons_succ]

theorem getD_wordBytes (w : Word32) {k : Nat} (hk : k < 4) :
    (wordBytes w).getD k 0 = w.extractLsb' (24 - 8 * k) 8 := by
  interval_cases k <;> rfl

/-- The eight words of a chaining value, `H[0]` first. -/
def Chain.words (h : Chain) : List Word32 := [h.a, h.b, h.c, h.d, h.e, h.f, h.g, h.h]

theorem digestBytes_eq_flatMap (h : Chain) : digestBytes h = h.words.flatMap wordBytes := rfl

theorem bsig0_eq (x : Word32) : bsig0 x = x.rotateRight 2 ^^^ x.rotateRight 13 ^^^ x.rotateRight 22 := by
  rw [bsig0, rotr32_eq_rotateRight x (by decide), rotr32_eq_rotateRight x (by decide),
    rotr32_eq_rotateRight x (by decide)]

theorem bsig1_eq (x : Word32) : bsig1 x = x.rotateRight 6 ^^^ x.rotateRight 11 ^^^ x.rotateRight 25 := by
  rw [bsig1, rotr32_eq_rotateRight x (by decide), rotr32_eq_rotateRight x (by decide),
    rotr32_eq_rotateRight x (by decide)]

theorem ssig0_eq (x : Word32) : ssig0 x = x.rotateRight 7 ^^^ x.rotateRight 18 ^^^ (x >>> 3) := by
  rw [ssig0, rotr32_eq_rotateRight x (by decide), rotr32_eq_rotateRight x (by decide)]

theorem ssig1_eq (x : Word32) : ssig1 x = x.rotateRight 17 ^^^ x.rotateRight 19 ^^^ (x >>> 10) := by
  rw [ssig1, rotr32_eq_rotateRight x (by decide), rotr32_eq_rotateRight x (by decide)]

/-- Settles O59: the sequences of working variables and of chaining values are what the two folds compute; words and
digest bytes by index. -/
theorem shaCompressesTheBlocksInOrder : Obligations.ShaCompressesTheBlocksInOrder := by
  refine ⟨fun p b t hb ht => ⟨?_, blockWords_drop_toNat hb ht⟩, fun x => ⟨ssig0_eq x, ssig1_eq x⟩,
    fun h m v hm h0 hv => ?_, fun m H h0 hH => ?_, fun h => ⟨rfl, fun j hj k hk => ?_⟩⟩
  · exact blockWords_length (by rw [List.length_drop]; omega)
  · have hround : ∀ t < 64, v (t + 1) = shaRound (v t) (shaConstants.getD t 0) ((schedule m).getD t 0) :=
      fun t ht => by
        rw [hv t ht, shaRound, bsig0_eq, bsig1_eq]
        rfl
    have hrounds := shaRounds_of_sequence (n := 64) v (ks := shaConstants) rfl (schedule_length hm) hround
    rw [h0] at hrounds
    rw [compress, hrounds]
  · have hfold := foldBlocks_of_sequence (p := shaPadded m) H hH
    rw [h0] at hfold
    rw [sha256, blockCount, hfold]
  · rw [digestBytes_eq_flatMap, getD_flatMap_wordBytes hj hk, getD_wordBytes _ hk]
    rfl

/-! ### The key alone (R108) -/

/-- Settles O13: `KSEED` in `Idle` hashes the key bytes, and leaves `Idle`. -/
theorem seedDependsOnTheKeyOnly : Obligations.SeedDependsOnTheKeyOnly := by
  intro s t s' t' hp hq hlen hkey hs ht
  rcases execKseed_next hs with ⟨hne, -⟩ | ⟨-, -, rfl⟩
  · exact absurd hp hne
  rcases execKseed_next ht with ⟨hne, -⟩ | ⟨-, -, rfl⟩
  · exact absurd hq hne
  have hbytes : s.keyBytes = t.keyBytes := State.keyBytes_congr hlen fun k hk => hkey k (by rwa [hlen])
  exact ⟨congrArg keySeed hbytes, nofun, exec_kseed_of_ne_idle nofun⟩

/-- Settles O30: what the BitPacker sends decodes to the length and the bytes. -/
theorem packThenUnpack : Obligations.PackThenUnpack :=
  fun s => ⟨s.lenFromBits_bitAt, fun j _ => s.byteFromBits_bitAt j⟩

end Sys2Proof.Machine
end

section
/-!
PROOFS. The constants of SHA-256 (spec/41_keyseeder.md R103) against the primes: the primes below 312 as a list, and
the integer roots of their multiples by powers of two.
-/

namespace Sys2Proof.Machine

/-- The `t`-th number with a property is entry `t` of the list of those below any bound. -/
theorem nth_eq_getD_filter_range {p : Nat → Prop} [DecidablePred p] {n t : Nat} {l : List Nat}
    (hl : (List.range n).filter p = l) (ht : t < l.length) : Nat.nth p t = l.getD t 0 := by
  subst hl
  induction n with
  | zero => simp at ht
  | succ n ih =>
    have hcount : ((List.range n).filter p).length = Nat.count p n := by
      rw [Nat.count_eq_card_filter_range]
      rfl
    rw [List.range_succ, List.filter_append, List.filter_singleton] at ht ⊢
    by_cases hp : p n
    · rw [decide_eq_true hp] at ht ⊢
      dsimp only [cond_true] at ht ⊢
      rw [List.length_append, List.length_singleton] at ht
      rcases Nat.lt_succ_iff_lt_or_eq.1 ht with hlt | rfl
      · rw [List.getD_append _ _ _ _ hlt, ih hlt]
      · rw [List.getD_append_right _ _ _ _ le_rfl, Nat.sub_self, List.getD_cons_zero, hcount, Nat.nth_count hp]
    · rw [decide_eq_false hp] at ht ⊢
      dsimp only [cond_false] at ht ⊢
      rw [List.append_nil] at ht ⊢
      exact ih ht

/-- Below `19^2` a number without a proper divisor below 19 is prime. -/
theorem prime_iff_of_lt {p : Nat} (hp : p < 19 ^ 2) : p.Prime ↔ 2 ≤ p ∧ ∀ q < 19, 2 ≤ q → q ∣ p → q = p := by
  refine ⟨fun h => ⟨h.two_le, fun q _ h2 hq => (Nat.prime_dvd_prime_iff_eq ?_ h).1 hq⟩, fun ⟨h2, h⟩ => ?_⟩
  · rwa [(h.eq_one_or_self_of_dvd q hq).resolve_left (by omega)]
  · by_contra hn
    have hlt : p.minFac < 19 := lt_of_pow_lt_pow_left₀ 2 (by decide) ((Nat.minFac_sq_le_self (by omega) hn).trans_lt hp)
    have hprime : p.minFac.Prime := Nat.minFac_prime (by omega)
    exact hn (h p.minFac hlt hprime.two_le p.minFac_dvd ▸ hprime)

/-- The first 64 primes. -/
def firstPrimes : List Nat :=
  [2, 3, 5, 7, 11, 13, 17, 19, 23, 29, 31, 37, 41, 43, 47, 53, 59, 61, 67, 71, 73, 79, 83, 89, 97, 101, 103, 107, 109,
   113, 127, 131, 137, 139, 149, 151, 157, 163, 167, 173, 179, 181, 191, 193, 197, 199, 211, 223, 227, 229, 233, 239,
   241, 251, 257, 263, 269, 271, 277, 281, 283, 293, 307, 311]

theorem filter_prime_range : (List.range 312).filter Nat.Prime = firstPrimes := by
  rw [List.filter_congr (q := fun p => decide (2 ≤ p ∧ ∀ q < 19, 2 ≤ q → q ∣ p → q = p)) fun p hp => by
    rw [decide_eq_decide]
    exact prime_iff_of_lt ((List.mem_range.1 hp).trans (by decide))]
  decide +kernel

theorem nth_prime_eq_getD {t : Nat} (ht : t < 64) : Nat.nth Nat.Prime t = firstPrimes.getD t 0 :=
  nth_eq_getD_filter_range filter_prime_range ht

/-- `c` is the integer part of the root. -/
theorem shaInitial_squareRoots :
    ∀ t < 8, ∃ c < 7,
      let x := c * 2 ^ 32 + (shaInitial.words.getD t 0).toNat
      x ^ 2 ≤ firstPrimes.getD t 0 * 2 ^ 64 ∧ firstPrimes.getD t 0 * 2 ^ 64 < (x + 1) ^ 2 := by
  decide +kernel

theorem shaConstants_cubeRoots :
    ∀ t < 64, ∃ c < 7,
      let x := c * 2 ^ 32 + (shaConstants.getD t 0).toNat
      x ^ 3 ≤ firstPrimes.getD t 0 * 2 ^ 96 ∧ firstPrimes.getD t 0 * 2 ^ 96 < (x + 1) ^ 3 := by
  decide +kernel

/-- Settles O58: the `t`-th prime is entry `t` of the list, and for each entry an integer part is found. -/
theorem shaConstantsAreRootsOfPrimes : Obligations.ShaConstantsAreRootsOfPrimes := by
  refine ⟨fun t ht => ?_, rfl, fun t ht => ?_⟩
  · obtain ⟨c, -, hc⟩ := shaInitial_squareRoots t ht
    rw [nth_prime_eq_getD (by omega)]
    exact ⟨c, hc⟩
  · obtain ⟨c, -, hc⟩ := shaConstants_cubeRoots t ht
    rw [nth_prime_eq_getD ht]
    exact ⟨c, hc⟩

end Sys2Proof.Machine
end

section
/-!
PROOFS. The write of `CMD` (spec/30_encoding.md R60 to R62, spec/10_state.md R19): the encoding as the inverse of
decoding, and the step that runs the command written.
-/

namespace Sys2Proof.Machine

/-- Settles O3: a word is a command exactly when it is that command's word, whose fields are zero and its opcode. -/
theorem decodeAndEncodeAgree : Obligations.DecodeAndEncodeAgree := by
  refine ⟨fun i _ => decode_encode i, fun w i h => (decode_eq_command_iff.1 h).symm,
    fun i => ⟨extractLsb'_zero_encode i, ?_⟩⟩
  rw [Cmd32.ofWord_encode]
  cases i <;> rfl

/-- Settles O4: the seven words are encodings, and the three others differ in `OPCODE` or in `ZERO`. -/
theorem sampleWordsDecode : Obligations.SampleWordsDecode := by
  obtain ⟨hzero, hopcode, -⟩ := illegalWordsAreRefusedByName
  exact ⟨decode_encode .init, decode_encode .kseed, decode_encode .psopen, decode_encode .draw, decode_encode .nextpos,
    decode_encode .embed, decode_encode .extract, hopcode 0x00000000#32 (by decide) (by decide),
    hopcode 0x00000008#32 (by decide) (by decide), hzero 0x00000106#32 (by decide)⟩

/-- The next move as a write of `CMD`. -/
theorem step_write_cmd {s : State} {rest : List HostMove} {w : Word32} (hu : s.hung = false)
    (hh : s.host = .write32 0x00 w :: rest) : step s = issueCommand w (s.popMove rest) := by
  rw [step_move hu hh, hostMove_cmd]

/-- A read of an aligned offset of the window. -/
theorem step_read32 {s : State} {rest : List HostMove} {off : Nat} (hu : s.hung = false)
    (hh : s.host = .read32 off :: rest) (h4 : off % 4 = 0) (hw : off < 0x100) :
    step s = .next { s with host := rest, reply := s.readReg (regAt off) } := by
  rw [step_move hu hh, hostMove, registerAccess_of_aligned h4 hw]
  cases regAt off <;> rfl

theorem ofNat_toNat_mod (w : Word32) : BitVec.ofNat 32 (w.toNat % 2 ^ 32) = w := by
  rw [Nat.mod_eq_of_lt w.isLt, BitVec.ofNat_toNat, BitVec.setWidth_eq]

/-- Settles O5: each kind of access of `CMD` is one step, and `withFetchWord` puts such a write first. -/
theorem stepRunsTheCommandWritten : Obligations.StepRunsTheCommandWritten := by
  refine ⟨fun s rest w i hu hh hd => ?_, fun s rest w why hu hh hd => ?_, fun s rest hu hh => ?_, fun s i => ?_⟩
  · rw [step_write_cmd hu hh, issueCommand_of_command hd, State.popMove]
  · rw [step_write_cmd hu hh, issueCommand_of_illegal hd]
    rfl
  · rw [step_read32 hu hh (by decide) (by decide)]
    rfl
  · have hmove : (s.withFetchWord 32 (encode i).toNat).host = .write32 0x00 (encode i) :: s.host := by
      rw [State.withFetchWord, ofNat_toNat_mod]
    rw [step_write_cmd rfl hmove, issueCommand_of_command (decode_encode i)]
    rfl

end Sys2Proof.Machine
end

section
/-!
PROOFS. Reset, loss of power, the hang and the idle block (spec/70_reset_and_hazards.md R200, R201, R211,
spec/60_exceptions.md R193).
-/

namespace Sys2Proof.Machine

/-- A reset is made between commands and in a hang alike (R200). -/
theorem step_reset {s : State} {rest : List HostMove} (hh : s.host = .reset :: rest) :
    step s = .next (s.popMove rest).hardwareReset := by
  cases hu : s.hung <;> simp [step, hh, hu, hostMove, blockedMove]

theorem step_powerCycle {s : State} {rest : List HostMove} {key msg img : List Host.Cell}
    (hh : s.host = .powerCycle key msg img :: rest) :
    step s = .next ((s.popMove rest).powerCycle key msg img) := by
  cases hu : s.hung <;> simp [step, hh, hu, hostMove, blockedMove]

theorem step_blocked {s : State} {m : HostMove} {rest : List HostMove} (hu : s.hung = true) (hh : s.host = m :: rest) :
    step s = .next (blockedMove m rest s) := by simp [step, hh, hu]

/-- Every other move stays pending while a command hangs (R50). -/
theorem blockedMove_of_pending {m : HostMove} (hr : m ≠ .reset) (hp : ∀ key msg img, m ≠ .powerCycle key msg img)
    (rest : List HostMove) (s : State) : blockedMove m rest s = s := by
  cases m with
  | reset => exact absurd rfl hr
  | powerCycle key msg img => exact absurd rfl (hp key msg img)
  | write32 | read32 | writeByte | readByte | resetDuring => rfl

/-- Settles O51: the reset state written out, and the same for `State.reset`. -/
theorem resetValues : Obligations.ResetValues := by
  refine ⟨fun s rest hh => ?_, rfl⟩
  rw [step_reset hh]
  rfl

/-- Settles O11: a reset clears what `INIT` clears, and the configuration registers. -/
theorem initAndResetDifferInConfiguration : Obligations.InitAndResetDifferInConfiguration := by
  intro s rest hu hh
  refine ⟨_, exec_init _, rfl, rfl, rfl, rfl, rfl, ?_⟩
  rw [step_reset hh, State.freshInvocation, hu]
  rfl

/-- Settles O53: a pending move leaves the state a step starts from, and a reset is made. -/
theorem hangBlocksTheHost : Obligations.HangBlocksTheHost := by
  intro s m rest hu hh
  refine ⟨fun hr hp k => run_fixed ?_ k, fun hr => ⟨_, step_reset (hr ▸ hh), rfl, rfl, rfl⟩⟩
  rw [step_blocked hu hh, blockedMove_of_pending hr hp]

/-- Settles O55: without a move a step answers its own state. -/
theorem idleBlockKeepsItsState : Obligations.IdleBlockKeepsItsState :=
  fun s hh => run_fixed (by rw [step, hh])

/-- Settles O54: the memories are those of `Memory.ofCells`. -/
theorem powerLossGivesResetValues : Obligations.PowerLossGivesResetValues := by
  intro s rest key msg img hh
  refine ⟨_, step_powerCycle hh, State.powerCycle_memoryOk _ key msg img, rfl, fun n cells m hm => ?_⟩
  have hcells : m = Memory.ofCells n cells := by
    rcases hm with ⟨rfl, rfl, rfl⟩ | ⟨rfl, rfl, rfl⟩ | ⟨rfl, rfl, rfl⟩ <;> rfl
  subst hcells
  refine ⟨fun before after a v hc ha hlast => ?_, fun a ha => Memory.read_ofCells_unnamed n ha⟩
  rw [hc, Memory.read_ofCells_last before v ha hlast]

end Sys2Proof.Machine
end

section
/-!
PROOFS. The register window and the memories as the host sees them (spec/10_state.md R18 to R33, spec/20_memory.md R52,
R56).
-/

namespace Sys2Proof.Machine

/-! ### The window (R18, R32) -/

/-- The offsets behind the registers are reserved. -/
theorem regAt_reserved {off : Nat} (h4 : off % 4 = 0) (hw : off < 0x100) (h : off = 0x38 ∨ off = 0x3C ∨ 0x80 ≤ off) :
    regAt off = .reserved := by
  have hall : ∀ o < 0x100, o % 4 = 0 → (o = 0x38 ∨ o = 0x3C ∨ 0x80 ≤ o) → regAt o = .reserved := by decide +kernel
  exact hall off hw h4 h

/-- The registers that a write changes, or issues a command with (R19, R33). -/
def WindowReg.writable : WindowReg → Bool
  | .cmd | .keyLen | .msgLen | .pixelCount | .chancfg => true
  | .status | .fault | .rlen | .issuedLo | .issuedHi | .drawLo | .drawHi | .posPix | .posCh
  | .seedLo _ | .seedHi _ | .sLo _ | .sHi _ | .reserved => false

theorem State.writeReg_of_not_writable (s : State) {r : WindowReg} (hr : r.writable = false) (v : Word32) :
    s.writeReg r v = s := by
  by_cases hp : s.phase = .idle
  · cases r with
    | cmd | keyLen | msgLen | pixelCount | chancfg => cases hr
    | status | fault | rlen | issuedLo | issuedHi | drawLo | drawHi | posPix | posCh | seedLo | seedHi | sLo | sHi
    | reserved => exact if_pos hp
  · exact State.writeReg_of_ne_idle hp r v

/-- Only five offsets of the window hold a register that can be written. -/
theorem regAt_not_writable {off : Nat} (h4 : off % 4 = 0) (hw : off < 0x100)
    (h : off ∉ [0x00, 0x0C, 0x10, 0x14, 0x18]) : (regAt off).writable = false := by
  have hall : ∀ o < 0x100, o % 4 = 0 → o ∉ [0x00, 0x0C, 0x10, 0x14, 0x18] → (regAt o).writable = false := by
    decide +kernel
  exact hall off hw h4 h

/-- Settles O47: a read only answers; a register that cannot be written keeps its value. -/
theorem readsAndIgnoredWritesChangeNothing : Obligations.ReadsAndIgnoredWritesChangeNothing := by
  refine ⟨fun s rest off hu hh h4 hw => step_read32 hu hh h4 hw, fun s rest off hu hh h4 hw hres => ?_,
    fun s rest off v hu hh h4 hw h0 h1 h2 h3 h5 => ?_⟩
  · rw [step_read32 hu hh h4 hw, regAt_reserved h4 hw hres]
    rfl
  · have hr := regAt_not_writable h4 hw (by simp [h0, h1, h2, h3, h5])
    have hcmd : regAt off ≠ .cmd := fun h => by
      rw [h] at hr
      cases hr
    rw [step_write32 hu hh h4 hw hcmd, State.writeReg_of_not_writable _ hr, State.popMove]

theorem registerAccess_of_unaligned {off : Nat} (h4 : off % 4 ≠ 0) (k : WindowReg → Out) :
    registerAccess off k = .refused (.unalignedRegisterAccess off) := if_pos h4

theorem registerAccess_of_outside {off : Nat} (h4 : off % 4 = 0) (hw : 0x100 ≤ off) (k : WindowReg → Out) :
    registerAccess off k = .refused (.outsideWindow off) := by
  rw [registerAccess, if_neg (not_not.2 h4), if_pos (show Config.windowBytes ≤ off from hw)]

/-- Settles O49: the two checks of a register access, in their order. -/
theorem otherRegisterAccessesAreRefused : Obligations.OtherRegisterAccessesAreRefused := by
  intro s rest m off v hu hh hm
  rcases hm with rfl | rfl <;> rw [step_move hu hh, hostMove] <;>
    exact ⟨fun h4 => registerAccess_of_unaligned h4 _, fun h4 hw => registerAccess_of_outside h4 hw _⟩

/-! ### What the registers read (R20 to R31) -/

/-- The bits above the lower part are those of the upper part. -/
theorem extractLsb'_append_above {v w : Nat} (x : BitVec v) (y : BitVec w) (start len : Nat) :
    (x ++ y).extractLsb' (w + start) len = x.extractLsb' start len := by
  rw [BitVec.extractLsb'_append_eq_of_le (Nat.le_add_right w start), Nat.add_sub_cancel_left]

theorem zero_append_eq_setWidth {v w : Nat} (x : BitVec w) : 0#v ++ x = BitVec.setWidth (v + w) x := by
  rw [BitVec.setWidth_eq_append (Nat.le_add_left w v)]
  apply BitVec.eq_of_toNat_eq
  simp

/-- `STATUS` (R24). -/
theorem State.statusWord_fields (s : State) :
    s.statusWord.extractLsb' 0 4 = s.phase.code ∧ s.statusWord.extractLsb' 4 4 = 0#4 ∧
    s.statusWord.getLsbD 8 = s.ill ∧ s.statusWord.extractLsb' 9 23 = 0#23 := by
  have hbit : ∀ x : Word32, x.getLsbD 8 = (x.extractLsb' 8 1).getLsbD 0 := fun x => by simp
  refine ⟨BitVec.extractLsb'_append_eq_right, ?_, ?_, ?_⟩
  · exact (extractLsb'_append_above _ _ 0 4).trans BitVec.extractLsb'_append_eq_right
  · rw [hbit, State.statusWord, extractLsb'_append_above _ _ 4 1, extractLsb'_append_above _ _ 0 1,
      BitVec.extractLsb'_append_eq_right]
    cases s.ill <;> rfl
  · rw [State.statusWord, extractLsb'_append_above _ _ 5 23, extractLsb'_append_above _ _ 1 23,
      extractLsb'_append_above _ _ 0 23]
    exact BitVec.extractLsb'_eq_self

/-- `CHANCFG` (R23). -/
theorem State.readReg_chancfg_fields (s : State) :
    (s.readReg .chancfg).extractLsb' 0 8 = s.usableCh ∧ (s.readReg .chancfg).extractLsb' 8 8 = s.pad ∧
    (s.readReg .chancfg).extractLsb' 16 16 = 0#16 := by
  refine ⟨BitVec.extractLsb'_append_eq_right, ?_, ?_⟩
  · exact (extractLsb'_append_above _ _ 0 8).trans BitVec.extractLsb'_append_eq_right
  · exact (extractLsb'_append_above _ _ 8 16).trans BitVec.extractLsb'_append_eq_left

theorem hi32_append_lo32 (v : Word64) : hi32 v ++ lo32 v = v := BitVec.extractLsb'_append_extractLsb'

/-- `ISSUED` has 40 bits, so its upper half is padded (R13). -/
theorem State.readReg_issued_halves (s : State) :
    s.readReg .issuedHi ++ s.readReg .issuedLo = BitVec.setWidth 64 s.issued := by
  have hhalves := BitVec.extractLsb'_append_extractLsb' (x := s.issued) (w := 8) (len := 32)
  rw [← zero_append_eq_setWidth (v := 24) s.issued]
  conv_rhs => rw [← hhalves]
  exact BitVec.append_assoc

/-- The four 64-bit words of `SEED` and of `s`, by index (R18). -/
theorem regAt_words (i : Fin 4) :
    regAt (0x40 + 8 * i.val) = .seedLo i ∧ regAt (0x44 + 8 * i.val) = .seedHi i ∧
    regAt (0x60 + 8 * i.val) = .sLo i ∧ regAt (0x64 + 8 * i.val) = .sHi i := by
  revert i
  decide

/-- Settles O48: each offset by its register; the registers with fields and the 64-bit values in halves by their
lemmas. -/
theorem registerWindowReads : Obligations.RegisterWindowReads := by
  refine ⟨⟨rfl, rfl, rfl, rfl, rfl, rfl, rfl⟩, ⟨rfl, rfl⟩, fun s => ?_⟩
  obtain ⟨hphase, hgap, hill, hrest⟩ := s.statusWord_fields
  obtain ⟨husable, hpad, hhigh⟩ := s.readReg_chancfg_fields
  refine ⟨hphase, hgap, hill, hrest, zero_append_eq_setWidth _, rfl, rfl, rfl, husable, hpad, hhigh, rfl,
    s.readReg_issued_halves, hi32_append_lo32 s.draw, rfl, zero_append_eq_setWidth _, fun i => ?_, fun i => ?_⟩ <;>
    obtain ⟨hseedLo, hseedHi, hsLo, hsHi⟩ := regAt_words i
  · rw [hseedLo, hseedHi]
    exact hi32_append_lo32 _
  · rw [hsLo, hsHi]
    exact hi32_append_lo32 _

/-! ### The memories (R52, R56) -/

/-- A byte access inside the space and the backing is made. -/
theorem memoryAccess_of_backed {s : State} {sp : Space} {a : Nat} (hsp : a < sp.size) (hb : a < s.backing.bytes sp)
    (o : Out) : memoryAccess s sp a o = o := by
  rw [memoryAccess, if_neg (Nat.not_le_of_lt hsp), if_neg (Nat.not_le_of_lt hb)]

/-- A write reaches one memory only (R217). -/
theorem State.memory_writeByte_of_ne (s : State) {sp sp' : Space} (h : sp' ≠ sp) (a : Nat) (v : Byte) :
    (s.writeByte sp a v).memory sp' = s.memory sp' := by
  cases sp with
  | keymem =>
    cases sp' with
    | keymem => exact absurd rfl h
    | msgmem | imgmem => rfl
  | msgmem =>
    cases sp' with
    | msgmem => exact absurd rfl h
    | keymem | imgmem => rfl
  | imgmem =>
    cases sp' with
    | imgmem => exact absurd rfl h
    | keymem | msgmem => rfl

/-- R52: the byte written is read back, and no other byte of the three memories has changed. -/
theorem State.readByte_writeByte {s : State} (hs : s.MemoryOk) (sp : Space) (a : Nat) (v : Byte) :
    (s.writeByte sp a v).readByte sp a = v ∧
      ∀ sp' b, sp' ≠ sp ∨ b ≠ a → (s.writeByte sp a v).readByte sp' b = s.readByte sp' b := by
  obtain ⟨hkey, hmsg, himg, -⟩ := hs
  refine ⟨?_, fun sp' b h => ?_⟩
  · cases sp with
    | keymem => exact Memory.read_write_same hkey a v
    | msgmem => exact Memory.read_write_same hmsg a v
    | imgmem => exact Memory.read_write_same himg a v
  · by_cases hsp : sp' = sp
    · subst hsp
      have hb : b ≠ a := h.resolve_left (not_not.2 rfl)
      cases sp' <;> exact Memory.read_write_other _ v hb
    · rw [State.readByte, State.readByte, State.memory_writeByte_of_ne s hsp]

/-- Settles O50: the access is made, and a write changes its byte only. -/
theorem hostReachesTheMemories : Obligations.HostReachesTheMemories := by
  refine ⟨fun s rest sp a hu hh hsp hb => ?_, fun s rest sp a v hs hu hh hsp hb => ?_⟩
  · rw [step_move hu hh, hostMove, memoryAccess_of_backed (s := s.popMove rest) hsp hb]
    rfl
  · have hmem : (s.popMove rest).MemoryOk := hs.congr rfl rfl rfl
    obtain ⟨hsame, hother⟩ := State.readByte_writeByte hmem sp a v
    refine ⟨_, by rw [step_move hu hh, hostMove, memoryAccess_of_backed (s := s.popMove rest) hsp hb], hsame, hother, ?_⟩
    cases sp <;> rfl

end Sys2Proof.Machine
end

section
/-!
PROOFS. Hardware reset in the middle of a command (spec/70_reset_and_hazards.md R200): the state that the reset finds,
and what is written in its memories.
-/

namespace Sys2Proof.Machine

/-- The state in which hardware reset finds the block when `w` was written to `CMD` and cut: a word that is no command
has changed nothing but `ILL`, which the reset clears. -/
def cutWord (w : Word32) (cut : Nat) (s : State) : State :=
  match decode w with
  | .illegal _ => s
  | .command i => cutCommand i cut s

theorem cutWord_of_command {w : Word32} {i : Instr} (hd : decode w = .command i) (cut : Nat) (s : State) :
    cutWord w cut s = cutCommand i cut s := by
  rw [cutWord, hd]

theorem resetDuring_next_eq {w : Word32} {cut : Nat} {s t : State} (h : resetDuring w cut s = .next t) :
    t = (cutWord w cut s).hardwareReset := by
  rcases resetDuring_next h with ⟨why, hd, rfl⟩ | ⟨i, hd, rfl⟩
  · rw [cutWord, hd]
  · rw [cutWord_of_command hd]

/-- The cut word has done nothing, or it is `EMBED` or `EXTRACT` with its walk made as far as the cut. -/
theorem cutWord_cases (w : Word32) (cut : Nat) (s : State) :
    cutWord w cut s = s ∨
    (decode w = .command .embed ∧ s.phase = .positionStreamReady ∧ s.streamLen + s.issued.toNat ≤ s.capacity ∧
      cutWord w cut s = (embedLoop (min cut s.streamLen) 0 (s.toPhase .embedding)).state) ∨
    (decode w = .command .extract ∧ s.phase = .positionStreamReady ∧
      cutWord w cut s = (extractWalk cut (s.toPhase .extracting)).state) := by
  cases hd : decode w with
  | illegal why =>
    rw [cutWord, hd]
    exact .inl rfl
  | command i =>
    rw [cutWord_of_command hd]
    rcases cutCommand_cases i cut s with h | ⟨rfl, hp, hroom, h⟩ | ⟨rfl, hp, h⟩
    · exact .inl h
    · exact .inr (.inl ⟨rfl, hp, (s.hasRoom_iff _).1 hroom, h⟩)
    · exact .inr (.inr ⟨rfl, hp, h⟩)

/-! ### What the cut leaves alone -/

theorem cutWord_fields (w : Word32) (cut : Nat) (s : State) :
    (cutWord w cut s).keymem = s.keymem ∧ (cutWord w cut s).backing = s.backing ∧
    (cutWord w cut s).reply = s.reply ∧ (cutWord w cut s).host = s.host := by
  rcases cutWord_cases w cut s with h | ⟨-, -, -, h⟩ | ⟨-, -, h⟩ <;> rw [h]
  · exact ⟨rfl, rfl, rfl, rfl⟩
  · rw [embedLoop_frame]
    exact ⟨rfl, rfl, rfl, rfl⟩
  · rw [extractWalk_frame]
    exact ⟨rfl, rfl, rfl, rfl⟩

/-- Bits 7 to 1 of the image are kept (R162). -/
theorem cutWord_imgmem_and_fe (w : Word32) (cut : Nat) {s : State} (hwf : s.imgmem.wf) (a : Nat) :
    (cutWord w cut s).imgmem.read a &&& 0xFE#8 = s.imgmem.read a &&& 0xFE#8 := by
  rcases cutWord_cases w cut s with h | ⟨-, -, -, h⟩ | ⟨-, -, h⟩ <;> rw [h]
  · obtain ⟨n, ps, u, hn, hpos, hstop⟩ := State.exists_longest_walk (min cut s.streamLen) (s.toPhase .embedding)
    rw [embedLoop_state_of_positions 0 hn hpos hstop]
    exact State.read_embedImage_and_fe _ 0 ps hwf a
  · rw [extractWalk_frame]
    rfl

theorem cutWord_imgmem_of_no_embed {w : Word32} (cut : Nat) {s : State}
    (h : decode w ≠ .command .embed ∨ s.phase ≠ .positionStreamReady ∨ s.capacity < s.streamLen + s.issued.toNat) :
    (cutWord w cut s).imgmem = s.imgmem := by
  rcases cutWord_cases w cut s with hc | ⟨hd, hp, hroom, -⟩ | ⟨-, -, hc⟩
  · rw [hc]
  · rcases h with h | h | h
    · exact absurd hd h
    · exact absurd hp h
    · omega
  · rw [hc, extractWalk_frame]
    rfl

/-- The message byte at the cut and all behind it are not written yet. -/
theorem cutWord_msgmem_read (w : Word32) {cut a : Nat} (ha : cut ≤ a) (s : State) :
    (cutWord w cut s).msgmem.read a = s.msgmem.read a := by
  rcases cutWord_cases w cut s with h | ⟨-, -, -, h⟩ | ⟨-, -, h⟩ <;> rw [h]
  · rw [embedLoop_frame]
    rfl
  · exact extractWalk_read_other cut _ ((Nat.min_le_left _ _).trans ha)

/-- Where the length is not read, or does not fit, no message byte is written. -/
theorem extractWalk_msgmem_of_no_length (limit : Nat) {s : State}
    (h : State.positions 32 s = none ∨ ∃ ps u, State.positions 32 s = some (ps, u) ∧
      s.capacity < 8 * (lenFromBits (s.lsbs ps)).toNat + u.issued.toNat) :
    (extractWalk limit s).state.msgmem = s.msgmem := by
  rcases h with hnone | ⟨ps, u, hpos, hlong⟩
  · have hframe := readBits_frame 32 s
    rcases extractWalk_cases limit s with ⟨t, hr, hw⟩ | ⟨t, hr, hw⟩ | ⟨bits, t, hr, -⟩
    · rw [hr] at hframe
      rw [hw, Walk.state, show t = s.withStream t from hframe]
      rfl
    · rw [hr] at hframe
      rw [hw, Walk.state, show t = s.withStream t from hframe]
      rfl
    · obtain ⟨ps, hpos, -⟩ := positions_of_readBits hr
      cases hnone.symm.trans hpos
  · rw [← State.positions_capacity hpos] at hlong
    rw [extractWalk_of_positions hpos, extractMessage_of_no_room hlong]
    rw [Walk.state, State.setRlen_msgmem, State.positions_withStream hpos]
    rfl

theorem extractWalk_zero_msgmem (s : State) : (extractWalk 0 s).state.msgmem = s.msgmem := by
  cases hpos : State.positions 32 s with
  | none => exact extractWalk_msgmem_of_no_length 0 (.inl hpos)
  | some r =>
    have hmsg : r.2.msgmem = s.msgmem := by
      rw [State.positions_withStream hpos]
      rfl
    rw [extractWalk_of_positions hpos, extractMessage]
    split
    · rw [Nat.zero_min]
      exact hmsg
    · exact hmsg

theorem State.SameStream.positions_none {n : Nat} {s t : State} (h : s.SameStream t)
    (hs : State.positions n s = none) : State.positions n t = none := by
  refine Option.eq_none_iff_forall_ne_some.2 fun r hr => ?_
  obtain ⟨v, hv, -⟩ := h.symm.positions hr
  cases hs.symm.trans hv

theorem cutWord_msgmem_of_no_extract {w : Word32} (cut : Nat) {s : State}
    (h : decode w ≠ .command .extract ∨ s.phase ≠ .positionStreamReady ∨ State.positions 32 s = none ∨
      ∃ ps u, State.positions 32 s = some (ps, u) ∧
        s.capacity < 8 * (lenFromBits (s.lsbs ps)).toNat + u.issued.toNat) :
    (cutWord w cut s).msgmem = s.msgmem := by
  have hsame : s.SameStream (s.toPhase .extracting) := ⟨rfl, rfl, rfl, rfl, rfl⟩
  rcases cutWord_cases w cut s with hc | ⟨-, -, -, hc⟩ | ⟨hd, hp, hc⟩
  · rw [hc]
  · rw [hc, embedLoop_frame]
    rfl
  · rw [hc]
    rcases h with h | h | h | ⟨ps, u, hpos, hlong⟩
    · exact absurd hd h
    · exact absurd hp h
    · exact extractWalk_msgmem_of_no_length cut (.inl (hsame.positions_none h))
    · exact extractWalk_msgmem_of_no_length cut
        (.inr ⟨ps, u.toPhase .extracting, State.positions_toPhase .extracting hpos, hlong⟩)

/-- A cut before the first write. -/
theorem cutWord_zero (w : Word32) (s : State) :
    (cutWord w 0 s).msgmem = s.msgmem ∧ (cutWord w 0 s).imgmem = s.imgmem := by
  rcases cutWord_cases w 0 s with h | ⟨-, -, -, h⟩ | ⟨-, -, h⟩ <;> rw [h]
  · exact ⟨rfl, rfl⟩
  · rw [Nat.zero_min]
    exact ⟨rfl, rfl⟩
  · refine ⟨extractWalk_zero_msgmem _, ?_⟩
    rw [extractWalk_frame]
    rfl

/-! ### What the cut has written -/

section Written
variable {w : Word32} {cut n : Nat} {s : State} (hp : s.phase = .positionStreamReady)
include hp

/-- The first `n` bits of the BitStream are written, `n` being the cut or where the walk ends before it. -/
theorem cutWord_imgmem_of_positions {ps : List Position} {u : State} (hd : decode w = .command .embed)
    (hroom : s.streamLen + s.issued.toNat ≤ s.capacity) (hn : n ≤ min cut s.streamLen)
    (h : State.positions n s = some (ps, u))
    (hstop : n = min cut s.streamLen ∨ State.positions (n + 1) s = none) :
    (cutWord w cut s).imgmem = s.embedImage 0 ps s.imgmem := by
  have hsame : s.SameStream (s.toPhase .embedding) := ⟨rfl, rfl, rfl, rfl, rfl⟩
  have hcut : cutWord w cut s = (embedLoop (min cut s.streamLen) 0 (s.toPhase .embedding)).state := by
    rw [cutWord_of_command hd]
    simp only [cutCommand, if_pos (accepts_embed.2 hp), if_pos ((s.hasRoom_iff _).2 hroom)]
  rw [hcut, embedLoop_image_of_positions 0 hn (State.positions_toPhase .embedding h)
    (hstop.imp_right hsame.positions_none), State.embedImage_toPhase, State.toPhase_imgmem]

theorem cutWord_read_image {ps : List Position} {u : State} (hd : decode w = .command .embed) (hwf : s.imgmem.wf)
    (hroom : s.streamLen + s.issued.toNat ≤ s.capacity) (hn : n ≤ min cut s.streamLen)
    (h : State.positions n s = some (ps, u))
    (hstop : n = min cut s.streamLen ∨ State.positions (n + 1) s = none) :
    (∀ (i : Nat) (p : Position), ps[i]? = some p →
      (cutWord w cut s).imgmem.read (s.lsbAddr p) =
        (s.imgmem.read (s.lsbAddr p) &&& 0xFE#8) ||| (if s.bitAt i then 0x01#8 else 0x00#8)) ∧
    ∀ a, (∀ p ∈ ps, a ≠ s.lsbAddr p) → (cutWord w cut s).imgmem.read a = s.imgmem.read a := by
  rw [cutWord_imgmem_of_positions hp hd hroom hn h hstop]
  refine ⟨fun i p hi => ?_, fun a ha => s.read_embedImage_other 0 ps _ ha⟩
  rw [s.read_embedImage_at 0 hwf (State.addresses_nodup h) hi, Nat.zero_add, withLsb_eq]

/-- The first `n` message bytes are written. -/
theorem cutWord_msgmem_of_positions {ps qs : List Position} {u v : State} (hd : decode w = .command .extract)
    (hpre : State.positions 32 s = some (ps, u))
    (hroom : 8 * (lenFromBits (s.lsbs ps)).toNat + u.issued.toNat ≤ s.capacity)
    (hn : n ≤ min cut (lenFromBits (s.lsbs ps)).toNat) (h : State.positions (8 * n) u = some (qs, v))
    (hstop : n = min cut (lenFromBits (s.lsbs ps)).toNat ∨ State.positions (8 * (n + 1)) u = none) :
    (cutWord w cut s).msgmem = writtenBytes n 0 (s.lsbs qs) s.msgmem := by
  have hu := State.positions_withStream hpre
  have hbits : (s.toPhase .extracting).lsbs ps = s.lsbs ps := rfl
  have hsame : u.SameStream ((u.toPhase .extracting).setRlen (lenFromBits (s.lsbs ps))) :=
    ⟨rfl, rfl, rfl, rfl, rfl⟩
  have hfits : ((u.toPhase .extracting).setRlen (lenFromBits (s.lsbs ps))).hasRoom
      (8 * (lenFromBits (s.lsbs ps)).toNat) = true := by
    rw [← State.positions_capacity hpre] at hroom
    exact (State.hasRoom_iff _ _).2 hroom
  have hlsbs : ((u.toPhase .extracting).setRlen (lenFromBits (s.lsbs ps))).lsbs qs = s.lsbs qs :=
    List.map_congr_left fun p _ => State.lsbAt_congr hu p
  have hcut : cutWord w cut s = (extractWalk cut (s.toPhase .extracting)).state := by
    rw [cutWord_of_command hd]
    simp only [cutCommand, if_pos (accepts_extract.2 hp)]
  rw [hcut, extractWalk_of_positions (State.positions_toPhase .extracting hpre), hbits]
  simp only [extractMessage, if_pos hfits]
  rw [extractBytes_msgmem_of_positions 0 hn (hsame.positions_eq rfl rfl h) (hstop.imp_right hsame.positions_none), hlsbs]
  have hmsg : u.msgmem = s.msgmem := by rw [hu]; rfl
  rw [State.setRlen_msgmem, State.toPhase_msgmem, hmsg]

theorem cutWord_read_message {ps qs : List Position} {u v : State} (hd : decode w = .command .extract)
    (hwf : s.msgmem.wf) (hpre : State.positions 32 s = some (ps, u))
    (hroom : 8 * (lenFromBits (s.lsbs ps)).toNat + u.issued.toNat ≤ s.capacity)
    (hn : n ≤ min cut (lenFromBits (s.lsbs ps)).toNat) (h : State.positions (8 * n) u = some (qs, v))
    (hstop : n = min cut (lenFromBits (s.lsbs ps)).toNat ∨ State.positions (8 * (n + 1)) u = none) :
    (∀ j < n, (cutWord w cut s).msgmem.read j = byteFromBits (((s.lsbs qs).drop (8 * j)).take 8)) ∧
    ∀ a, n ≤ a → (cutWord w cut s).msgmem.read a = s.msgmem.read a := by
  rw [cutWord_msgmem_of_positions hp hd hpre hroom hn h hstop]
  exact writtenBytes_read n (s.lsbs qs) hwf

end Written

/-! ### The step -/

theorem resetDuring_isNext {w : Word32} (cut : Nat) {s : State}
    (hb : ∀ i, decode w = .command i → s.launchBacked i = true) : ∃ t, resetDuring w cut s = .next t := by
  cases hd : decode w with
  | illegal why => exact ⟨_, by rw [resetDuring, hd]⟩
  | command i =>
    rcases exec_next_or_unbacked i s with ⟨t, ht⟩ | ⟨-, hno, -⟩
    · exact ⟨(cutCommand i cut s).hardwareReset, by simp only [resetDuring, hd, ht]⟩
    · cases (hb i hd).symm.trans hno

/-- Settles O52: the step leaves the reset state over the memories of the cut word, and each clause is one of the facts
about these. -/
theorem resetCutsARunningCommand : Obligations.ResetCutsARunningCommand := by
  intro s rest w cut hu hh
  have hstep : step s = resetDuring w cut (s.popMove rest) := by rw [step_move hu hh, hostMove]
  have hsame : s.SameStream (s.popMove rest) := ⟨rfl, rfl, rfl, rfl, rfl⟩
  refine ⟨fun hb => ?_, fun t ht => ?_⟩
  · have hbacked : ∀ i, decode w = .command i → (s.popMove rest).launchBacked i = true := fun i hi => by
      have hi := hb i hi
      cases i <;> exact hi
    rw [hstep]
    exact resetDuring_isNext cut hbacked
  · rw [hstep] at ht
    obtain rfl := resetDuring_next_eq ht
    obtain ⟨hkey, hbacking, hreply, hhost⟩ := cutWord_fields w cut (s.popMove rest)
    refine ⟨?_, fun hwf a => cutWord_imgmem_and_fe w cut (s := s.popMove rest) hwf a, fun a ha => cutWord_msgmem_read w ha _, ?_,
      fun h => cutWord_imgmem_of_no_embed cut h, fun h => cutWord_msgmem_of_no_extract cut ?_, ?_, ?_⟩
    · rw [State.hardwareReset, hkey, hbacking, hreply, hhost]
      rfl
    · rintro rfl
      exact cutWord_zero w (s.popMove rest)
    · refine h.imp_right (Or.imp_right (Or.imp hsame.positions_none ?_))
      rintro ⟨ps, u, hpos, hlong⟩
      exact ⟨ps, _, hsame.positions_eq rfl rfl hpos, hlong⟩
    · intro n ps u hd hp _ hwf hroom hn hpos hstop
      exact cutWord_read_image (s := s.popMove rest) hp hd hwf hroom hn (hsame.positions_eq rfl rfl hpos)
        (hstop.imp_right hsame.positions_none)
    · intro n ps qs u v hd hp hwf hpre hroom hn hmsg hstop
      have hsame' : u.SameStream ((s.popMove rest).withStream u) := by
        rw [State.positions_withStream hpre]
        exact ⟨rfl, rfl, rfl, rfl, rfl⟩
      exact cutWord_read_message (s := s.popMove rest) hp hd hwf (hsame.positions_eq rfl rfl hpre) hroom hn
        (hsame'.positions_eq rfl rfl hmsg) (hstop.imp_right hsame'.positions_none)

end Sys2Proof.Machine
end
